-- ==== Sys2Proof/Word.lean ====
section
/-! DEFINITION. The words of TSLC (00_scope.md R7, R12): a byte, the 32-bit command word, and the
Brightness enumeration. Every value is unsigned, and bit 0 is the least significant bit (R7). -/

namespace Sys2Proof

/-- A byte: 8 bits, bit 7 the most significant (00_scope.md R7). -/
abbrev Byte := BitVec 8

/-- A 16-bit quantity: LEN, STATUS_DETAIL, CMD_IMM16 (10_state.md R22). -/
abbrev Half := BitVec 16

/-- The 32-bit command word CW (30_encoding.md R80). -/
abbrev CommandWord := BitVec 32

/-- The Brightness enumeration (00_scope.md R12). It is a set of names: its interface code BRV, its
2-bit wire code and its 8-bit analog value are three separate functions of it (43_brightness.md R165). -/
inductive Brightness where
  | zero
  | oneSeventh
  | oneHalf
  | full
  deriving DecidableEq, Repr

end Sys2Proof
end

