-- ==== Sys2Proof/Syntax.lean ====
section
/-! DEFINITION. The decoded commands of TSLC: one constructor per row of the opcode map
(30_encoding.md R84), with the operands of its form (R82) at their exact widths (R83). -/

namespace Sys2Proof

/-- A decoded command (30_encoding.md R84). `l` is a declared or text length, `w` the writable bit, `v`
a byte value, `t` the four tally flags (bit i is channel i+1) and `b` a Brightness, which the command
word carries as its BRV (R83). -/
inductive Instr where
  /-- ATTU L, W: attach an unchecked view (40_view.md R100). -/
  | attu (l : Half) (w : Bool)
  /-- ATTC L, W: attach a checked view (40_view.md R102). -/
  | attc (l : Half) (w : Bool)
  /-- REL: consume the view and return the buffer (40_view.md R104). -/
  | rel
  /-- VAL: run the validation pass on the attached buffer (40_view.md R107). -/
  | val
  /-- GADDR: read the device address (41_accessors.md R120). -/
  | gaddr
  /-- GTALLY: read the four tally channels (41_accessors.md R122). -/
  | gtally
  /-- GBRT: read the brightness (41_accessors.md R124). -/
  | gbrt
  /-- GTEXT: read the display text (41_accessors.md R126). -/
  | gtext
  /-- SADDR V: set the device address (42_mutators.md R140). -/
  | saddr (v : Byte)
  /-- STALLY T: set the four tally channels (42_mutators.md R142). -/
  | stally (t : BitVec 4)
  /-- SBRT B: set the brightness (42_mutators.md R144). -/
  | sbrt (b : Brightness)
  /-- STEXT L: set the display text without clearing the rest (42_mutators.md R146). -/
  | stext (l : Half)
  /-- STEXTP L: set the display text and pad the rest with spaces (42_mutators.md R148). -/
  | stextp (l : Half)
  /-- B2A B: convert a Brightness to its analog value (43_brightness.md R163). -/
  | b2a (b : Brightness)
  /-- A2B V: convert an analog value to a Brightness (43_brightness.md R164). -/
  | a2b (v : Byte)
  /-- FMT: render the attached packet as text (44_format.md R170). -/
  | fmt
  deriving DecidableEq, Repr

end Sys2Proof
end

