-- ==== Sys2Proof/WellFormed.lean ====
section
/-! DEFINITION. Well-formedness of what a host writes: the lines of a host program with the operand
ranges of their syntax table (30_encoding.md R89, R90), and the operand ranges of a decoded command
(R83). Whether a raw command word is legal is `legalWord` of Decode.lean (R86). -/

namespace Sys2Proof

/-- One line of a host program (30_encoding.md R89, R90): the base forms `hw` and `hr`, the
pseudo-instruction of each command, the raw word `cmd`, and the data pseudo-instructions. Operands are
the unsigned numbers the line is written with; a string is the list of its bytes. -/
inductive HostLine where
  /-- `hw <addr>, <byte>`: one host write. -/
  | hw (addr byte : Nat)
  /-- `hr <addr>`: one host read. -/
  | hr (addr : Nat)
  /-- `hr <addr> -> <byte>`: one host read that states its expected value. -/
  | hrExpect (addr byte : Nat)
  | attu (l w : Nat)
  | attc (l w : Nat)
  | rel
  | val
  | gaddr
  | gtally
  | gbrt
  | gtext
  | saddr (v : Nat)
  | stally (t : Nat)
  /-- `STALLY {c,...}`: the channel-list form. R89 shows at least one channel; that the list may be empty,
  and then stands for `STALLY 0`, is the model's choice (DESIGN CHOICE, notes/assumptions/12.md). -/
  | stallyChannels (channels : List Nat)
  | sbrt (b : Nat)
  | stext (l : Nat)
  | stextp (l : Nat)
  | b2a (b : Nat)
  | a2b (v : Nat)
  | fmt
  /-- `cmd OP, I16, I8`: a raw command word. -/
  | cmd (op i16 i8 : Nat)
  /-- `ldbuf b0, ..., bn`: load the caller's buffer into PBUF. -/
  | ldbuf (bytes : List Nat)
  /-- `ldtxt "s"`: stage a text in TXTIN. -/
  | ldtxt (bytes : List Nat)
  /-- `rdtxt`: read TXTOUT_LEN and TXTOUT. -/
  | rdtxt
  /-- `rdstat`: read STATUS_CODE and STATUS_DETAIL. -/
  | rdstat
  deriving DecidableEq, Repr

/-- The names of the brightness operands stand for BRV 0, 1, 2 and 3 (30_encoding.md R89). -/
def brvNames : List (String × Nat) := [("ZERO", 0), ("SEVENTH", 1), ("HALF", 2), ("FULL", 3)]

/-- The operand ranges of a host-program line: the syntax table of 30_encoding.md R89 and the lengths of
R90 (`ldbuf` takes 1 to 18 bytes, `ldtxt` at most 16). The empty channel list, the empty `ldtxt` and a
channel named twice are well formed (DESIGN CHOICE, notes/assumptions/12.md). -/
def HostLine.wellFormed : HostLine → Bool
  | .hw a b => decide (a ≤ 255) && decide (b ≤ 255)
  | .hr a => decide (a ≤ 255)
  | .hrExpect a b => decide (a ≤ 255) && decide (b ≤ 255)
  | .attu l w => decide (l ≤ 65535) && decide (w ≤ 1)
  | .attc l w => decide (l ≤ 65535) && decide (w ≤ 1)
  | .rel => true
  | .val => true
  | .gaddr => true
  | .gtally => true
  | .gbrt => true
  | .gtext => true
  | .saddr v => decide (v ≤ 255)
  | .stally t => decide (t ≤ 15)
  | .stallyChannels cs => cs.all fun c => decide (1 ≤ c) && decide (c ≤ 4)
  | .sbrt b => decide (b ≤ 3)
  | .stext l => decide (l ≤ 65535)
  | .stextp l => decide (l ≤ 65535)
  | .b2a b => decide (b ≤ 3)
  | .a2b v => decide (v ≤ 255)
  | .fmt => true
  | .cmd op i16 i8 => decide (op ≤ 255) && decide (i16 ≤ 65535) && decide (i8 ≤ 255)
  | .ldbuf bs => decide (1 ≤ bs.length) && decide (bs.length ≤ 18) && bs.all fun b => decide (b ≤ 255)
  | .ldtxt bs => decide (bs.length ≤ 16) && bs.all fun b => decide (b ≤ 255)
  | .rdtxt => true
  | .rdstat => true

/-- The operand ranges of a decoded command (30_encoding.md R83). The operand types of `Instr` have
exactly these ranges, so every term of `Instr` is well formed (Laws/Decode.lean, `Instr.wellFormed_all`):
every operand value the encoding admits is a command, and the command's own checks reject the values the
codec does not take (R83, last paragraph; notes/assumptions/11.md). -/
def Instr.wellFormed : Instr → Bool
  | .attu l _ => decide (l.toNat ≤ 65535)
  | .attc l _ => decide (l.toNat ≤ 65535)
  | .rel => true
  | .val => true
  | .gaddr => true
  | .gtally => true
  | .gbrt => true
  | .gtext => true
  | .saddr v => decide (v.toNat ≤ 255)
  | .stally t => decide (t.toNat ≤ 15)
  | .sbrt _ => true
  | .stext l => decide (l.toNat ≤ 65535)
  | .stextp l => decide (l.toNat ≤ 65535)
  | .b2a _ => true
  | .a2b v => decide (v.toNat ≤ 255)
  | .fmt => true

end Sys2Proof
end

