-- ==== Sys2Proof/Decode.lean ====
section
/-! DEFINITION. The command encoding (30_encoding.md): fields of the command word, the six operand
forms, the opcode map, the decoder and, after it, the encoder. -/

namespace Sys2Proof

/-! ## Brightness codes -/

/-- The interface code BRV of a Brightness (00_scope.md R12). -/
def brvOf : Brightness → BitVec 2
  | .zero => 0
  | .oneSeventh => 1
  | .oneHalf => 2
  | .full => 3

/-- The Brightness a BRV names; every value names one (00_scope.md R12; 30_encoding.md R83). -/
def brightnessOfBrv (c : BitVec 2) : Brightness :=
  if c = 0 then .zero else if c = 1 then .oneSeventh else if c = 2 then .oneHalf else .full

/-! ## Fields of the command word (R80) and operand assembly (R83) -/

/-- CW bits 31:24, held in CMD_OP (30_encoding.md R80). -/
def opField (cw : CommandWord) : Byte := cw.extractLsb' 24 8

/-- CW bits 23:8, held in CMD_IMM16 (30_encoding.md R80). -/
def imm16Field (cw : CommandWord) : Half := cw.extractLsb' 8 16

/-- CW bits 7:0, held in CMD_IMM8 (30_encoding.md R80). -/
def imm8Field (cw : CommandWord) : Byte := cw.extractLsb' 0 8

/-- `CW = {CMD_OP, CMD_IMM16, CMD_IMM8}` (30_encoding.md R80). -/
def assembleWord (op : Byte) (imm16 : Half) (imm8 : Byte) : CommandWord := op ++ imm16 ++ imm8

/-- Operand L: `zext_16(CW[23:8])` (30_encoding.md R83). -/
def operandL (cw : CommandWord) : Half := imm16Field cw

/-- Operand W: `CW[0]` (30_encoding.md R83). -/
def operandW (cw : CommandWord) : Bool := cw.getLsbD 0

/-- Operand V: `CW[7:0]` (30_encoding.md R83). -/
def operandV (cw : CommandWord) : Byte := imm8Field cw

/-- Operand T: `CW[3:0]`, bit i the flag of tally channel i+1 (30_encoding.md R83). -/
def operandT (cw : CommandWord) : BitVec 4 := cw.extractLsb' 0 4

/-- Operand B: the Brightness that the BRV `CW[1:0]` names (30_encoding.md R83). -/
def operandB (cw : CommandWord) : Brightness := brightnessOfBrv (cw.extractLsb' 0 2)

/-! ## Operand forms (R82) -/

/-- The six operand forms (30_encoding.md R82). -/
inductive Form where
  | n
  | a
  | v
  | t
  | b
  | l
  deriving DecidableEq, Repr

/-- The bits a form reserves: the bits its row marks 0 (30_encoding.md R82). -/
def reservedBits : Form → CommandWord
  | .n => 0x00FFFFFF
  | .a => 0x000000FE
  | .v => 0x00FFFF00
  | .t => 0x00FFFFF0
  | .b => 0x00FFFFFC
  | .l => 0x000000FF

/-! ## The opcode map (R84) -/

/-- One row of the opcode map: op, form, mask and match as 30_encoding.md R84 prints them, and the
command with its operands assembled per R83. -/
structure OpRow where
  op : Byte
  form : Form
  mask : CommandWord
  pattern : CommandWord
  build : CommandWord → Instr

/-- Construction and validation, op 0x0_ (30_encoding.md R84). -/
def viewRows : List OpRow :=
  [⟨0x01, .a, 0xFF0000FE, 0x01000000, fun cw => .attu (operandL cw) (operandW cw)⟩,
   ⟨0x02, .a, 0xFF0000FE, 0x02000000, fun cw => .attc (operandL cw) (operandW cw)⟩,
   ⟨0x03, .n, 0xFFFFFFFF, 0x03000000, fun _ => .rel⟩,
   ⟨0x04, .n, 0xFFFFFFFF, 0x04000000, fun _ => .val⟩]

/-- Accessors, op 0x1_ (30_encoding.md R84). -/
def accessorRows : List OpRow :=
  [⟨0x10, .n, 0xFFFFFFFF, 0x10000000, fun _ => .gaddr⟩,
   ⟨0x11, .n, 0xFFFFFFFF, 0x11000000, fun _ => .gtally⟩,
   ⟨0x12, .n, 0xFFFFFFFF, 0x12000000, fun _ => .gbrt⟩,
   ⟨0x13, .n, 0xFFFFFFFF, 0x13000000, fun _ => .gtext⟩]

/-- Mutators, op 0x2_ (30_encoding.md R84). -/
def mutatorRows : List OpRow :=
  [⟨0x20, .v, 0xFFFFFF00, 0x20000000, fun cw => .saddr (operandV cw)⟩,
   ⟨0x21, .t, 0xFFFFFFF0, 0x21000000, fun cw => .stally (operandT cw)⟩,
   ⟨0x22, .b, 0xFFFFFFFC, 0x22000000, fun cw => .sbrt (operandB cw)⟩,
   ⟨0x23, .l, 0xFF0000FF, 0x23000000, fun cw => .stext (operandL cw)⟩,
   ⟨0x24, .l, 0xFF0000FF, 0x24000000, fun cw => .stextp (operandL cw)⟩]

/-- Brightness conversions, op 0x3_, and formatting, op 0x4_ (30_encoding.md R84). -/
def conversionRows : List OpRow :=
  [⟨0x30, .b, 0xFFFFFFFC, 0x30000000, fun cw => .b2a (operandB cw)⟩,
   ⟨0x31, .v, 0xFFFFFF00, 0x31000000, fun cw => .a2b (operandV cw)⟩,
   ⟨0x40, .n, 0xFFFFFFFF, 0x40000000, fun _ => .fmt⟩]

/-- The opcode map (30_encoding.md R84). -/
def opcodeMap : List OpRow := viewRows ++ accessorRows ++ mutatorRows ++ conversionRows

/-- The row of the opcode map with a given op, if there is one (30_encoding.md R85). -/
def rowOf (op : Byte) : Option OpRow := opcodeMap.find? fun r => r.op == op

/-! ## The decoder (R85, R86) -/

/-- Why a command word is ILLEGAL (30_encoding.md R86). Executing such a word is not a stop: it raises
E_ILLEGAL_COMMAND (R85). -/
inductive DecodeError where
  /-- Its op is one of the 240 unassigned values. -/
  | unassignedOp (op : Byte)
  /-- Its op is assigned, but a bit its form reserves is 1. -/
  | reservedBitSet (op : Byte)
  /-- A byte sequence that is not 4 bytes long is no command word at all (R80: every command is 4 bytes). -/
  | notFourBytes
  deriving DecidableEq, Repr

/-- `decode(CW)` of 30_encoding.md R85: total, strict, one meaning per word. -/
def decode (cw : CommandWord) : Except DecodeError Instr :=
  match rowOf (opField cw) with
  | none => .error (.unassignedOp (opField cw))
  | some r => if cw &&& r.mask = r.pattern then .ok (r.build cw) else .error (.reservedBitSet (opField cw))

/-- A command word is legal when it decodes to a command (30_encoding.md R86). -/
def legalWord (cw : CommandWord) : Bool :=
  match decode cw with
  | .ok _ => true
  | .error _ => false

/-- The decoder on the bytes of host addresses 0x40, 0x41, 0x42 and 0x43, in that order: the word is
their little-endian value (20_memory.md R52; 30_encoding.md R80). -/
def decodeBytes : List Byte → Except DecodeError Instr
  | [imm8, lo, hi, op] => decode (assembleWord op (hi ++ lo) imm8)
  | _ => .error .notFourBytes

/-! ## The encoder -/

/-- The op of a command (30_encoding.md R84). -/
def opcode : Instr → Byte
  | .attu _ _ => 0x01
  | .attc _ _ => 0x02
  | .rel => 0x03
  | .val => 0x04
  | .gaddr => 0x10
  | .gtally => 0x11
  | .gbrt => 0x12
  | .gtext => 0x13
  | .saddr _ => 0x20
  | .stally _ => 0x21
  | .sbrt _ => 0x22
  | .stext _ => 0x23
  | .stextp _ => 0x24
  | .b2a _ => 0x30
  | .a2b _ => 0x31
  | .fmt => 0x40

/-- The imm16 field of a command, by its form (30_encoding.md R82). -/
def encodeImm16 : Instr → Half
  | .attu l _ | .attc l _ | .stext l | .stextp l => l
  | .rel | .val | .gaddr | .gtally | .gbrt | .gtext | .fmt => 0
  | .saddr _ | .stally _ | .sbrt _ | .b2a _ | .a2b _ => 0

/-- The imm8 field of a command, by its form (30_encoding.md R82). -/
def encodeImm8 : Instr → Byte
  | .attu _ w | .attc _ w => 0#7 ++ BitVec.ofBool w
  | .saddr v | .a2b v => v
  | .stally t => 0#4 ++ t
  | .sbrt b | .b2a b => 0#6 ++ brvOf b
  | .rel | .val | .gaddr | .gtally | .gbrt | .gtext | .fmt => 0
  | .stext _ | .stextp _ => 0

/-- The command word of a command (30_encoding.md R80, R82, R84). -/
def encode (i : Instr) : CommandWord := assembleWord (opcode i) (encodeImm16 i) (encodeImm8 i)

/-- The four bytes of a command word as the host writes them to 0x40, 0x41, 0x42 and 0x43
(20_memory.md R52; 30_encoding.md R89). -/
def wordBytes (cw : CommandWord) : List Byte :=
  [imm8Field cw, cw.extractLsb' 8 8, cw.extractLsb' 16 8, opField cw]

/-! ## The opcode table's own numbering -/

/-- The command word whose bits the opcode table numbers as `w`: the table numbers a row's bits as CW
numbers them, and bits above `nbits` are 0. -/
def tableWord (nbits w : Nat) : CommandWord := BitVec.ofNat 32 (w % 2 ^ nbits)

/-- The command this decoder reads from a table row of `nbits` bits whose bits are `w`: the word is laid
out as its four bytes and given to `decodeBytes`. Every command is one 32-bit word (30_encoding.md R80),
so a longer row is refused (notes/assumptions/16.md). -/
def decodeTableWord (nbits w : Nat) : Option Instr :=
  if nbits ≤ 32 then
    match decodeBytes (wordBytes (tableWord nbits w)) with
    | .ok i => some i
    | .error _ => none
  else none

end Sys2Proof
end

