-- ==== Sys2Proof/Config.lean ====
section
/-! DEFINITION. The parameters of TSLC (00_scope.md R6), the bases of the register arrays in the host
register space (20_memory.md R55), and the two parameters the spec leaves open. -/

namespace Sys2Proof.Config

/-- PKT_LEN, the packet length in bytes, at the width of LEN (LEN_W = 16) (00_scope.md R6). -/
def pktLen : Half := 18

/-- ADDR_OFF, the packet offset of the address byte (00_scope.md R6). -/
def addrOff : Nat := 0

/-- CTRL_OFF, the packet offset of the control byte (00_scope.md R6). -/
def ctrlOff : Nat := 1

/-- DISP_OFF, the packet offset of the first display byte (00_scope.md R6). -/
def dispOff : Nat := 2

/-- DISP_LEN, the number of display bytes (00_scope.md R6). -/
def dispLen : Nat := 16

/-- TALLY_N, the number of tally channels (00_scope.md R6). -/
def tallyN : Nat := 4

/-- ADDR_SET_MAX, the largest address SADDR accepts (00_scope.md R6). -/
def addrSetMax : Byte := 0x7E

/-- TEXT_LO, the first printable byte (00_scope.md R6, R11). -/
def textLo : Byte := 0x20

/-- TEXT_HI, the last printable byte, 0x7F included (00_scope.md R6, R11). -/
def textHi : Byte := 0x7F

/-- PAD_NUL, the padding byte validation tolerates (00_scope.md R6). -/
def padNul : Byte := 0x00

/-- The byte STEXTP pads with and GTEXT trims, the space (42_mutators.md R148; 41_accessors.md R125). -/
def space : Byte := 0x20

/-- TEXTIN_CAP, the number of TXTIN bytes (00_scope.md R6); TXTOUT has as many (10_state.md R22). -/
def textinCap : Nat := 16

/-- FMT_CAP, the number of FMTOUT bytes (00_scope.md R6). -/
def fmtCap : Nat := 128

/-- ANALOG_ONE_SEVENTH, the analog value of OneSeventh (00_scope.md R6; 43_brightness.md R161;
92_eei_decisions.md D21; notes/assumptions/7.md). -/
def analogOneSeventh : Byte := 36

/-- The number of PBUF bytes (10_state.md R23). -/
def pbufSize : Nat := 18

/-- Host address of PBUF[0] (20_memory.md R55). -/
def pbufBase : Nat := 0x00

/-- Host address of TXTIN[0] (20_memory.md R55). -/
def txtinBase : Nat := 0x20

/-- Host address of TXTOUT[0] (20_memory.md R55). -/
def txtoutBase : Nat := 0x30

/-- Host address of FMTOUT[0] (20_memory.md R55). -/
def fmtoutBase : Nat := 0x80

/-- TSLC_BASE: where the 256-byte host register space appears in a larger system's address space. The
spec leaves it to the integrator and no rule depends on it (20_memory.md R60): a free value, with no
body, that nothing in this model reads (notes/assumptions/6.md). -/
opaque tslcBase : Nat

/-- CMD_LATENCY: the finite number of cycles a command takes, the same for every command word. The spec
leaves it open and no rule depends on it (70_reset_and_hazards.md R212): a free value, with no body,
that nothing in this model reads (notes/assumptions/6.md). -/
opaque cmdLatency : Nat

end Sys2Proof.Config
end

