-- ==== Sys2Proof/Machine/State.lean ====
section
/-! DEFINITION. The state of TSLC: every register of 10_state.md R22, and the model's own two fields for
the host port (the events still to come, and the bytes already returned). -/

namespace Sys2Proof.Machine

/-- Byte storage: a list of (address, byte) pairs, in the canonical form of `Memory.wf` (Ops.lean). It
holds the register arrays PBUF, TXTIN, TXTOUT and FMTOUT at their host addresses (20_memory.md R55);
an unlisted address reads 0x00, their reset contents (70_reset_and_hazards.md R200). -/
abbrev Memory := List Host.Cell

/-- One event in the total order of 20_memory.md R62: a host access of one byte (R53), or a reset, which
falls between two accesses (70_reset_and_hazards.md R200). -/
inductive HostEvent where
  /-- `MemWrite(addr, 1, value)` (00_scope.md R9). -/
  | write (addr : Byte) (value : Byte)
  /-- `MemRead(addr, 1)` (00_scope.md R9). -/
  | read (addr : Byte)
  /-- The reset input (70_reset_and_hazards.md R200). -/
  | reset
  deriving DecidableEq, Repr

/-- The errors of 60_exceptions.md R180, under the spec's names. -/
inductive Err where
  | lengthMismatch
  | invalidAddressMarker
  | invalidDisplayByte
  | addressOutOfRange
  | textTooLong
  | textInvalidByte
  | analogNotEncodable
  | illegalCommand
  | noView
  | alreadyAttached
  | notWritable
  | fieldLength
  deriving DecidableEq, Repr

/-- An error with its detail: what `raise E(d)` reports (00_scope.md R10). -/
structure Failure where
  err : Err
  detail : Half
  deriving DecidableEq, Repr

/-- The machine: the registers of 10_state.md R22, then the model's own host-port fields. -/
structure State where
  /-- PBUF, TXTIN, TXTOUT and FMTOUT, at their host addresses (10_state.md R23, R26, R27, R31). -/
  mem : Memory
  /-- LEN, the declared length of the caller's buffer (10_state.md R24). -/
  len : Half
  /-- VSTATE: VIEW in bits 1:0, W in bit 2, bits 7:3 reserved (10_state.md R25). -/
  vstate : Byte
  /-- TXTOUT_LEN (10_state.md R27). -/
  txtoutLen : Byte
  /-- RES (10_state.md R28). -/
  res : Byte
  /-- STATUS_CODE (10_state.md R29; 60_exceptions.md R180). -/
  statusCode : Byte
  /-- STATUS_DETAIL (10_state.md R29; 60_exceptions.md R180). -/
  statusDetail : Half
  /-- FLAGS: HWV in bit 0, bits 7:1 reserved (10_state.md R29). -/
  flags : Byte
  /-- CMD_IMM8 (10_state.md R30). -/
  cmdImm8 : Byte
  /-- CMD_IMM16 (10_state.md R30). -/
  cmdImm16 : Half
  /-- CMD_OP (10_state.md R30). -/
  cmdOp : Byte
  /-- FMT_LEN (10_state.md R31). -/
  fmtLen : Byte
  /-- The model's own: the host events still to come, oldest first. One step performs the oldest
  (20_memory.md R62). -/
  pending : List HostEvent
  /-- The model's own: the bytes the port has returned to host reads, newest first. -/
  returned : List Byte
  deriving DecidableEq, Repr

/-- The state right after reset: every register 0, every array byte 0x00 (10_state.md R22;
70_reset_and_hazards.md R200); no event pending and no byte returned (DESIGN CHOICE,
notes/assumptions/2.md and 3.md). -/
def State.reset : State where
  mem := []
  len := 0
  vstate := 0
  txtoutLen := 0
  res := 0
  statusCode := 0
  statusDetail := 0
  flags := 0
  cmdImm8 := 0
  cmdImm16 := 0
  cmdOp := 0
  fmtLen := 0
  pending := []
  returned := []

/-- The faults of the machine: none. TSLC has no fault or trap mechanism (60_exceptions.md R185;
93_implementation_defined.md, Treatments), and every address of the host register space is defined
(20_memory.md R55, R56); so this type has no constructor, which is safe (notes/assumptions/8.md). -/
inductive Fault where
  deriving DecidableEq, Repr

/-- The refusals of the machine. -/
inductive Refusal where
  /-- Raised by an arm of `exec` for a command that has no meaning yet. No arm does: every command of
  the opcode map has its meaning. Safe: the machine would stop where the hardware goes on. -/
  | notModelled (mnemonic : String)
  deriving DecidableEq, Repr

end Sys2Proof.Machine
end

