-- ==== Sys2Proof/Machine/Flags.lean ====
section
/-! DEFINITION. The status codes (60_exceptions.md R180) and the fields of the two status registers
VSTATE (10_state.md R25) and FLAGS (R29). -/

namespace Sys2Proof.Machine

/-! ## Status codes -/

/-- `code(E)` (60_exceptions.md R180). -/
def errCode : Err → Byte
  | .lengthMismatch => 0x01
  | .invalidAddressMarker => 0x02
  | .invalidDisplayByte => 0x03
  | .addressOutOfRange => 0x04
  | .textTooLong => 0x05
  | .textInvalidByte => 0x06
  | .analogNotEncodable => 0x07
  | .illegalCommand => 0x10
  | .noView => 0x11
  | .alreadyAttached => 0x12
  | .notWritable => 0x13
  | .fieldLength => 0x14

/-- The code of a command that completes (60_exceptions.md R180). -/
def codeOk : Byte := 0x00

/-! ## VSTATE -/

/-- VIEW = NONE (10_state.md R25). -/
def viewNone : BitVec 2 := 0

/-- VIEW = UNCHECKED (10_state.md R25). -/
def viewUnchecked : BitVec 2 := 1

/-- VIEW = CHECKED (10_state.md R25). -/
def viewChecked : BitVec 2 := 2

/-- VSTATE.VIEW, bits 1:0 (10_state.md R25). -/
def viewOf (vstate : Byte) : BitVec 2 := vstate.extractLsb' 0 2

/-- VSTATE.W, bit 2 (10_state.md R25). -/
def writableOf (vstate : Byte) : Bool := vstate.getLsbD 2

/-- `{0b00000, W, VIEW}` (40_view.md R100, R102). -/
def packVstate (w : Bool) (view : BitVec 2) : Byte := 0#5 ++ BitVec.ofBool w ++ view

/-- A view is attached: VIEW is not NONE. VIEW = 3 is never held (10_state.md R25); in a state no run
reaches it counts as attached (notes/assumptions/9.md). -/
def State.attached (s : State) : Bool := viewOf s.vstate != viewNone

/-- The view is writable (10_state.md R25). -/
def State.writable (s : State) : Bool := writableOf s.vstate

/-! ## FLAGS -/

/-- FLAGS.HWV, bit 0 (10_state.md R29). -/
def hwvOf (flags : Byte) : Bool := flags.getLsbD 0

/-- `FLAGS.HWV <- 1` (20_memory.md R58). -/
def setHwv (flags : Byte) : Byte := flags ||| 0x01

/-- A host write of `v` to FLAGS: bit 0 = 1 clears HWV, bit 0 = 0 leaves it, and bits 7:1 are read-only
(10_state.md R29; 20_memory.md R55, R57). -/
def writeFlags (v flags : Byte) : Byte := if v.getLsbD 0 then flags &&& 0xFE else flags

/-- What a host read of FLAGS returns: bits 7:1 read as 0 (10_state.md R29; notes/assumptions/10.md). -/
def readFlags (flags : Byte) : Byte := flags &&& 0x01

end Sys2Proof.Machine
end

