-- ==== Sys2Proof/Machine/Ops.lean ====
section
/-! DEFINITION. The named operations over memory and registers: byte storage in canonical form, one
named update per register, the register arrays, ending a command (`raise` and `complete`, 00_scope.md
R10), and the shape every command has (60_exceptions.md R184). -/

namespace Sys2Proof.Machine

/-! ## Byte storage -/

/-- What an unlisted address reads as: 0x00, the reset value of every array byte
(70_reset_and_hazards.md R200; notes/assumptions/4.md). -/
def resetByte : Byte := 0x00

/-- The byte at an address. -/
def Memory.read : Memory → Nat → Byte
  | [], _ => resetByte
  | c :: m, a => if c.1 = a then c.2 else Memory.read m a

/-- The storage with no entry for an address. -/
def Memory.erase (m : Memory) (a : Nat) : Memory := m.filter fun c => c.1 != a

/-- The storage with an entry put where addresses rise. -/
def Memory.insert : Memory → Nat → Byte → Memory
  | [], a, b => [(a, b)]
  | c :: m, a, b => if a < c.1 then (a, b) :: c :: m else c :: Memory.insert m a b

/-- Store one byte. Storing what an unlisted address reads as leaves the address unlisted. -/
def Memory.write (m : Memory) (a : Nat) (b : Byte) : Memory :=
  if b = resetByte then Memory.erase m a else Memory.insert (Memory.erase m a) a b

/-- Store bytes at consecutive addresses, the first at `base`. -/
def Memory.writeBytes : Memory → Nat → List Byte → Memory
  | m, _, [] => m
  | m, base, b :: bs => Memory.writeBytes (Memory.write m base b) (base + 1) bs

/-- Addresses rise strictly. -/
def Memory.rising : Memory → Bool
  | [] => true
  | c :: m => (m.all fun d => decide (c.1 < d.1)) && Memory.rising m

/-- The canonical form: addresses strictly rising, and no entry equal to what an unlisted address reads. -/
def Memory.wf (m : Memory) : Bool := Memory.rising m && m.all fun c => c.2 != resetByte

/-! ## One named update per register -/

/-- Write STATUS_CODE and STATUS_DETAIL. -/
def State.setStatus (s : State) (code : Byte) (detail : Half) : State :=
  { s with statusCode := code, statusDetail := detail }

def State.setMem (s : State) (m : Memory) : State := { s with mem := m }
def State.setLen (s : State) (v : Half) : State := { s with len := v }
def State.setVstate (s : State) (v : Byte) : State := { s with vstate := v }
def State.setTxtoutLen (s : State) (v : Byte) : State := { s with txtoutLen := v }
def State.setRes (s : State) (v : Byte) : State := { s with res := v }
def State.setFlags (s : State) (v : Byte) : State := { s with flags := v }
def State.setCmdImm8 (s : State) (v : Byte) : State := { s with cmdImm8 := v }
def State.setCmdImm16 (s : State) (v : Half) : State := { s with cmdImm16 := v }
def State.setCmdOp (s : State) (v : Byte) : State := { s with cmdOp := v }
def State.setFmtLen (s : State) (v : Byte) : State := { s with fmtLen := v }
def State.setPending (s : State) (es : List HostEvent) : State := { s with pending := es }
def State.setReturned (s : State) (bs : List Byte) : State := { s with returned := bs }

/-! ## The register arrays -/

/-- `PBUF[k]` (10_state.md R23). -/
def State.pbuf (s : State) (k : Nat) : Byte := Memory.read s.mem (Config.pbufBase + k)

/-- The byte at display offset `k`, `PBUF[2+k]` (00_scope.md R13). -/
def State.display (s : State) (k : Nat) : Byte := s.pbuf (Config.dispOff + k)

/-- `TXTIN[j]` (10_state.md R26). -/
def State.txtin (s : State) (j : Nat) : Byte := Memory.read s.mem (Config.txtinBase + j)

/-- `TXTOUT[j]` (10_state.md R27). -/
def State.txtout (s : State) (j : Nat) : Byte := Memory.read s.mem (Config.txtoutBase + j)

/-- `FMTOUT[j]` (10_state.md R31). -/
def State.fmtout (s : State) (j : Nat) : Byte := Memory.read s.mem (Config.fmtoutBase + j)

/-- `PBUF[k] <- b`. -/
def State.setPbuf (s : State) (k : Nat) (b : Byte) : State :=
  s.setMem (Memory.write s.mem (Config.pbufBase + k) b)

/-- `TXTIN[j] <- b`. -/
def State.setTxtin (s : State) (j : Nat) (b : Byte) : State :=
  s.setMem (Memory.write s.mem (Config.txtinBase + j) b)

/-- Write the display region from its start: `PBUF[2+j] <- bs[j]` for every j below the length. -/
def State.setDisplay (s : State) (bs : List Byte) : State :=
  s.setMem (Memory.writeBytes s.mem (Config.pbufBase + Config.dispOff) bs)

/-- Write TXTOUT from its start. -/
def State.setTxtout (s : State) (bs : List Byte) : State :=
  s.setMem (Memory.writeBytes s.mem Config.txtoutBase bs)

/-- Write FMTOUT from its start. -/
def State.setFmtout (s : State) (bs : List Byte) : State :=
  s.setMem (Memory.writeBytes s.mem Config.fmtoutBase bs)

/-- The bytes `f 0, ..., f (n-1)`. -/
def tabulate (n : Nat) (f : Nat → Byte) : List Byte := (List.range n).map f

/-! ## The command word -/

/-- `{CMD_OP, CMD_IMM16, CMD_IMM8}` (30_encoding.md R80). -/
def State.commandWord (s : State) : CommandWord := assembleWord s.cmdOp s.cmdImm16 s.cmdImm8

/-- The state in which a command word waits to be issued: its operand bytes are in CMD_IMM8 and
CMD_IMM16, and the host's next access is the write of its op to CMD_OP (30_encoding.md R81). -/
def State.placeCommand (s : State) (cw : CommandWord) : State :=
  ((s.setCmdImm8 (imm8Field cw)).setCmdImm16 (imm16Field cw)).setPending
    (.write 0x43 (opField cw) :: s.pending)

/-! ## Ending a command -/

/-- `raise E(d)`: write the code and the detail, and change nothing else (00_scope.md R10). This is all
the error entry TSLC has: no vector, no saved pc, no mode change (60_exceptions.md R185), and there is
nothing to return from (R186). -/
def raise (f : Failure) (s : State) : State := s.setStatus (errCode f.err) f.detail

/-- `complete(d)` (00_scope.md R10). -/
def complete (d : Half) (s : State) : State := s.setStatus codeOk d

/-- The shape of every command: the first failing check is raised and nothing else happens, or every
check passes and the command's writes end in `complete(0)` (60_exceptions.md R183, R184). -/
def command (check : Option Failure) (effect : State → State) (s : State) :
    Host.Outcome State Fault Refusal :=
  .next (match check with
    | some f => raise f s
    | none => complete 0 (effect s))

/-- The next state of an outcome, if it has one. -/
def nextState : Host.Outcome State Fault Refusal → Option State
  | .next s => some s
  | .fault _ => none
  | .refused _ => none

end Sys2Proof.Machine
end

