-- ==== Sys2Proof/Machine/Operands.lean ====
section
/-! DEFINITION. What the commands share: the byte classes (00_scope.md R11), the checks
(60_exceptions.md R182; 40_view.md R106; 42_mutators.md R145), the text functions (41_accessors.md
R125), and the two brightness mappings (43_brightness.md R160, R161). -/

namespace Sys2Proof.Machine

/-! ## Byte classes (00_scope.md R11) -/

/-- Printable, 0x7F included (00_scope.md R11). -/
def isText (b : Byte) : Bool := decide (Config.textLo ≤ b) && decide (b ≤ Config.textHi)

/-- Printable, or the tolerated null (00_scope.md R11). -/
def isDisp (b : Byte) : Bool := isText b || b == Config.padNul

/-- The lowest `k` below `n` with `p k`, if there is one: a scan in ascending order that stops at its
first hit. -/
def firstIndex (n : Nat) (p : Nat → Bool) : Option Nat := (List.range n).find? p

/-! ## Checks: each gives the error it raises, or nothing -/

/-- `if VSTATE.VIEW != NONE: raise E_ALREADY_ATTACHED(0)` (40_view.md R100, R102). -/
def checkDetached (s : State) : Option Failure :=
  if s.attached then some ⟨.alreadyAttached, 0⟩ else none

/-- `if VSTATE.VIEW == NONE: raise E_NO_VIEW(0)` (40_view.md R104, R107). -/
def checkAttached (s : State) : Option Failure :=
  if s.attached then none else some ⟨.noView, 0⟩

/-- `fieldAccess(needW)` (60_exceptions.md R182). -/
def fieldAccess (needW : Bool) (s : State) : Option Failure :=
  if s.attached = false then some ⟨.noView, 0⟩
  else if needW && !s.writable then some ⟨.notWritable, 0⟩
  else if s.len ≠ Config.pktLen then some ⟨.fieldLength, s.len⟩
  else none

/-- `validatePass(n)`: length, marker, then the display bytes in ascending order, stopping at the first
violation; the scan does not stop at a null (40_view.md R106; 90_conflicts.md C2). -/
def validatePass (n : Half) (s : State) : Option Failure :=
  if n ≠ Config.pktLen then some ⟨.lengthMismatch, n⟩
  else if (s.pbuf Config.addrOff).getLsbD 7 = false then some ⟨.invalidAddressMarker, 0⟩
  else match firstIndex Config.dispLen fun k => !isDisp (s.display k) with
    | some k => some ⟨.invalidDisplayByte, BitVec.ofNat 16 k⟩
    | none => none

/-- `if V > 0x7E: raise E_ADDRESS_OUT_OF_RANGE(V)` (42_mutators.md R140). -/
def checkAddress (v : Byte) : Option Failure :=
  if Config.addrSetMax < v then some ⟨.addressOutOfRange, v.setWidth 16⟩ else none

/-- The text operand's checks: first the length, then the bytes in ascending order (42_mutators.md R145). -/
def checkText (l : Half) (s : State) : Option Failure :=
  if Config.textinCap < l.toNat then some ⟨.textTooLong, l⟩
  else match firstIndex l.toNat fun j => !isText (s.txtin j) with
    | some j => some ⟨.textInvalidByte, BitVec.ofNat 16 j⟩
    | none => none

/-! ## Text -/

/-- The staged text `TXTIN[0..L-1]` (42_mutators.md R145). -/
def stagedText (l : Half) (s : State) : List Byte := tabulate l.toNat s.txtin

/-- The staged text padded with spaces to the whole region (42_mutators.md R148). -/
def paddedText (l : Half) (s : State) : List Byte :=
  tabulate Config.dispLen fun j => if j < l.toNat then s.txtin j else Config.space

/-- `while n > 0 and d[n-1] == 0x20: n <- n - 1`: only 0x20 is trimmed (41_accessors.md R125). -/
def trimSpaces (d : Nat → Byte) : Nat → Nat
  | 0 => 0
  | n + 1 => if d n = Config.space then trimSpaces d n else n + 1

/-- The display offset of the first null, or 16 (41_accessors.md R125). -/
def firstNull (s : State) : Nat :=
  (firstIndex Config.dispLen fun k => s.display k == Config.padNul).getD Config.dispLen

/-- `textLen()`, the length of the decoded text (41_accessors.md R125). -/
def textLen (s : State) : Nat := trimSpaces s.display (firstNull s)

/-- The decoded text, `PBUF[2..2+textLen()-1]` (41_accessors.md R125). -/
def decodedText (s : State) : List Byte := tabulate (textLen s) s.display

/-- `(j < |bs|) ? bs[j] : 0x00` for j below `n` (41_accessors.md R126; 44_format.md R170). -/
def zeroFill (n : Nat) (bs : List Byte) : List Byte := tabulate n fun j => bs.getD j 0x00

/-! ## Brightness -/

/-- `wireEncode`, the 2-bit code of the control byte (43_brightness.md R160). -/
def wireEncode : Brightness → BitVec 2
  | .zero => 0b00
  | .oneSeventh => 0b01
  | .oneHalf => 0b10
  | .full => 0b11

/-- `wireDecode`; total, with no default case (43_brightness.md R160). -/
def wireDecode (c : BitVec 2) : Brightness :=
  if c = 0b00 then .zero else if c = 0b01 then .oneSeventh else if c = 0b10 then .oneHalf else .full

/-- `analogEncode`, the 8-bit analog value (43_brightness.md R161). -/
def analogEncode : Brightness → Byte
  | .zero => 0
  | .oneSeventh => Config.analogOneSeventh
  | .oneHalf => 128
  | .full => 255

/-- The Brightness whose analog value is exactly `v`; 252 values have none (43_brightness.md R164). -/
def analogDecode (v : Byte) : Option Brightness :=
  if v = 0 then some .zero
  else if v = Config.analogOneSeventh then some .oneSeventh
  else if v = 128 then some .oneHalf
  else if v = 255 then some .full
  else none

/-- The packet's brightness, `wireDecode(PBUF[1][5:4])` (41_accessors.md R124). -/
def packetBrightness (s : State) : Brightness :=
  wireDecode ((s.pbuf Config.ctrlOff).extractLsb' 4 2)

/-- The packet's tally flags, `PBUF[1][3:0]` (41_accessors.md R122). -/
def packetTally (s : State) : BitVec 4 := (s.pbuf Config.ctrlOff).extractLsb' 0 4

/-- The packet's device address, `PBUF[0] & 0x7F` (41_accessors.md R120). -/
def packetAddress (s : State) : Byte := s.pbuf Config.addrOff &&& 0x7F

end Sys2Proof.Machine
end

