-- ==== Sys2Proof/Machine/Accessors.lean ====
section
/-! DEFINITION. Field accessors: GADDR, GTALLY, GBRT, GTEXT (41_accessors.md). -/

namespace Sys2Proof.Machine

/-- GADDR (41_accessors.md R120): the marker bit is discarded, and 127 is a value like any other (R121). -/
def execGaddr (s : State) : Host.Outcome State Fault Refusal :=
  command (fieldAccess false s) (fun s => s.setRes (packetAddress s)) s

/-- GTALLY (41_accessors.md R122). -/
def execGtally (s : State) : Host.Outcome State Fault Refusal :=
  command (fieldAccess false s) (fun s => s.setRes ((packetTally s).setWidth 8)) s

/-- GBRT (41_accessors.md R124): RES holds a BRV. -/
def execGbrt (s : State) : Host.Outcome State Fault Refusal :=
  command (fieldAccess false s) (fun s => s.setRes ((brvOf (packetBrightness s)).setWidth 8)) s

/-- GTEXT (41_accessors.md R126): raw bytes, zero-filled past the text; RES is not written. -/
def execGtext (s : State) : Host.Outcome State Fault Refusal :=
  command (fieldAccess false s)
    (fun s => (s.setTxtout (zeroFill Config.textinCap (decodedText s))).setTxtoutLen
      (BitVec.ofNat 8 (textLen s))) s

end Sys2Proof.Machine
end

