-- ==== Sys2Proof/Machine/Conversions.lean ====
section
/-! DEFINITION. Brightness conversions, which need no view: B2A, A2B (43_brightness.md). -/

namespace Sys2Proof.Machine

/-- B2A B (43_brightness.md R163). -/
def execB2a (b : Brightness) (s : State) : Host.Outcome State Fault Refusal :=
  command none (fun s => s.setRes (analogEncode b)) s

/-- The check of A2B: only the four exact values are accepted (43_brightness.md R164). -/
def checkAnalog (v : Byte) : Option Failure :=
  match analogDecode v with
  | some _ => none
  | none => some ⟨.analogNotEncodable, v.setWidth 16⟩

/-- A2B V (43_brightness.md R164): RES holds a BRV. -/
def execA2b (v : Byte) (s : State) : Host.Outcome State Fault Refusal :=
  command (checkAnalog v)
    (fun s => match analogDecode v with
      | some b => s.setRes ((brvOf b).setWidth 8)
      | none => s) s

end Sys2Proof.Machine
end

