-- ==== Sys2Proof/Machine/Format.lean ====
section
/-! DEFINITION. The debug rendering of a packet: FMT (44_format.md). -/

namespace Sys2Proof.Machine

/-- The bytes of a literal, each character its ASCII code (44_format.md R171; 00_scope.md R11). -/
def ascii (cs : List Char) : List Byte := cs.map fun c => BitVec.ofNat 8 c.toNat

/-- One decimal digit, '0' = 0x30 .. '9' = 0x39 (44_format.md R171). -/
def digit (n : Nat) : Byte := BitVec.ofNat 8 (0x30 + n % 10)

/-- `dec(n)`: no sign, no leading zeros, no padding (44_format.md R171). -/
def dec (b : Byte) : List Byte :=
  let n := b.toNat
  if n < 10 then [digit n]
  else if n < 100 then [digit (n / 10), digit n]
  else [digit (n / 100), digit (n / 10), digit n]

/-- `boolTok` (44_format.md R171; notes/assumptions/14.md). -/
def boolTok (v : Bool) : List Byte :=
  if v then ascii ['t', 'r', 'u', 'e'] else ascii ['f', 'a', 'l', 's', 'e']

/-- `brTok` (44_format.md R171). -/
def brTok : Brightness → List Byte
  | .zero => ascii ['0']
  | .oneSeventh => ascii ['1', '/', '7']
  | .oneHalf => ascii ['1', '/', '2']
  | .full => ascii ['1']

/-- `", <channel>="` and the token of one tally flag (44_format.md R170). -/
def tallyTok (channel : Char) (v : Bool) : List Byte := ascii [',', ' ', channel, '='] ++ boolTok v

/-- The rendering `s` of 44_format.md R170, from PBUF alone. -/
def rendering (s : State) : List Byte :=
  ascii ['a', 'd', 'd', 'r', '='] ++ dec (packetAddress s)
    ++ tallyTok '1' ((packetTally s).getLsbD 0)
    ++ tallyTok '2' ((packetTally s).getLsbD 1)
    ++ tallyTok '3' ((packetTally s).getLsbD 2)
    ++ tallyTok '4' ((packetTally s).getLsbD 3)
    ++ ascii [',', ' ', 'b', 'r', 'i', 'g', 'h', 't', 'n', 'e', 's', 's', '=']
    ++ brTok (packetBrightness s)
    ++ ascii [',', ' ', 'd', 'i', 's', 'p', 'l', 'a', 'y', '='] ++ decodedText s

/-- FMT (44_format.md R170): FMTOUT zero-filled past the rendering; RES and TXTOUT are not written. -/
def execFmt (s : State) : Host.Outcome State Fault Refusal :=
  command (fieldAccess false s)
    (fun s => (s.setFmtout (zeroFill Config.fmtCap (rendering s))).setFmtLen
      (BitVec.ofNat 8 (rendering s).length)) s

end Sys2Proof.Machine
end

