-- ==== Sys2Proof/Machine/Mutators.lean ====
section
/-! DEFINITION. Field mutators: SADDR, STALLY, SBRT, STEXT, STEXTP (42_mutators.md). -/

namespace Sys2Proof.Machine

/-- SADDR V (42_mutators.md R140): a full overwrite of byte 0 with the marker set (R141). -/
def execSaddr (v : Byte) (s : State) : Host.Outcome State Fault Refusal :=
  command ((fieldAccess true s).or (checkAddress v))
    (fun s => s.setPbuf Config.addrOff (v ||| 0x80)) s

/-- STALLY T (42_mutators.md R142): bits 7:4 of the control byte are kept (R143). -/
def execStally (t : BitVec 4) (s : State) : Host.Outcome State Fault Refusal :=
  command (fieldAccess true s)
    (fun s => s.setPbuf Config.ctrlOff ((s.pbuf Config.ctrlOff &&& 0xF0) ||| t.setWidth 8)) s

/-- SBRT B (42_mutators.md R144): the tally bits and the reserved bits 7:6 are kept. -/
def execSbrt (b : Brightness) (s : State) : Host.Outcome State Fault Refusal :=
  command (fieldAccess true s)
    (fun s => s.setPbuf Config.ctrlOff
      ((s.pbuf Config.ctrlOff &&& 0xCF) ||| ((wireEncode b).setWidth 8 <<< 4))) s

/-- STEXT L (42_mutators.md R146): the bytes beyond the new text are not cleared (R147). -/
def execStext (l : Half) (s : State) : Host.Outcome State Fault Refusal :=
  command ((fieldAccess true s).or (checkText l s)) (fun s => s.setDisplay (stagedText l s)) s

/-- STEXTP L (42_mutators.md R148): the rest of the region is padded with spaces. -/
def execStextp (l : Half) (s : State) : Host.Outcome State Fault Refusal :=
  command ((fieldAccess true s).or (checkText l s)) (fun s => s.setDisplay (paddedText l s)) s

end Sys2Proof.Machine
end

