-- ==== Sys2Proof/Machine/View.lean ====
section
/-! DEFINITION. View construction, validation and reclamation: ATTU, ATTC, REL, VAL (40_view.md). -/

namespace Sys2Proof.Machine

/-- ATTU L, W (40_view.md R100): any length and any bytes are accepted. -/
def execAttu (l : Half) (w : Bool) (s : State) : Host.Outcome State Fault Refusal :=
  command (checkDetached s)
    (fun s => (s.setLen l).setVstate (packVstate w viewUnchecked)) s

/-- ATTC L, W (40_view.md R102, R103): the validation pass runs on L and PBUF before anything is written. -/
def execAttc (l : Half) (w : Bool) (s : State) : Host.Outcome State Fault Refusal :=
  command ((checkDetached s).or (validatePass l s))
    (fun s => (s.setLen l).setVstate (packVstate w viewChecked)) s

/-- REL (40_view.md R104): PBUF and LEN are kept. -/
def execRel (s : State) : Host.Outcome State Fault Refusal :=
  command (checkAttached s) (fun s => s.setVstate 0x00) s

/-- VAL (40_view.md R107): a passing VAL changes no view. -/
def execVal (s : State) : Host.Outcome State Fault Refusal :=
  command ((checkAttached s).or (validatePass s.len s)) (fun s => s) s

end Sys2Proof.Machine
end

