-- ==== Sys2Proof/Machine/Dispatch.lean ====
section
/-! DEFINITION. `exec`: one arm per command, each a direct call of its meaning (30_encoding.md R84). -/

namespace Sys2Proof.Machine

def exec (i : Instr) (s : State) : Host.Outcome State Fault Refusal :=
  match i with
  -- 40_view.md
  | .attu l w => Sys2Proof.Machine.execAttu l w s
  | .attc l w => Sys2Proof.Machine.execAttc l w s
  | .rel => Sys2Proof.Machine.execRel s
  | .val => Sys2Proof.Machine.execVal s
  -- 41_accessors.md
  | .gaddr => Sys2Proof.Machine.execGaddr s
  | .gtally => Sys2Proof.Machine.execGtally s
  | .gbrt => Sys2Proof.Machine.execGbrt s
  | .gtext => Sys2Proof.Machine.execGtext s
  -- 42_mutators.md
  | .saddr v => Sys2Proof.Machine.execSaddr v s
  | .stally t => Sys2Proof.Machine.execStally t s
  | .sbrt b => Sys2Proof.Machine.execSbrt b s
  | .stext l => Sys2Proof.Machine.execStext l s
  | .stextp l => Sys2Proof.Machine.execStextp l s
  -- 43_brightness.md
  | .b2a b => Sys2Proof.Machine.execB2a b s
  | .a2b v => Sys2Proof.Machine.execA2b v s
  -- 44_format.md
  | .fmt => Sys2Proof.Machine.execFmt s

end Sys2Proof.Machine
end

