-- ==== Sys2Proof/Machine/HostPort.lean ====
section
/-! DEFINITION. The host register space (20_memory.md R50, R52, R55 to R59): what each of the 256
addresses names, what a read returns and what a write stores; and reset (70_reset_and_hazards.md R200). -/

namespace Sys2Proof.Machine

/-- What a host address names (20_memory.md R55). -/
inductive HostReg where
  | pbuf (k : Nat)
  | txtin (j : Nat)
  | txtout (j : Nat)
  | cmdImm8
  | cmdImm16Low
  | cmdImm16High
  | cmdOp
  | statusCode
  | statusDetailLow
  | statusDetailHigh
  | flags
  | res
  | txtoutLen
  | vstate
  | lenLow
  | lenHigh
  | fmtLen
  | fmtout (j : Nat)
  | reserved
  deriving DecidableEq, Repr

/-- The named registers between 0x40 and 0x4E (20_memory.md R55); every other address here is reserved. -/
def namedReg (a : Nat) : HostReg :=
  if a = 0x40 then .cmdImm8
  else if a = 0x41 then .cmdImm16Low
  else if a = 0x42 then .cmdImm16High
  else if a = 0x43 then .cmdOp
  else if a = 0x44 then .statusCode
  else if a = 0x45 then .statusDetailLow
  else if a = 0x46 then .statusDetailHigh
  else if a = 0x47 then .flags
  else if a = 0x48 then .res
  else if a = 0x49 then .txtoutLen
  else if a = 0x4A then .vstate
  else if a = 0x4C then .lenLow
  else if a = 0x4D then .lenHigh
  else if a = 0x4E then .fmtLen
  else .reserved

/-- The host register map (20_memory.md R55). -/
def hostReg (addr : Byte) : HostReg :=
  let a := addr.toNat
  if a < Config.pbufBase + Config.pbufSize then .pbuf (a - Config.pbufBase)
  else if Config.txtinBase ≤ a ∧ a < Config.txtinBase + Config.textinCap then .txtin (a - Config.txtinBase)
  else if Config.txtoutBase ≤ a ∧ a < Config.txtoutBase + Config.textinCap then
    .txtout (a - Config.txtoutBase)
  else if Config.fmtoutBase ≤ a then .fmtout (a - Config.fmtoutBase)
  else namedReg a

/-- The low byte of a 16-bit register (20_memory.md R52). -/
def lowByte (h : Half) : Byte := h.extractLsb' 0 8

/-- The high byte of a 16-bit register (20_memory.md R52). -/
def highByte (h : Half) : Byte := h.extractLsb' 8 8

/-- `MemRead(addr, 1)`: the register's current value; a reserved address reads 0x00 (20_memory.md R55,
R56, R57). -/
def hostRead (s : State) (addr : Byte) : Byte :=
  match hostReg addr with
  | .pbuf k => s.pbuf k
  | .txtin j => s.txtin j
  | .txtout j => s.txtout j
  | .cmdImm8 => s.cmdImm8
  | .cmdImm16Low => lowByte s.cmdImm16
  | .cmdImm16High => highByte s.cmdImm16
  | .cmdOp => s.cmdOp
  | .statusCode => s.statusCode
  | .statusDetailLow => lowByte s.statusDetail
  | .statusDetailHigh => highByte s.statusDetail
  | .flags => readFlags s.flags
  | .res => s.res
  | .txtoutLen => s.txtoutLen
  | .vstate => s.vstate
  | .lenLow => lowByte s.len
  | .lenHigh => highByte s.len
  | .fmtLen => s.fmtLen
  | .fmtout j => s.fmtout j
  | .reserved => 0x00

/-- A host write to PBUF: stored while no view is attached, else dropped and recorded in HWV
(20_memory.md R58). -/
def hostWritePbuf (k : Nat) (v : Byte) (s : State) : State :=
  if s.attached then s.setFlags (setHwv s.flags) else s.setPbuf k v

/-- The storing part of `MemWrite(addr, 1, v)` (20_memory.md R55 to R58). A write to CMD_OP stores its
byte here; the command it starts is `issue` of Issue.lean (30_encoding.md R81). -/
def hostStore (addr v : Byte) (s : State) : State :=
  match hostReg addr with
  | .pbuf k => hostWritePbuf k v s
  | .txtin j => s.setTxtin j v
  | .cmdImm8 => s.setCmdImm8 v
  | .cmdImm16Low => s.setCmdImm16 (highByte s.cmdImm16 ++ v)
  | .cmdImm16High => s.setCmdImm16 (v ++ lowByte s.cmdImm16)
  | .cmdOp => s.setCmdOp v
  | .flags => s.setFlags (writeFlags v s.flags)
  | .txtout _ => s
  | .statusCode => s
  | .statusDetailLow => s
  | .statusDetailHigh => s
  | .res => s
  | .txtoutLen => s
  | .vstate => s
  | .lenLow => s
  | .lenHigh => s
  | .fmtLen => s
  | .fmtout _ => s
  | .reserved => s

/-- A host read as an event: the byte is returned, and no register changes (20_memory.md R59). -/
def hostReadEvent (addr : Byte) (s : State) : State := s.setReturned (hostRead s addr :: s.returned)

/-- The reset event: every register takes its reset value (70_reset_and_hazards.md R200). The model's
own host-port fields are no registers and are kept (notes/assumptions/5.md). -/
def resetEvent (s : State) : State := (State.reset.setPending s.pending).setReturned s.returned

end Sys2Proof.Machine
end

