-- ==== Sys2Proof/Machine/Issue.lean ====
section
/-! DEFINITION. Issuing a command (30_encoding.md R81, R85) and performing one host event
(20_memory.md R62, R64). -/

namespace Sys2Proof.Machine

/-- `execute(ILLEGAL) = raise E_ILLEGAL_COMMAND(zext_16(CW[31:24]))` (30_encoding.md R85). -/
def execIllegal (s : State) : State := raise ⟨.illegalCommand, (opField s.commandWord).setWidth 16⟩ s

/-- `execute(decode(CW))` on the command word the registers hold (30_encoding.md R81, R85). -/
def executeWord (s : State) : Host.Outcome State Fault Refusal :=
  match decode s.commandWord with
  | .ok i => exec i s
  | .error _ => .next (execIllegal s)

/-- A host write of `v` to CMD_OP: store the byte, then run the command the three command registers
form, in one atomic step (30_encoding.md R81; 20_memory.md R64). -/
def issue (v : Byte) (s : State) : Host.Outcome State Fault Refusal := executeWord (s.setCmdOp v)

/-- `MemWrite(addr, 1, v)` (20_memory.md R55 to R59; 30_encoding.md R81). -/
def hostWrite (addr v : Byte) (s : State) : Host.Outcome State Fault Refusal :=
  if hostReg addr = .cmdOp then issue v s else .next (hostStore addr v s)

/-- One event of the total order (20_memory.md R62). -/
def runEvent (e : HostEvent) (s : State) : Host.Outcome State Fault Refusal :=
  match e with
  | .write addr v => hostWrite addr v s
  | .read addr => .next (hostReadEvent addr s)
  | .reset => .next (resetEvent s)

/-- Perform the oldest pending event. With none pending the block waits for the host, and nothing
changes (70_reset_and_hazards.md R202; notes/assumptions/2.md). -/
def runNext (s : State) : Host.Outcome State Fault Refusal :=
  match s.pending with
  | [] => .next s
  | e :: es => runEvent e (s.setPending es)

end Sys2Proof.Machine
end

