-- ==== Sys2Proof/Machine/Step.lean ====
section
/-! DEFINITION. The step: one event of the total order of 20_memory.md R62. -/

namespace Sys2Proof.Machine

/-- One step of the machine: the host port performs the oldest pending event, and a write to CMD_OP
runs its command inside that step (20_memory.md R64). -/
def step (s : State) : Host.Outcome State Fault Refusal := runNext s

/-- `s` with the table's word waiting to be issued: its operand bytes in the command registers, and the
write of its op to CMD_OP as the next host event, so that the next step issues exactly that word
(30_encoding.md R81; notes/assumptions/2.md). -/
def State.withFetchWord (s : State) (nbits w : Nat) : State := s.placeCommand (tableWord nbits w)

end Sys2Proof.Machine
end

