-- ==== Sys2Proof/Machine/HostProgram.lean ====
section
/-! DEFINITION. The expansion of host-program lines into host events (30_encoding.md R89, R90). -/

namespace Sys2Proof.Machine

/-- `hw a, b` with numbers (30_encoding.md R89). -/
def hw (a b : Nat) : HostEvent := .write (BitVec.ofNat 8 a) (BitVec.ofNat 8 b)

/-- `hr a` (30_encoding.md R89). -/
def hr (a : Nat) : HostEvent := .read (BitVec.ofNat 8 a)

/-- The four writes of a command pseudo-instruction: CMD_IMM8, CMD_IMM16 low, CMD_IMM16 high, CMD_OP
(30_encoding.md R89). -/
def issueWrites (op i16 i8 : Nat) : List HostEvent :=
  [hw 0x40 i8, hw 0x41 (i16 % 256), hw 0x42 (i16 / 256), hw 0x43 op]

/-- The OR of `1 << (c-1)` over a channel list (30_encoding.md R89); 0 for the empty list (DESIGN CHOICE,
notes/assumptions/12.md). -/
def channelFlags (cs : List Nat) : Nat := cs.foldl (fun t c => t ||| 1 <<< (c - 1)) 0

/-- Writes of bytes to consecutive host addresses. -/
def writesFrom : Nat → List Nat → List HostEvent
  | _, [] => []
  | a, b :: bs => hw a b :: writesFrom (a + 1) bs

/-- The host events of a line (30_encoding.md R89, R90). The value an `hr` line states is what the host
expects to be returned; it changes nothing the block does. -/
def expand : HostLine → List HostEvent
  | .hw a b => [hw a b]
  | .hr a => [hr a]
  | .hrExpect a _ => [hr a]
  | .attu l w => issueWrites 0x01 l w
  | .attc l w => issueWrites 0x02 l w
  | .rel => issueWrites 0x03 0 0
  | .val => issueWrites 0x04 0 0
  | .gaddr => issueWrites 0x10 0 0
  | .gtally => issueWrites 0x11 0 0
  | .gbrt => issueWrites 0x12 0 0
  | .gtext => issueWrites 0x13 0 0
  | .saddr v => issueWrites 0x20 0 v
  | .stally t => issueWrites 0x21 0 t
  | .stallyChannels cs => issueWrites 0x21 0 (channelFlags cs)
  | .sbrt b => issueWrites 0x22 0 b
  | .stext l => issueWrites 0x23 l 0
  | .stextp l => issueWrites 0x24 l 0
  | .b2a b => issueWrites 0x30 0 b
  | .a2b v => issueWrites 0x31 0 v
  | .fmt => issueWrites 0x40 0 0
  | .cmd op i16 i8 => issueWrites op i16 i8
  | .ldbuf bs => writesFrom 0x00 bs
  | .ldtxt bs => writesFrom 0x20 bs
  | .rdtxt => hr 0x49 :: (List.range 16).map fun j => hr (0x30 + j)
  | .rdstat => [hr 0x44, hr 0x45, hr 0x46]

/-- The events of a host program: its lines in order (30_encoding.md R89). -/
def expandProgram (lines : List HostLine) : List HostEvent := lines.flatMap expand

/-- The pseudo-instruction that issues a command (30_encoding.md R89). -/
def lineOf : Instr → HostLine
  | .attu l w => .attu l.toNat w.toNat
  | .attc l w => .attc l.toNat w.toNat
  | .rel => .rel
  | .val => .val
  | .gaddr => .gaddr
  | .gtally => .gtally
  | .gbrt => .gbrt
  | .gtext => .gtext
  | .saddr v => .saddr v.toNat
  | .stally t => .stally t.toNat
  | .sbrt b => .sbrt (brvOf b).toNat
  | .stext l => .stext l.toNat
  | .stextp l => .stextp l.toNat
  | .b2a b => .b2a (brvOf b).toNat
  | .a2b v => .a2b v.toNat
  | .fmt => .fmt

end Sys2Proof.Machine
end

