-- ==== Sys2Proof/Safety.lean ====
section
/-! DEFINITION. The terms claims are stated in: what it is for a command to report, to be issued or to be
illegal; the display bytes, packets and texts of the spec said without the model's own scans; the
invariant of a run; and the classes of commands the spec names. -/

namespace Sys2Proof.Machine

/-! ## Outcomes of a command -/

/-- The command reports code and detail, and changes nothing else (00_scope.md R10; 60_exceptions.md R184). -/
def Raises (i : Instr) (s : State) (code : Byte) (detail : Half) : Prop :=
  exec i s = .next { s with statusCode := code, statusDetail := detail }

/-- The command completes, leaving `t` with status OK and detail 0 (00_scope.md R10). -/
def Completes (i : Instr) (s t : State) : Prop :=
  exec i s = .next { t with statusCode := 0x00, statusDetail := 0x0000 }

/-- Issuing the command word runs the command `i` (30_encoding.md R81, R85). -/
def IssuesAs (cw : CommandWord) (i : Instr) : Prop :=
  ∀ s : State, s.commandWord = cw → executeWord s = exec i s

/-- Issuing the command word only reports E_ILLEGAL_COMMAND with its op (30_encoding.md R86). -/
def IssuesIllegal (cw : CommandWord) : Prop :=
  ∀ s : State, s.commandWord = cw →
    executeWord s = .next { s with statusCode := 0x10, statusDetail := (opField cw).setWidth 16 }

/-- Commands run one after another, each from the state the one before left. -/
def execAll : List Instr → State → Host.Outcome State Fault Refusal
  | [], s => .next s
  | i :: is, s =>
    match exec i s with
    | .next t => execAll is t
    | .fault r => .fault r
    | .refused r => .refused r

/-- The command completes, leaving `t` with status OK: of the registers only byte storage may differ, and
it reads as `bytes` says (the caller names the bytes stored and says that every other reads as before). -/
def CompletesStoring (i : Instr) (s : State) (bytes : Nat → Byte) : Prop :=
  ∃ t, exec i s = .next t ∧ t = { s with mem := t.mem, statusCode := 0x00, statusDetail := 0x0000 } ∧
    ∀ a, Memory.read t.mem a = bytes a

/-! ## Preconditions and errors shared by the field commands -/

/-- The conditions under which a field command passes `fieldAccess(needW)` (60_exceptions.md R182). -/
def FieldReady (needW : Bool) (s : State) : Prop :=
  viewOf s.vstate ≠ 0#2 ∧ (needW = true → writableOf s.vstate = true) ∧ s.len = 18#16

/-- The errors of `fieldAccess(needW)`, in their order (60_exceptions.md R182, R183). -/
def FieldErrors (needW : Bool) (i : Instr) (s : State) : Prop :=
  (viewOf s.vstate = 0#2 → Raises i s 0x11 0) ∧
  (viewOf s.vstate ≠ 0#2 → needW = true → writableOf s.vstate = false → Raises i s 0x13 0) ∧
  (viewOf s.vstate ≠ 0#2 → (needW = true → writableOf s.vstate = true) → s.len ≠ 18#16 →
    Raises i s 0x14 s.len)

/-! ## Bytes, packets and texts, said without the model's scans -/

/-- A printable byte: 0x20 to 0x7F (00_scope.md R11). -/
def TextByte (b : Byte) : Prop := 0x20 ≤ b.toNat ∧ b.toNat ≤ 0x7F

/-- A printable byte, or the null (00_scope.md R11). -/
def DispByte (b : Byte) : Prop := TextByte b ∨ b = 0

/-- The marker and the display region are as validation wants them (40_view.md R106). -/
def ValidBytes (s : State) : Prop :=
  (s.pbuf 0).getLsbD 7 = true ∧ ∀ k, k < 16 → DispByte (s.pbuf (2 + k))

/-- The first byte of a sequence that is not `ok` is at `k`. -/
def FirstBad (ok : Byte → Prop) (byte : Nat → Byte) (k : Nat) : Prop :=
  ¬ ok (byte k) ∧ ∀ j, j < k → ok (byte j)

/-- The text operand of length `l` is acceptable: at most 16 bytes, all printable (42_mutators.md R145). -/
def GoodText (l : Half) (s : State) : Prop :=
  l.toNat ≤ 16 ∧ ∀ j, j < l.toNat → TextByte (s.txtin j)

/-- The errors of the text operand, in their order (42_mutators.md R145). -/
def TextErrors (l : Half) (i : Instr) (s : State) : Prop :=
  (16 < l.toNat → Raises i s 0x05 l) ∧
  (l.toNat ≤ 16 → ∀ k, k < l.toNat → FirstBad TextByte s.txtin k → Raises i s 0x06 (BitVec.ofNat 16 k))

/-- `n` is what is left of the first `m` bytes of a sequence when its trailing spaces are removed. -/
def TrimmedTo (byte : Nat → Byte) (m n : Nat) : Prop :=
  n ≤ m ∧ (∀ k, n ≤ k → k < m → byte k = 0x20) ∧ (n = 0 ∨ byte (n - 1) ≠ 0x20)

/-- `m` is the offset of the first null of the display region, or 16 (41_accessors.md R125). -/
def FirstNullAt (s : State) (m : Nat) : Prop :=
  m ≤ 16 ∧ (∀ k, k < m → s.pbuf (2 + k) ≠ 0) ∧ (m = 16 ∨ s.pbuf (2 + m) = 0)

/-- `n` is the length of the decoded display text (41_accessors.md R125). -/
def DecodedLength (s : State) (n : Nat) : Prop :=
  ∃ m, FirstNullAt s m ∧ TrimmedTo (fun k => s.pbuf (2 + k)) m n

/-- From display offset `l` on, the region holds zero or more spaces followed by a null or the region's
end (42_mutators.md R147, R150). -/
def CleanFrom (l : Nat) (s : State) : Prop :=
  ∃ m, l ≤ m ∧ m ≤ 16 ∧ (∀ k, l ≤ k → k < m → s.pbuf (2 + k) = 0x20) ∧ (m = 16 ∨ s.pbuf (2 + m) = 0)

/-! ## Legal values of the status registers -/

/-- The codes and details of 60_exceptions.md R180, one row each. -/
def StatusLegal (code : Byte) (detail : Half) : Prop :=
  (code = 0x00 ∧ detail = 0) ∨
  (code = 0x01 ∧ detail ≠ 18) ∨
  (code = 0x02 ∧ detail = 0) ∨
  (code = 0x03 ∧ detail.toNat ≤ 15) ∨
  (code = 0x04 ∧ 0x7F ≤ detail.toNat ∧ detail.toNat ≤ 0xFF) ∨
  (code = 0x05 ∧ 17 ≤ detail.toNat) ∨
  (code = 0x06 ∧ detail.toNat ≤ 15) ∨
  (code = 0x07 ∧ detail.toNat ≤ 255 ∧ detail.toNat ∉ [0, 36, 128, 255]) ∨
  (code = 0x10 ∧ detail.toNat ≤ 255) ∨
  (code = 0x11 ∧ detail = 0) ∨
  (code = 0x12 ∧ detail = 0) ∨
  (code = 0x13 ∧ detail = 0) ∨
  (code = 0x14 ∧ detail ≠ 18)

/-- The codes each command can leave: the last column of 60_exceptions.md R180, and 0x00. -/
def codesOf : Instr → List Byte
  | .attu _ _ => [0x00, 0x12]
  | .attc _ _ => [0x00, 0x01, 0x02, 0x03, 0x12]
  | .rel => [0x00, 0x11]
  | .val => [0x00, 0x01, 0x02, 0x03, 0x11]
  | .gaddr => [0x00, 0x11, 0x14]
  | .gtally => [0x00, 0x11, 0x14]
  | .gbrt => [0x00, 0x11, 0x14]
  | .gtext => [0x00, 0x11, 0x14]
  | .saddr _ => [0x00, 0x04, 0x11, 0x13, 0x14]
  | .stally _ => [0x00, 0x11, 0x13, 0x14]
  | .sbrt _ => [0x00, 0x11, 0x13, 0x14]
  | .stext _ => [0x00, 0x05, 0x06, 0x11, 0x13, 0x14]
  | .stextp _ => [0x00, 0x05, 0x06, 0x11, 0x13, 0x14]
  | .b2a _ => [0x00]
  | .a2b _ => [0x00, 0x07]
  | .fmt => [0x00, 0x11, 0x14]

/-! ## The invariant of a run -/

/-- The host addresses of the register arrays PBUF, TXTIN, TXTOUT and FMTOUT (20_memory.md R55). -/
def InArrays (a : Nat) : Prop := a < 0x12 ∨ (0x20 ≤ a ∧ a < 0x40) ∨ (0x80 ≤ a ∧ a < 0x100)

/-- Byte storage is canonical, and lists only addresses of the register arrays. -/
def StorageOk (s : State) : Prop := Memory.wf s.mem = true ∧ ∀ c ∈ s.mem, InArrays c.1

/-- VSTATE holds no view, or a view of one of the two kinds with its W bit; VIEW = 3, reserved bits and
W without a view are never held (10_state.md R25). -/
def VstateOk (s : State) : Prop :=
  s.vstate = 0x00 ∨ s.vstate = 0x01 ∨ s.vstate = 0x05 ∨ s.vstate = 0x02 ∨ s.vstate = 0x06

/-- The checked-view invariant (10_state.md R36). -/
def CheckedOk (s : State) : Prop := viewOf s.vstate = 2#2 → s.len = 18#16 ∧ ValidBytes s

/-- FLAGS bits 7:1 are 0 (10_state.md R29). -/
def FlagsOk (s : State) : Prop := s.flags = 0x00 ∨ s.flags = 0x01

/-- TXTOUT_LEN is at most 16 and TXTOUT is 0x00 from there on (10_state.md R27). -/
def TxtoutOk (s : State) : Prop :=
  s.txtoutLen.toNat ≤ 16 ∧ ∀ j, s.txtoutLen.toNat ≤ j → j < 16 → s.txtout j = 0

/-- FMT_LEN is 0 (no FMT yet) or 62 to 86, and FMTOUT is 0x00 from there on (10_state.md R31). -/
def FmtoutOk (s : State) : Prop :=
  (s.fmtLen = 0 ∨ (62 ≤ s.fmtLen.toNat ∧ s.fmtLen.toNat ≤ 86)) ∧
  ∀ j, s.fmtLen.toNat ≤ j → j < 128 → s.fmtout j = 0

/-- What holds of every state a run reaches. -/
structure State.Inv (s : State) : Prop where
  storage : StorageOk s
  vstate : VstateOk s
  checked : CheckedOk s
  flags : FlagsOk s
  txtout : TxtoutOk s
  fmtout : FmtoutOk s
  status : StatusLegal s.statusCode s.statusDetail

/-! ## The rendering of FMT, said in characters (44_format.md R170, R171) -/

/-- The token of one tally flag. -/
def flagChars (v : Bool) : List Char := if v then "true".toList else "false".toList

/-- The token of a wire brightness code. -/
def levelChars (c : BitVec 2) : List Char :=
  if c = 0b00 then "0".toList else if c = 0b01 then "1/7".toList
  else if c = 0b10 then "1/2".toList else "1".toList

/-- `addr=<n>, 1=<bool>, 2=<bool>, 3=<bool>, 4=<bool>, brightness=<code>, display=` as ASCII bytes, then
the first `n` display bytes. -/
def renderedBytes (s : State) (n : Nat) : List Byte :=
  (("addr=".toList ++ Nat.toDigits 10 (s.pbuf 0 &&& 0x7F).toNat
    ++ ", 1=".toList ++ flagChars ((s.pbuf 1).getLsbD 0)
    ++ ", 2=".toList ++ flagChars ((s.pbuf 1).getLsbD 1)
    ++ ", 3=".toList ++ flagChars ((s.pbuf 1).getLsbD 2)
    ++ ", 4=".toList ++ flagChars ((s.pbuf 1).getLsbD 3)
    ++ ", brightness=".toList ++ levelChars ((s.pbuf 1).extractLsb' 4 2)
    ++ ", display=".toList).map fun c => BitVec.ofNat 8 c.toNat)
  ++ (List.range n).map fun k => s.pbuf (2 + k)

/-! ## Classes of commands -/

/-- Commands that leave PBUF, LEN and VSTATE alone: validation, accessors, conversions, rendering. -/
def readsOnly : Instr → Bool
  | .val | .gaddr | .gtally | .gbrt | .gtext | .b2a _ | .a2b _ | .fmt => true
  | .attu _ _ | .attc _ _ | .rel | .saddr _ | .stally _ | .sbrt _ | .stext _ | .stextp _ => false

/-- Whether a field command needs a writable view; the other commands make no field-access check
(60_exceptions.md R182). -/
def fieldNeeds : Instr → Option Bool
  | .gaddr | .gtally | .gbrt | .gtext | .fmt => some false
  | .saddr _ | .stally _ | .sbrt _ | .stext _ | .stextp _ => some true
  | .attu _ _ | .attc _ _ | .rel | .val | .b2a _ | .a2b _ => none

/-- Commands that can succeed while no view is attached (40_view.md R105). -/
def runsWithoutView : Instr → Bool
  | .attu _ _ | .attc _ _ | .b2a _ | .a2b _ => true
  | .rel | .val | .gaddr | .gtally | .gbrt | .gtext | .saddr _ | .stally _ | .sbrt _ | .stext _
  | .stextp _ | .fmt => false

/-- The packet field a mutator sets (42_mutators.md R149). -/
inductive PacketField where
  | address
  | tally
  | brightness
  | text
  deriving DecidableEq, Repr

/-- The field each mutator sets; the other commands set none (42_mutators.md R149). -/
def fieldSet : Instr → Option PacketField
  | .saddr _ => some .address
  | .stally _ => some .tally
  | .sbrt _ => some .brightness
  | .stext _ | .stextp _ => some .text
  | .attu _ _ | .attc _ _ | .rel | .val | .gaddr | .gtally | .gbrt | .gtext | .b2a _ | .a2b _
  | .fmt => none

end Sys2Proof.Machine
end

