-- ==== Sys2Proof/Certificates/Slice0/Obligations.lean ====
section
/-! DEFINITION. The statements about TSLC, from the numbered rules of spec/. Each docstring names the rule;
a statement that also rests on a choice of the model says so and names the log entry. -/

open Sys2Proof Sys2Proof.Machine

/-! ## Encoding and issuing (30_encoding.md) -/

/-- R81: a host write to CMD_OP stores the byte and executes the decoded word in the same step; a write to
0x40, 0x41 or 0x42 only stores its byte. -/
def Obligations.CmdOpWriteIssuesDecodedWord : Prop :=
  ∀ (s : State) (v : Byte) (es : List HostEvent),
    (s.pending = .write 0x43 v :: es →
      (∀ i, decode (assembleWord v s.cmdImm16 s.cmdImm8) = .ok i →
        step s = exec i { s with cmdOp := v, pending := es }) ∧
      (∀ e, decode (assembleWord v s.cmdImm16 s.cmdImm8) = .error e →
        step s = .next { s with
          cmdOp := v, pending := es, statusCode := 0x10, statusDetail := v.setWidth 16 })) ∧
    (s.pending = .write 0x40 v :: es → step s = .next { s with cmdImm8 := v, pending := es }) ∧
    (s.pending = .write 0x41 v :: es →
      step s = .next { s with cmdImm16 := s.cmdImm16.extractLsb' 8 8 ++ v, pending := es }) ∧
    (s.pending = .write 0x42 v :: es →
      step s = .next { s with cmdImm16 := v ++ s.cmdImm16.extractLsb' 0 8, pending := es })

/-- Words written out from the encodings of 30_encoding.md R82 and R84 decode to their commands, one or two
for each family. -/
def Obligations.SampleWordsDecode : Prop :=
  decode 0b00000001000000000001001000000001 = .ok (.attu 18 true) ∧
  decode 0b00000010111111111111111100000000 = .ok (.attc 65535 false) ∧
  decode 0b00000011000000000000000000000000 = .ok .rel ∧
  decode 0b00010011000000000000000000000000 = .ok .gtext ∧
  decode 0b00100000000000000000000001111110 = .ok (.saddr 0x7E) ∧
  decode 0b00100001000000000000000000001001 = .ok (.stally 0b1001) ∧
  decode 0b00100010000000000000000000000010 = .ok (.sbrt .oneHalf) ∧
  decode 0b00100100000000000000010100000000 = .ok (.stextp 5) ∧
  decode 0b00110000000000000000000000000001 = .ok (.b2a .oneSeventh) ∧
  decode 0b00110001000000000000000011001000 = .ok (.a2b 200) ∧
  decode 0b01000000000000000000000000000000 = .ok .fmt

/-- Decoding the encoding of any command gives it back, with every operand at every value (R82 to R85). -/
def Obligations.DecodeInvertsEncode : Prop := ∀ i : Instr, decode (encode i) = .ok i

/-- Each word has one meaning: a word that decodes to a command is that command's encoding, bit for bit
(R84, R85). -/
def Obligations.EncodeInvertsDecode : Prop :=
  ∀ (cw : CommandWord) (i : Instr), decode cw = .ok i → encode i = cw

/-- R86: the illegal words are exactly those with one of the 240 unassigned ops or a reserved bit set, and
issuing one only reports E_ILLEGAL_COMMAND with its op, in every state. -/
def Obligations.IllegalWordsOnlyReport : Prop :=
  (∀ cw : CommandWord, (∃ e, decode cw = .error e) ↔
    (∀ i : Instr, opcode i ≠ opField cw) ∨
    (∃ r ∈ opcodeMap, r.op = opField cw ∧ cw &&& reservedBits r.form ≠ 0)) ∧
  ((List.range 256).filter fun op => !(opcodeMap.any fun r => r.op == BitVec.ofNat 8 op)).length = 240 ∧
  (∀ r ∈ opcodeMap, r.op ≠ 0x00 ∧ r.op ≠ 0xFF) ∧
  (∀ cw : CommandWord, (∃ e, decode cw = .error e) → IssuesIllegal cw)

/-- The four host writes of a command's pseudo-instruction (R89) run that command, with its operands left
in the command registers (R30). -/
def Obligations.PseudoInstructionIssuesItsCommand : Prop :=
  ∀ (i : Instr) (s : State) (es : List HostEvent),
    s.pending = expand (lineOf i) ++ es →
    Host.Core.run Sys2Proof.core 4 s =
      exec i { s with
        cmdImm8 := encodeImm8 i, cmdImm16 := encodeImm16 i, cmdOp := opcode i, pending := es }

/-! ## View construction, validation and reclamation (40_view.md) -/

/-- R100, ATTU. -/
def Obligations.AttuAttachesUncheckedView : Prop :=
  (∀ cw : CommandWord, opField cw = 0x01 →
    ((imm8Field cw).extractLsb' 1 7 = 0 → IssuesAs cw (.attu (imm16Field cw) (cw.getLsbD 0))) ∧
    ((imm8Field cw).extractLsb' 1 7 ≠ 0 → IssuesIllegal cw)) ∧
  ∀ (l : Half) (w : Bool) (s : State),
    (viewOf s.vstate ≠ 0#2 → Raises (.attu l w) s 0x12 0) ∧
    (viewOf s.vstate = 0#2 →
      Completes (.attu l w) s { s with len := l, vstate := if w then 0b00000101 else 0b00000001 })

/-- R102 and R103, ATTC: the checks in their order, the checked view on success, and on failure no view,
the old LEN and the old PBUF. -/
def Obligations.AttcAttachesOnlyValidPackets : Prop :=
  (∀ cw : CommandWord, opField cw = 0x02 →
    ((imm8Field cw).extractLsb' 1 7 = 0 → IssuesAs cw (.attc (imm16Field cw) (cw.getLsbD 0))) ∧
    ((imm8Field cw).extractLsb' 1 7 ≠ 0 → IssuesIllegal cw)) ∧
  ∀ (l : Half) (w : Bool) (s : State),
    (viewOf s.vstate ≠ 0#2 → Raises (.attc l w) s 0x12 0) ∧
    (viewOf s.vstate = 0#2 →
      (l ≠ 18 → Raises (.attc l w) s 0x01 l) ∧
      (l = 18 → (s.pbuf 0).getLsbD 7 = false → Raises (.attc l w) s 0x02 0) ∧
      (l = 18 → (s.pbuf 0).getLsbD 7 = true → ∀ k, k < 16 → FirstBad DispByte (fun j => s.pbuf (2 + j)) k →
        Raises (.attc l w) s 0x03 (BitVec.ofNat 16 k)) ∧
      (l = 18 → ValidBytes s →
        Completes (.attc l w) s { s with len := 18, vstate := if w then 0b00000110 else 0b00000010 }))

/-- R104, REL. -/
def Obligations.RelReleasesTheView : Prop :=
  (∀ cw : CommandWord, opField cw = 0x03 →
    (cw = 0x03000000 → IssuesAs cw .rel) ∧ (cw ≠ 0x03000000 → IssuesIllegal cw)) ∧
  ∀ s : State,
    (viewOf s.vstate = 0#2 → Raises .rel s 0x11 0) ∧
    (viewOf s.vstate ≠ 0#2 → Completes .rel s { s with vstate := 0x00 })

/-- R106 and R107, VAL: length, marker, then the first bad display byte, and nothing but the status is
written. -/
def Obligations.ValReportsTheFirstViolation : Prop :=
  (∀ cw : CommandWord, opField cw = 0x04 →
    (cw = 0x04000000 → IssuesAs cw .val) ∧ (cw ≠ 0x04000000 → IssuesIllegal cw)) ∧
  ∀ s : State,
    (viewOf s.vstate = 0#2 → Raises .val s 0x11 0) ∧
    (viewOf s.vstate ≠ 0#2 →
      (s.len ≠ 18 → Raises .val s 0x01 s.len) ∧
      (s.len = 18 → (s.pbuf 0).getLsbD 7 = false → Raises .val s 0x02 0) ∧
      (s.len = 18 → (s.pbuf 0).getLsbD 7 = true → ∀ k, k < 16 →
        FirstBad DispByte (fun j => s.pbuf (2 + j)) k → Raises .val s 0x03 (BitVec.ofNat 16 k)) ∧
      (s.len = 18 → ValidBytes s → Completes .val s s))

/-- R105 in part: with no view attached, only ATTU, ATTC, B2A and A2B can succeed; every other command
raises E_NO_VIEW. -/
def Obligations.WithoutViewOnlyFourCommandsSucceed : Prop :=
  ∀ (i : Instr) (s : State), viewOf s.vstate = 0#2 →
    (runsWithoutView i = false → Raises i s 0x11 0) ∧
    (∀ t, exec i s = .next t → t.statusCode = 0x00 → runsWithoutView i = true)

/-- What the spec derives in R108: whatever happens between two VAL commands, if PBUF, LEN and VSTATE are
after it what they were before it, the second leaves the same status as the first, and PBUF is as it was;
and the commands of `readsOnly` (VAL, the accessors, the conversions and FMT), in any number, leave all
three as they were. R108 names host PBUF writes and mutators only; a REL or an attach between the two does
change the outcome, so the premise names LEN and VSTATE as well. -/
def Obligations.ValidationIsIdempotent : Prop :=
  (∀ s t u v : State, exec .val s = .next t →
    u.len = t.len → u.vstate = t.vstate → (∀ k, k < 18 → u.pbuf k = t.pbuf k) → exec .val u = .next v →
    v.statusCode = t.statusCode ∧ v.statusDetail = t.statusDetail ∧ ∀ k, k < 18 → v.pbuf k = s.pbuf k) ∧
  ∀ (t u : State) (is : List Instr), (∀ i ∈ is, readsOnly i = true) → execAll is t = .next u →
    u.len = t.len ∧ u.vstate = t.vstate ∧ ∀ k, k < 18 → u.pbuf k = t.pbuf k

/-! ## Field accessors (41_accessors.md) -/

/-- R120, GADDR. -/
def Obligations.GaddrReadsTheAddress : Prop :=
  (∀ cw : CommandWord, opField cw = 0x10 →
    (cw = 0x10000000 → IssuesAs cw .gaddr) ∧ (cw ≠ 0x10000000 → IssuesIllegal cw)) ∧
  ∀ s : State, FieldErrors false .gaddr s ∧
    (FieldReady false s → Completes .gaddr s { s with res := s.pbuf 0 &&& 0x7F })

/-- R122, GTALLY. -/
def Obligations.GtallyReadsTheTallyFlags : Prop :=
  (∀ cw : CommandWord, opField cw = 0x11 →
    (cw = 0x11000000 → IssuesAs cw .gtally) ∧ (cw ≠ 0x11000000 → IssuesIllegal cw)) ∧
  ∀ s : State, FieldErrors false .gtally s ∧
    (FieldReady false s → Completes .gtally s { s with res := 0#4 ++ (s.pbuf 1).extractLsb' 0 4 })

/-- R124, GBRT: RES is the BRV of the wire code, which is numerically equal to it (R12, R160). -/
def Obligations.GbrtReadsTheBrightness : Prop :=
  (∀ cw : CommandWord, opField cw = 0x12 →
    (cw = 0x12000000 → IssuesAs cw .gbrt) ∧ (cw ≠ 0x12000000 → IssuesIllegal cw)) ∧
  ∀ s : State, FieldErrors false .gbrt s ∧
    (FieldReady false s → Completes .gbrt s { s with res := 0#6 ++ (s.pbuf 1).extractLsb' 4 2 })

/-- R125 and R126, GTEXT: the text up to the first null, trailing spaces removed, TXTOUT zero-filled past
it, and every other byte of storage as before. -/
def Obligations.GtextDecodesTheText : Prop :=
  (∀ cw : CommandWord, opField cw = 0x13 →
    (cw = 0x13000000 → IssuesAs cw .gtext) ∧ (cw ≠ 0x13000000 → IssuesIllegal cw)) ∧
  ∀ s : State, FieldErrors false .gtext s ∧
    (FieldReady false s → ∃ n, DecodedLength s n ∧ ∃ t, exec .gtext s = .next t ∧
      t = { s with
        mem := t.mem, txtoutLen := BitVec.ofNat 8 n, statusCode := 0x00, statusDetail := 0x0000 } ∧
      ∀ a, Memory.read t.mem a =
        if 0x30 ≤ a ∧ a < 0x40 then (if a - 0x30 < n then s.pbuf (2 + (a - 0x30)) else 0x00)
        else Memory.read s.mem a)

/-- R127 in part: under a checked view every byte GTEXT returns is printable. -/
def Obligations.CheckedTextIsPrintable : Prop :=
  ∀ s t : State, viewOf s.vstate = 2#2 → CheckedOk s → exec .gtext s = .next t →
    t.statusCode = 0x00 ∧ ∀ j, j < t.txtoutLen.toNat → TextByte (t.txtout j)

/-! ## Field mutators (42_mutators.md) -/

/-- R140 and R141, SADDR: byte 0 is overwritten with the marker set, and every other byte of storage is as
before. -/
def Obligations.SaddrOverwritesTheAddressByte : Prop :=
  (∀ cw : CommandWord, opField cw = 0x20 →
    (imm16Field cw = 0 → IssuesAs cw (.saddr (imm8Field cw))) ∧
    (imm16Field cw ≠ 0 → IssuesIllegal cw)) ∧
  ∀ (v : Byte) (s : State), FieldErrors true (.saddr v) s ∧
    (FieldReady true s →
      (0x7E < v.toNat → Raises (.saddr v) s 0x04 (v.setWidth 16)) ∧
      (v.toNat ≤ 0x7E →
        CompletesStoring (.saddr v) s fun a =>
          if a = Config.pbufBase + 0 then 1#1 ++ v.extractLsb' 0 7 else Memory.read s.mem a))

/-- R142 and R143, STALLY: bits 7:4 of the control byte are kept, and every other byte of storage. -/
def Obligations.StallySetsOnlyTheLowNibble : Prop :=
  (∀ cw : CommandWord, opField cw = 0x21 →
    (imm16Field cw = 0 ∧ (imm8Field cw).extractLsb' 4 4 = 0 → IssuesAs cw (.stally (cw.extractLsb' 0 4))) ∧
    (¬(imm16Field cw = 0 ∧ (imm8Field cw).extractLsb' 4 4 = 0) → IssuesIllegal cw)) ∧
  ∀ (t : BitVec 4) (s : State), FieldErrors true (.stally t) s ∧
    (FieldReady true s →
      CompletesStoring (.stally t) s fun a =>
        if a = Config.pbufBase + 1 then (s.pbuf 1).extractLsb' 4 4 ++ t else Memory.read s.mem a)

/-- R144, SBRT: the tally bits and bits 7:6 of the control byte are kept, and every other byte of storage. -/
def Obligations.SbrtSetsOnlyTheBrightnessBits : Prop :=
  (∀ cw : CommandWord, opField cw = 0x22 →
    (imm16Field cw = 0 ∧ (imm8Field cw).extractLsb' 2 6 = 0 →
      IssuesAs cw (.sbrt (brightnessOfBrv (cw.extractLsb' 0 2)))) ∧
    (¬(imm16Field cw = 0 ∧ (imm8Field cw).extractLsb' 2 6 = 0) → IssuesIllegal cw)) ∧
  ∀ (b : Brightness) (s : State), FieldErrors true (.sbrt b) s ∧
    (FieldReady true s →
      CompletesStoring (.sbrt b) s fun a =>
        if a = Config.pbufBase + 1 then
          (s.pbuf 1).extractLsb' 6 2 ++ wireEncode b ++ (s.pbuf 1).extractLsb' 0 4
        else Memory.read s.mem a)

/-- R145 and R146, STEXT: only as many display bytes as the text has are written. -/
def Obligations.StextCopiesOnlyTheText : Prop :=
  (∀ cw : CommandWord, opField cw = 0x23 →
    (imm8Field cw = 0 → IssuesAs cw (.stext (imm16Field cw))) ∧ (imm8Field cw ≠ 0 → IssuesIllegal cw)) ∧
  ∀ (l : Half) (s : State), FieldErrors true (.stext l) s ∧
    (FieldReady true s → TextErrors l (.stext l) s ∧
      (GoodText l s →
        CompletesStoring (.stext l) s fun a =>
          if Config.pbufBase + 2 ≤ a ∧ a < Config.pbufBase + 2 + l.toNat then
            s.txtin (a - (Config.pbufBase + 2))
          else Memory.read s.mem a))

/-- R145 and R148, STEXTP: the text, then spaces to the end of the region. -/
def Obligations.StextpPadsTheRegion : Prop :=
  (∀ cw : CommandWord, opField cw = 0x24 →
    (imm8Field cw = 0 → IssuesAs cw (.stextp (imm16Field cw))) ∧ (imm8Field cw ≠ 0 → IssuesIllegal cw)) ∧
  ∀ (l : Half) (s : State), FieldErrors true (.stextp l) s ∧
    (FieldReady true s → TextErrors l (.stextp l) s ∧
      (GoodText l s →
        CompletesStoring (.stextp l) s fun a =>
          if Config.pbufBase + 2 ≤ a ∧ a < Config.pbufBase + 2 + 16 then
            (if a - (Config.pbufBase + 2) < l.toNat then s.txtin (a - (Config.pbufBase + 2)) else 0x20)
          else Memory.read s.mem a))

/-- What the spec derives in R147: STEXT onto a region that is not clean past the new text, then GTEXT: the new text followed by
stale bytes. -/
def Obligations.StextLeavesAStaleTail : Prop :=
  ∀ (l : Half) (s : State), FieldReady true s → GoodText l s → l.toNat < 16 → ¬ CleanFrom l.toNat s →
    ∃ t, execAll [.stext l, .gtext] s = .next t ∧
      (∀ k, l.toNat ≤ k → k < 16 → t.pbuf (2 + k) = s.pbuf (2 + k)) ∧
      l.toNat < t.txtoutLen.toNat ∧
      (∀ j, j < l.toNat → t.txtout j = s.txtin j) ∧
      (∀ j, l.toNat ≤ j → j < t.txtoutLen.toNat → t.txtout j = s.pbuf (2 + j))

/-- R149 in part: two mutators of different fields that both succeed give the same state in either order.
The premise that storage is canonical is an invariant of every run (StepKeepsTheInvariant). -/
def Obligations.MutatorsOfDifferentFieldsCommute : Prop :=
  ∀ (i j : Instr) (s t u : State) (f g : PacketField), Memory.wf s.mem = true →
    fieldSet i = some f → fieldSet j = some g → f ≠ g →
    exec i s = .next t → t.statusCode = 0x00 → exec j s = .next u → u.statusCode = 0x00 →
    ∃ v, execAll [i, j] s = .next v ∧ execAll [j, i] s = .next v ∧ v.statusCode = 0x00

/-- What the spec derives in R150: after the four setters in any order, every accessor returns what was set, and the text without
its trailing spaces; with STEXT in place of STEXTP if the region is clean past the new text. -/
def Obligations.SettersThenAccessorsRoundTrip : Prop :=
  ∀ (a : Byte) (t : BitVec 4) (b : Brightness) (l : Half) (s : State) (text : Instr) (p : List Instr),
    FieldReady true s → a.toNat ≤ 0x7E → GoodText l s →
    (text = .stextp l ∨ (text = .stext l ∧ CleanFrom l.toNat s)) →
    p.Perm [.saddr a, .stally t, .sbrt b, text] →
    ∃ u, execAll p s = .next u ∧ u.statusCode = 0x00 ∧
      Completes .gaddr u { u with res := a } ∧
      Completes .gtally u { u with res := 0#4 ++ t } ∧
      Completes .gbrt u { u with res := 0#6 ++ brvOf b } ∧
      ∃ n v, TrimmedTo s.txtin l.toNat n ∧ exec .gtext u = .next v ∧ v.statusCode = 0x00 ∧
        v.txtoutLen = BitVec.ofNat 8 n ∧ ∀ j, j < 16 → v.txtout j = if j < n then s.txtin j else 0x00

/-- R204 in part: a packet built on an unchecked view over a displayable region validates. -/
def Obligations.BuiltPacketValidates : Prop :=
  ∀ (a : Byte) (t : BitVec 4) (b : Brightness) (l : Half) (s : State) (text : Instr),
    viewOf s.vstate = 0#2 → (∀ k, k < 16 → DispByte (s.pbuf (2 + k))) → a.toNat ≤ 0x7E → GoodText l s →
    (text = .stextp l ∨ text = .stext l) →
    ∃ u, execAll [.attu 18 true, .saddr a, .stally t, .sbrt b, text, .val] s = .next u ∧
      u.statusCode = 0x00

/-! ## Brightness (43_brightness.md) -/

/-- R160, the wire mapping, and what the spec derives from it (R162): it round-trips both ways, and SBRT B
followed by GBRT returns B. -/
def Obligations.WireBrightnessRoundTrips : Prop :=
  (wireEncode .zero = 0b00#2 ∧ wireEncode .oneSeventh = 0b01#2 ∧ wireEncode .oneHalf = 0b10#2 ∧
    wireEncode .full = 0b11#2) ∧
  (wireDecode 0b00#2 = .zero ∧ wireDecode 0b01#2 = .oneSeventh ∧ wireDecode 0b10#2 = .oneHalf ∧
    wireDecode 0b11#2 = .full) ∧
  (∀ b : Brightness, wireDecode (wireEncode b) = b) ∧
  (∀ c : BitVec 2, wireEncode (wireDecode c) = c) ∧
  ∀ (b : Brightness) (s : State), FieldReady true s →
    ∃ t, execAll [.sbrt b, .gbrt] s = .next t ∧ t.statusCode = 0x00 ∧ t.res = 0#6 ++ brvOf b

/-- R161 and R163, B2A: in every state RES takes the analog value. -/
def Obligations.B2aGivesTheAnalogValue : Prop :=
  (∀ cw : CommandWord, opField cw = 0x30 →
    (imm16Field cw = 0 ∧ (imm8Field cw).extractLsb' 2 6 = 0 →
      IssuesAs cw (.b2a (brightnessOfBrv (cw.extractLsb' 0 2)))) ∧
    (¬(imm16Field cw = 0 ∧ (imm8Field cw).extractLsb' 2 6 = 0) → IssuesIllegal cw)) ∧
  ∀ s : State,
    Completes (.b2a .zero) s { s with res := 0x00 } ∧
    Completes (.b2a .oneSeventh) s { s with res := 36 } ∧
    Completes (.b2a .oneHalf) s { s with res := 128 } ∧
    Completes (.b2a .full) s { s with res := 255 }

/-- R164, A2B: the four exact values give their BRV, every other value is reported, and A2B of B2A gives
the Brightness back. -/
def Obligations.A2bAcceptsOnlyExactValues : Prop :=
  (∀ cw : CommandWord, opField cw = 0x31 →
    (imm16Field cw = 0 → IssuesAs cw (.a2b (imm8Field cw))) ∧
    (imm16Field cw ≠ 0 → IssuesIllegal cw)) ∧
  (∀ s : State,
    Completes (.a2b 0) s { s with res := 0 } ∧ Completes (.a2b 36) s { s with res := 1 } ∧
    Completes (.a2b 128) s { s with res := 2 } ∧ Completes (.a2b 255) s { s with res := 3 }) ∧
  (∀ (v : Byte) (s : State), v.toNat ∉ [0, 36, 128, 255] → Raises (.a2b v) s 0x07 (v.setWidth 16)) ∧
  ∀ (b : Brightness) (s t : State), exec (.b2a b) s = .next t →
    Completes (.a2b t.res) t { t with res := 0#6 ++ brvOf b }

/-- R165 in part, and 93_implementation_defined.md rows 1 and 2: over all commands, only SBRT changes the
brightness bits of the control byte, only STALLY its tally bits, and none its bits 7:6. -/
def Obligations.ControlByteFieldsHaveOneWriter : Prop :=
  ∀ (i : Instr) (s t : State), exec i s = .next t →
    (t.pbuf 1).extractLsb' 6 2 = (s.pbuf 1).extractLsb' 6 2 ∧
    ((∀ b, i ≠ .sbrt b) → (t.pbuf 1).extractLsb' 4 2 = (s.pbuf 1).extractLsb' 4 2) ∧
    ((∀ f, i ≠ .stally f) → (t.pbuf 1).extractLsb' 0 4 = (s.pbuf 1).extractLsb' 0 4)

/-! ## Rendering (44_format.md) -/

/-- R170 and R171, FMT: FMTOUT holds the rendering, zero-filled past it, and every other byte of storage is
as before. The ASCII codes and the spellings "true" and "false" are the spec's own decision D24
(notes/assumptions/14.md). -/
def Obligations.FmtRendersThePacket : Prop :=
  (∀ cw : CommandWord, opField cw = 0x40 →
    (cw = 0x40000000 → IssuesAs cw .fmt) ∧ (cw ≠ 0x40000000 → IssuesIllegal cw)) ∧
  ∀ s : State, FieldErrors false .fmt s ∧
    (FieldReady false s → ∃ n, DecodedLength s n ∧ ∃ t, exec .fmt s = .next t ∧
      t = { s with
        mem := t.mem, fmtLen := BitVec.ofNat 8 (renderedBytes s n).length, statusCode := 0x00,
        statusDetail := 0x0000 } ∧
      ∀ a, Memory.read t.mem a =
        if 0x80 ≤ a ∧ a < 0x100 then (renderedBytes s n).getD (a - 0x80) 0x00
        else Memory.read s.mem a)

/-- What the spec derives in R172: a rendering has 62 to 86 bytes, both bounds are attained, and FMTOUT holds all of it. -/
def Obligations.FmtLengthIsBounded : Prop :=
  (∀ s t : State, exec .fmt s = .next t → t.statusCode = 0x00 →
    62 ≤ t.fmtLen.toNat ∧ t.fmtLen.toNat ≤ 86 ∧
    ∀ j, t.fmtLen.toNat ≤ j → j < 128 → t.fmtout j = 0) ∧
  (∃ s t : State, exec .fmt s = .next t ∧ t.statusCode = 0x00 ∧ t.fmtLen.toNat = 62) ∧
  (∃ s t : State, exec .fmt s = .next t ∧ t.statusCode = 0x00 ∧ t.fmtLen.toNat = 86)

/-! ## Errors (60_exceptions.md) -/

/-- R180: over all commands, the code and detail a command leaves are a row of the table, and the code is
one the table says the command raises; an illegal word leaves code 0x10 with its op. -/
def Obligations.StatusFollowsTheTable : Prop :=
  (∀ (i : Instr) (s t : State), exec i s = .next t →
    StatusLegal t.statusCode t.statusDetail ∧ t.statusCode ∈ codesOf i) ∧
  ∀ (s t : State), (∃ e, decode s.commandWord = .error e) → executeWord s = .next t →
    t.statusCode = 0x10 ∧ t.statusDetail = s.cmdOp.setWidth 16

/-- R182: every accessor, every mutator and FMT makes the field-access check: it reports one of the three
field-access errors exactly when the view does not allow the access. -/
def Obligations.FieldAccessGuardsFieldCommands : Prop :=
  ∀ (i : Instr) (needW : Bool) (s t : State), fieldNeeds i = some needW → exec i s = .next t →
    (t.statusCode ∈ [0x11#8, 0x13#8, 0x14#8] ↔ ¬ FieldReady needW s) ∧ FieldErrors needW i s

/-- R184: over all commands, one that reports an error changes only the status. -/
def Obligations.ErrorsChangeOnlyTheStatus : Prop :=
  ∀ (i : Instr) (s t : State), exec i s = .next t → t.statusCode ≠ 0x00 →
    t = { s with statusCode := t.statusCode, statusDetail := t.statusDetail }

/-- R64 and R181 in part: whatever the state, a step goes on: no fault, no refusal, no event that cannot be
performed. The queue of host events is the model's (notes/assumptions/1.md). -/
def Obligations.EveryStepGoesOn : Prop := ∀ s : State, ∃ t, step s = .next t

/-! ## Registers (10_state.md) -/

/-- The "written by commands" column of R22, over all commands: the command-word registers and FLAGS are
written by none, TXTIN by none, and every other register only by the commands its row names. -/
def Obligations.RegistersHaveOnlyTheirWriters : Prop :=
  ∀ (i : Instr) (s t : State), exec i s = .next t →
    (t.cmdImm8 = s.cmdImm8 ∧ t.cmdImm16 = s.cmdImm16 ∧ t.cmdOp = s.cmdOp ∧ t.flags = s.flags) ∧
    (∀ j, j < 16 → t.txtin j = s.txtin j) ∧
    (t.len ≠ s.len → ∃ l w, i = .attu l w ∨ i = .attc l w) ∧
    (t.vstate ≠ s.vstate → i = .rel ∨ ∃ l w, i = .attu l w ∨ i = .attc l w) ∧
    (t.res ≠ s.res → i = .gaddr ∨ i = .gtally ∨ i = .gbrt ∨ (∃ b, i = .b2a b) ∨ ∃ v, i = .a2b v) ∧
    (t.txtoutLen ≠ s.txtoutLen ∨ (∃ j, j < 16 ∧ t.txtout j ≠ s.txtout j) → i = .gtext) ∧
    (t.fmtLen ≠ s.fmtLen ∨ (∃ j, j < 128 ∧ t.fmtout j ≠ s.fmtout j) → i = .fmt) ∧
    (t.pbuf 0 ≠ s.pbuf 0 → ∃ v, i = .saddr v) ∧
    (t.pbuf 1 ≠ s.pbuf 1 → (∃ f, i = .stally f) ∨ ∃ b, i = .sbrt b) ∧
    (∀ k, k < 16 → t.pbuf (2 + k) ≠ s.pbuf (2 + k) → ∃ l, i = .stext l ∨ i = .stextp l)

/-- R25 in part: in every step from a state with a legal VSTATE, VSTATE stays legal: VIEW = 3, the reserved bits
and a W bit without a view are never held. -/
def Obligations.ViewStateStaysLegal : Prop :=
  ∀ s t : State, VstateOk s → step s = .next t → VstateOk t

/-- R35 in part: what a command does to the status, PBUF, LEN, VSTATE and TXTIN, and what it writes to a result
register, do not depend on STATUS, RES, TXTOUT, TXTOUT_LEN, FMTOUT, FMT_LEN or FLAGS. -/
def Obligations.OutcomesIgnoreResultRegisters : Prop :=
  ∀ (i : Instr) (s s' t t' : State),
    s.len = s'.len → s.vstate = s'.vstate → (∀ k, k < 18 → s.pbuf k = s'.pbuf k) →
    (∀ j, j < 16 → s.txtin j = s'.txtin j) → exec i s = .next t → exec i s' = .next t' →
    t.statusCode = t'.statusCode ∧ t.statusDetail = t'.statusDetail ∧ t.len = t'.len ∧
    t.vstate = t'.vstate ∧ (∀ k, k < 18 → t.pbuf k = t'.pbuf k) ∧
    (∀ j, j < 16 → t.txtin j = t'.txtin j) ∧
    (t.res = t'.res ∨ (t.res = s.res ∧ t'.res = s'.res)) ∧
    ((t.txtoutLen = t'.txtoutLen ∧ ∀ j, j < 16 → t.txtout j = t'.txtout j) ∨
      (t.txtoutLen = s.txtoutLen ∧ t'.txtoutLen = s'.txtoutLen ∧
        ∀ j, j < 16 → t.txtout j = s.txtout j ∧ t'.txtout j = s'.txtout j)) ∧
    ((t.fmtLen = t'.fmtLen ∧ ∀ j, j < 128 → t.fmtout j = t'.fmtout j) ∨
      (t.fmtLen = s.fmtLen ∧ t'.fmtLen = s'.fmtLen ∧
        ∀ j, j < 128 → t.fmtout j = s.fmtout j ∧ t'.fmtout j = s'.fmtout j))

/-- What the spec derives in R36: the checked-view invariant is kept by every step, and under it VAL on a checked view completes. -/
def Obligations.CheckedViewStaysValid : Prop :=
  (∀ s t : State, CheckedOk s → step s = .next t → CheckedOk t) ∧
  ∀ s : State, CheckedOk s → viewOf s.vstate = 2#2 → Completes .val s s

/-- The invariant of a run: canonical storage, a legal VSTATE (R25), the checked-view invariant (R36),
FLAGS bits 7:1 clear (R29), TXTOUT and FMTOUT zero past their lengths (R27, R31) and a status of the table
(R180) are kept by every step, from every state that has them. -/
def Obligations.StepKeepsTheInvariant : Prop :=
  ∀ s t : State, s.Inv → step s = .next t → t.Inv

/-- The state after reset has the invariant. -/
def Obligations.ResetHasTheInvariant : Prop := State.reset.Inv

/-! ## The host port (20_memory.md) -/

/-- R52: the three 16-bit registers are little-endian, and the bytes at 0x40 to 0x43 are the command word. -/
def Obligations.WideRegistersAreLittleEndian : Prop :=
  ∀ s : State,
    (hostRead s 0x42 ++ hostRead s 0x41 : Half) = s.cmdImm16 ∧
    (hostRead s 0x46 ++ hostRead s 0x45 : Half) = s.statusDetail ∧
    (hostRead s 0x4D ++ hostRead s 0x4C : Half) = s.len ∧
    assembleWord (hostRead s 0x43) (hostRead s 0x42 ++ hostRead s 0x41) (hostRead s 0x40) = s.commandWord

/-- R55, the read side of the whole register map. -/
def Obligations.HostReadsFollowTheMap : Prop :=
  ∀ s : State,
    (∀ k, k < 18 → hostRead s (BitVec.ofNat 8 k) = s.pbuf k) ∧
    (∀ j, j < 16 → hostRead s (BitVec.ofNat 8 (0x20 + j)) = s.txtin j) ∧
    (∀ j, j < 16 → hostRead s (BitVec.ofNat 8 (0x30 + j)) = s.txtout j) ∧
    (∀ j, j < 128 → hostRead s (BitVec.ofNat 8 (0x80 + j)) = s.fmtout j) ∧
    hostRead s 0x40 = s.cmdImm8 ∧ hostRead s 0x41 = s.cmdImm16.extractLsb' 0 8 ∧
    hostRead s 0x42 = s.cmdImm16.extractLsb' 8 8 ∧ hostRead s 0x43 = s.cmdOp ∧
    hostRead s 0x44 = s.statusCode ∧ hostRead s 0x45 = s.statusDetail.extractLsb' 0 8 ∧
    hostRead s 0x46 = s.statusDetail.extractLsb' 8 8 ∧
    hostRead s 0x47 = 0#7 ++ s.flags.extractLsb' 0 1 ∧ hostRead s 0x48 = s.res ∧
    hostRead s 0x49 = s.txtoutLen ∧ hostRead s 0x4A = s.vstate ∧
    hostRead s 0x4C = s.len.extractLsb' 0 8 ∧ hostRead s 0x4D = s.len.extractLsb' 8 8 ∧
    hostRead s 0x4E = s.fmtLen ∧
    ∀ a : Byte, (0x12 ≤ a.toNat ∧ a.toNat ≤ 0x1F) ∨ a = 0x4B ∨ (0x4F ≤ a.toNat ∧ a.toNat ≤ 0x7F) →
      hostRead s a = 0x00

/-- R56, and the write side of R57: a host write to a reserved address or to a read-only register changes
nothing, and a reserved address reads 0x00. -/
def Obligations.ReservedAndReadOnlyIgnoreWrites : Prop :=
  (∀ (s : State) (a v : Byte) (es : List HostEvent),
    ((0x12 ≤ a.toNat ∧ a.toNat ≤ 0x1F) ∨ (0x30 ≤ a.toNat ∧ a.toNat ≤ 0x3F) ∨
      (0x44 ≤ a.toNat ∧ a.toNat ≤ 0x46) ∨ (0x48 ≤ a.toNat ∧ a.toNat ≤ 0xFF)) →
    s.pending = .write a v :: es → step s = .next { s with pending := es }) ∧
  (∀ (s : State) (a : Byte),
    ((0x12 ≤ a.toNat ∧ a.toNat ≤ 0x1F) ∨ a = 0x4B ∨ (0x4F ≤ a.toNat ∧ a.toNat ≤ 0x7F)) →
    hostRead s a = 0x00) ∧
  ∀ (s t : State) (v : Byte) (es : List HostEvent),
    s.pending = .write 0x47 v :: es → step s = .next t →
    t.flags.extractLsb' 1 7 = s.flags.extractLsb' 1 7

/-- R58: a host write to PBUF is stored while no view is attached, and otherwise dropped and recorded in
HWV; PBUF can be read in every view state. -/
def Obligations.ViewGuardsThePacketBuffer : Prop :=
  ∀ (s : State) (k : Nat) (v : Byte) (es : List HostEvent), k < 18 →
    (s.pending = .write (BitVec.ofNat 8 k) v :: es →
      (viewOf s.vstate = 0#2 → ∃ t, step s = .next t ∧ t = { s with mem := t.mem, pending := es } ∧
        ∀ a, Memory.read t.mem a = if a = Config.pbufBase + k then v else Memory.read s.mem a) ∧
      (viewOf s.vstate ≠ 0#2 → step s = .next { s with flags := s.flags ||| 0x01, pending := es })) ∧
    hostRead s (BitVec.ofNat 8 k) = s.pbuf k

/-- R59: reads have no side effect; a CMD_OP write runs a command each time; FLAGS is write-1-to-clear; a
PBUF write under a view sets HWV; every other write is idempotent. The record of the bytes returned is the
model's own (notes/assumptions/3.md). -/
def Obligations.HostAccessSideEffects : Prop :=
  (∀ (s : State) (a : Byte) (es : List HostEvent), s.pending = .read a :: es →
    step s = .next { s with returned := hostRead s a :: s.returned, pending := es }) ∧
  (∀ (s : State) (v : Byte) (es : List HostEvent), s.pending = .write 0x43 v :: es →
    step s = executeWord { s with cmdOp := v, pending := es }) ∧
  (∃ (s t u : State) (v : Byte), issue v s = .next t ∧ issue v t = .next u ∧ t ≠ u) ∧
  (∀ (s : State) (v : Byte) (es : List HostEvent), s.pending = .write 0x47 v :: es →
    (v.getLsbD 0 = true → ∃ t, step s = .next t ∧ t = { s with flags := t.flags, pending := es } ∧
      t.flags.getLsbD 0 = false) ∧
    (v.getLsbD 0 = false → step s = .next { s with pending := es })) ∧
  (∀ (s : State) (k : Nat) (v : Byte) (es : List HostEvent), k < 18 → viewOf s.vstate ≠ 0#2 →
    s.pending = .write (BitVec.ofNat 8 k) v :: es →
    ∃ t, step s = .next t ∧ t = { s with flags := t.flags, pending := es } ∧
      t.flags.getLsbD 0 = true) ∧
  ∀ (s : State) (a v : Byte), a ≠ 0x43 → hostStore a v (hostStore a v s) = hostStore a v s

/-- R62 for the staging area: a host read returns the value of the last host write to that byte. That the
returned byte is recorded in `returned`, where the statement looks for it, is the model's choice
(notes/assumptions/3.md). -/
def Obligations.StagedByteReadsBack : Prop :=
  ∀ (s : State) (j : Nat) (v : Byte) (es : List HostEvent), j < 16 →
    s.pending = .write (BitVec.ofNat 8 (0x20 + j)) v :: .read (BitVec.ofNat 8 (0x20 + j)) :: es →
    ∃ t, Host.Core.run Sys2Proof.core 2 s = .next t ∧ t.returned = v :: s.returned ∧
      t = { s with mem := t.mem, returned := t.returned, pending := es } ∧
      ∀ a, Memory.read t.mem a = if a = Config.txtinBase + j then v else Memory.read s.mem a

/-- R90 in part, `ldbuf`: with no view attached it loads its bytes into PBUF and changes nothing else. -/
def Obligations.LdbufLoadsThePacketBuffer : Prop :=
  ∀ (s : State) (bs : List Nat) (es : List HostEvent), (HostLine.ldbuf bs).wellFormed = true →
    viewOf s.vstate = 0#2 → s.pending = expand (.ldbuf bs) ++ es →
    ∃ t, Host.Core.run Sys2Proof.core bs.length s = .next t ∧
      t = { s with mem := t.mem, pending := es } ∧
      ∀ a, Memory.read t.mem a =
        if a < bs.length then BitVec.ofNat 8 (bs.getD a 0) else Memory.read s.mem a

/-! ## Reset (70_reset_and_hazards.md) -/

/-- R200: a reset leaves every register at its reset value, whatever the state was, and every host address
then reads 0x00. As the spec derives (R201), no view is attached, the host may write PBUF at once, and a
write of 0x00 to CMD_OP only raises E_ILLEGAL_COMMAND. Of the model's own two fields the statement says
nothing. -/
def Obligations.ResetClearsEveryRegister : Prop :=
  (∀ (s : State) (es : List HostEvent), s.pending = .reset :: es →
    ∃ t, step s = .next t ∧ t = { State.reset with pending := t.pending, returned := t.returned }) ∧
  (∀ a : Byte, hostRead State.reset a = 0x00) ∧
  (viewOf State.reset.vstate = 0#2 ∧ writableOf State.reset.vstate = false ∧ State.reset.len = 0 ∧
    State.reset.statusCode = 0x00 ∧ State.reset.statusDetail = 0 ∧
    hwvOf State.reset.flags = false ∧ State.reset.commandWord = 0x00000000) ∧
  (∀ k v, k < 18 → (hostStore (BitVec.ofNat 8 k) v State.reset).pbuf k = v) ∧
  issue 0x00 State.reset = .next { State.reset with statusCode := 0x10, statusDetail := 0x0000 }

/-- R202 in part: with no host event pending the block waits, and nothing changes. That a wait is a step
that changes nothing is the model's choice (notes/assumptions/2.md). -/
def Obligations.WaitsForTheHost : Prop := ∀ s : State, s.pending = [] → step s = .next s
end

