-- ==== Sys2Proof/Laws/Memory.lean ====
section
/-! SUPPORT. The laws of byte storage: reading after a write, the canonical form every operation keeps,
and extensionality (two canonical storages that read alike are equal). The read laws hold of every list;
only the last two groups need the canonical form. -/

namespace Sys2Proof.Machine

/-! ### Reading -/

@[simp] theorem Memory.read_nil (a : Nat) : Memory.read [] a = 0 := rfl

theorem Memory.read_cons (c : Host.Cell) (m : Memory) (a : Nat) :
    Memory.read (c :: m) a = if c.1 = a then c.2 else Memory.read m a := rfl

theorem Memory.read_erase_self (m : Memory) (a : Nat) : Memory.read (Memory.erase m a) a = 0 := by
  induction m with
  | nil => rfl
  | cons c m ih =>
    by_cases h : c.1 = a
    · simpa [Memory.erase, h] using ih
    · simpa [Memory.erase, h, Memory.read_cons] using ih

theorem Memory.read_erase_ne (m : Memory) {a a' : Nat} (h : a' ≠ a) :
    Memory.read (Memory.erase m a) a' = Memory.read m a' := by
  induction m with
  | nil => rfl
  | cons c m ih =>
    by_cases hc : c.1 = a
    · have : c.1 ≠ a' := fun e => h (e.symm.trans hc)
      simpa [Memory.erase, hc, Memory.read_cons, Ne.symm h] using ih
    · simp only [Memory.erase, ne_eq, hc, not_false_eq_true, bne_iff_ne, List.filter_cons_of_pos,
        Memory.read_cons] at ih ⊢
      rw [ih]

theorem Memory.read_insert (m : Memory) (a : Nat) (b : Byte) (h : ∀ c ∈ m, c.1 ≠ a) (a' : Nat) :
    Memory.read (Memory.insert m a b) a' = if a' = a then b else Memory.read m a' := by
  induction m with
  | nil => simp [Memory.insert, Memory.read_cons, eq_comm]
  | cons c m ih =>
    have hc : c.1 ≠ a := h c (List.mem_cons_self ..)
    have ih := ih fun d hd => h d (List.mem_cons_of_mem _ hd)
    unfold Memory.insert
    split
    · simp [Memory.read_cons, eq_comm]
    · rw [Memory.read_cons, ih, Memory.read_cons]
      by_cases ha : a' = a
      · simp [ha, hc]
      · simp [ha]

theorem Memory.mem_erase {m : Memory} {a : Nat} {c : Host.Cell} :
    c ∈ Memory.erase m a ↔ c ∈ m ∧ c.1 ≠ a := by simp [Memory.erase]

/-- Read after write: the address written gives the value, every other address is as before. -/
theorem Memory.read_write (m : Memory) (a : Nat) (b : Byte) (a' : Nat) :
    Memory.read (Memory.write m a b) a' = if a' = a then b else Memory.read m a' := by
  unfold Memory.write
  split
  · rename_i hb
    by_cases h : a' = a
    · subst h; simp [Memory.read_erase_self, hb, resetByte]
    · simp [h, Memory.read_erase_ne m h]
  · rw [Memory.read_insert _ _ _ fun c hc => (Memory.mem_erase.mp hc).2]
    by_cases h : a' = a
    · simp [h]
    · simp [h, Memory.read_erase_ne m h]

/-- Read after a write of consecutive bytes. -/
theorem Memory.read_writeBytes (bs : List Byte) (m : Memory) (base a : Nat) :
    Memory.read (Memory.writeBytes m base bs) a =
      if base ≤ a ∧ a < base + bs.length then bs.getD (a - base) 0 else Memory.read m a := by
  induction bs generalizing m base with
  | nil =>
    have : ¬(base ≤ a ∧ a < base + ([] : List Byte).length) := by simp
    rw [if_neg this]; rfl
  | cons b bs ih =>
    rw [Memory.writeBytes, ih, Memory.read_write]
    by_cases h1 : a = base
    · subst h1; simp
    · by_cases h2 : base ≤ a ∧ a < base + (bs.length + 1)
      · obtain ⟨k, rfl⟩ : ∃ k, a = base + 1 + k := ⟨a - (base + 1), by omega⟩
        have e : base + 1 + k - base = k + 1 := by omega
        rw [if_pos (by omega), if_pos (by simpa using h2), e]
        simp
      · rw [if_neg (by omega), if_neg h1, if_neg (by simpa using h2)]

/-! ### The canonical form -/

theorem Memory.rising_iff {m : Memory} : Memory.rising m = true ↔ m.Pairwise fun c d => c.1 < d.1 := by
  induction m with
  | nil => simp [Memory.rising]
  | cons c m ih => simp [Memory.rising, ih]

theorem Memory.wf_iff {m : Memory} :
    Memory.wf m = true ↔ (m.Pairwise fun c d => c.1 < d.1) ∧ ∀ c ∈ m, c.2 ≠ 0 := by
  simp [Memory.wf, Memory.rising_iff, resetByte]

theorem Memory.mem_insert {m : Memory} {a : Nat} {b : Byte} {c : Host.Cell} :
    c ∈ Memory.insert m a b ↔ c = (a, b) ∨ c ∈ m := by
  induction m with
  | nil => simp [Memory.insert]
  | cons d m ih =>
    unfold Memory.insert
    split
    · simp
    · simp [ih, or_left_comm]

theorem Memory.pairwise_insert {m : Memory} {a : Nat} {b : Byte} (hp : m.Pairwise fun c d => c.1 < d.1)
    (h : ∀ c ∈ m, c.1 ≠ a) : (Memory.insert m a b).Pairwise fun c d => c.1 < d.1 := by
  induction m with
  | nil => simp [Memory.insert]
  | cons d m ih =>
    obtain ⟨hd, hm⟩ := List.pairwise_cons.mp hp
    unfold Memory.insert
    split
    · rename_i hlt
      refine List.pairwise_cons.mpr ⟨fun c hc => ?_, hp⟩
      rcases List.mem_cons.mp hc with rfl | hc
      · exact hlt
      · exact Nat.lt_trans hlt (hd c hc)
    · rename_i hge
      have hda := h d (List.mem_cons_self ..)
      refine List.pairwise_cons.mpr ⟨fun c hc => ?_, ih hm fun c hc => h c (List.mem_cons_of_mem _ hc)⟩
      rcases Memory.mem_insert.mp hc with rfl | hc
      · show d.1 < a
        omega
      · exact hd c hc

/-- A write keeps the canonical form. -/
theorem Memory.wf_write {m : Memory} (h : Memory.wf m = true) (a : Nat) (b : Byte) :
    Memory.wf (Memory.write m a b) = true := by
  rw [Memory.wf_iff] at h ⊢
  have he : (Memory.erase m a).Pairwise fun c d => c.1 < d.1 := h.1.filter _
  unfold Memory.write
  split
  · exact ⟨he, fun c hc => h.2 c (Memory.mem_erase.mp hc).1⟩
  · rename_i hb
    refine ⟨Memory.pairwise_insert he fun c hc => (Memory.mem_erase.mp hc).2, fun c hc => ?_⟩
    rcases Memory.mem_insert.mp hc with rfl | hc
    · exact hb
    · exact h.2 c (Memory.mem_erase.mp hc).1

/-- A write of consecutive bytes keeps the canonical form. -/
theorem Memory.wf_writeBytes {m : Memory} (h : Memory.wf m = true) (base : Nat) (bs : List Byte) :
    Memory.wf (Memory.writeBytes m base bs) = true := by
  induction bs generalizing m base with
  | nil => exact h
  | cons b bs ih => exact ih (Memory.wf_write h base b) _

/-- Which addresses a write lists: those listed before, and the address written. -/
theorem Memory.mem_write {m : Memory} {a : Nat} {b : Byte} {c : Host.Cell}
    (h : c ∈ Memory.write m a b) : c.1 = a ∨ c ∈ m := by
  unfold Memory.write at h
  split at h
  · exact .inr (Memory.mem_erase.mp h).1
  · rcases Memory.mem_insert.mp h with rfl | h
    · exact .inl rfl
    · exact .inr (Memory.mem_erase.mp h).1

/-- Which addresses a write of consecutive bytes lists. -/
theorem Memory.mem_writeBytes {m : Memory} {base : Nat} {bs : List Byte} {c : Host.Cell}
    (h : c ∈ Memory.writeBytes m base bs) : (base ≤ c.1 ∧ c.1 < base + bs.length) ∨ c ∈ m := by
  induction bs generalizing m base with
  | nil => exact .inr h
  | cons b bs ih =>
    rcases ih h with h | h
    · left; simp only [List.length_cons]; omega
    · rcases Memory.mem_write h with h | h
      · left; simp only [List.length_cons]; omega
      · exact .inr h

/-! ### Extensionality -/

theorem Memory.read_of_mem {m : Memory} (h : Memory.wf m = true) {c : Host.Cell} (hc : c ∈ m) :
    Memory.read m c.1 = c.2 := by
  rw [Memory.wf_iff] at h
  induction m with
  | nil => cases hc
  | cons d m ih =>
    rw [Memory.read_cons]
    obtain ⟨hd, hm⟩ := List.pairwise_cons.mp h.1
    rcases List.mem_cons.mp hc with rfl | hc
    · simp
    · have := hd c hc
      rw [if_neg (by omega)]
      exact ih ⟨hm, fun e he => h.2 e (List.mem_cons_of_mem _ he)⟩ hc

theorem Memory.mem_of_read {m : Memory} {a : Nat} (h : Memory.read m a ≠ 0) :
    (a, Memory.read m a) ∈ m := by
  induction m with
  | nil => exact absurd rfl h
  | cons c m ih =>
    rw [Memory.read_cons] at h ⊢
    split at h
    · rename_i hc; subst hc; simp
    · rename_i hc; simp only [hc, if_false]; exact List.mem_cons_of_mem _ (ih h)

/-- Two canonical storages that read alike at every address are the same list. -/
theorem Memory.ext {m m' : Memory} (h : Memory.wf m = true) (h' : Memory.wf m' = true)
    (hr : ∀ a, Memory.read m a = Memory.read m' a) : m = m' := by
  have key : ∀ {m m' : Memory}, Memory.wf m = true → Memory.wf m' = true →
      (∀ a, Memory.read m a = Memory.read m' a) → ∀ c ∈ m, c ∈ m' := by
    intro m m' h h' hr c hc
    have e := Memory.read_of_mem h hc
    have hne : Memory.read m' c.1 ≠ 0 := by
      rw [← hr, e]; exact (Memory.wf_iff.mp h).2 c hc
    have := Memory.mem_of_read hne
    rwa [← hr, e] at this
  have hp := (Memory.wf_iff.mp h).1
  have hp' := (Memory.wf_iff.mp h').1
  have nd : ∀ {m : Memory}, (m.Pairwise fun c d => c.1 < d.1) → m.Nodup := fun hp =>
    hp.imp fun {c d} hlt he => by subst he; exact Nat.lt_irrefl _ hlt
  have hperm : m.Perm m' := (List.perm_ext_iff_of_nodup (nd hp) (nd hp')).mpr fun c =>
    ⟨key h h' hr c, key h' h (fun a => (hr a).symm) c⟩
  exact hperm.eq_of_pairwise
    (fun c d _ _ h1 h2 => absurd (Nat.lt_trans h1 h2) (Nat.lt_irrefl _)) hp hp'

/-! ### Writing twice -/

theorem Memory.erase_insert (m : Memory) (a : Nat) (b : Byte) :
    Memory.erase (Memory.insert m a b) a = Memory.erase m a := by
  induction m with
  | nil => simp [Memory.insert, Memory.erase]
  | cons c m ih =>
    unfold Memory.insert
    split
    · simp [Memory.erase]
    · simp only [Memory.erase, List.filter_cons] at ih ⊢
      rw [ih]

theorem Memory.erase_erase (m : Memory) (a : Nat) :
    Memory.erase (Memory.erase m a) a = Memory.erase m a := by simp [Memory.erase]

theorem Memory.erase_write (m : Memory) (a : Nat) (b : Byte) :
    Memory.erase (Memory.write m a b) a = Memory.erase m a := by
  unfold Memory.write
  split
  · exact Memory.erase_erase m a
  · rw [Memory.erase_insert, Memory.erase_erase]

/-- The second write to an address wins. -/
theorem Memory.write_write (m : Memory) (a : Nat) (b b' : Byte) :
    Memory.write (Memory.write m a b) a b' = Memory.write m a b' := by
  conv_lhs => unfold Memory.write
  conv_rhs => unfold Memory.write
  rw [show (if b = resetByte then Memory.erase m a else Memory.insert (Memory.erase m a) a b)
    = Memory.write m a b from rfl, Memory.erase_write]

end Sys2Proof.Machine
end

