-- ==== Sys2Proof/Laws/State.lean ====
section
/-! SUPPORT. One lemma per field per named update, and per array accessor or view test an update leaves
alone: each true by rfl and tagged simp, so that no proof unfolds a record update. -/

namespace Sys2Proof.Machine

/-! ### setMem -/

section
variable (s : State) (m : Memory)
@[simp] theorem setMem_mem : (s.setMem m).mem = m := rfl
@[simp] theorem setMem_len : (s.setMem m).len = s.len := rfl
@[simp] theorem setMem_vstate : (s.setMem m).vstate = s.vstate := rfl
@[simp] theorem setMem_txtoutLen : (s.setMem m).txtoutLen = s.txtoutLen := rfl
@[simp] theorem setMem_res : (s.setMem m).res = s.res := rfl
@[simp] theorem setMem_statusCode : (s.setMem m).statusCode = s.statusCode := rfl
@[simp] theorem setMem_statusDetail : (s.setMem m).statusDetail = s.statusDetail := rfl
@[simp] theorem setMem_flags : (s.setMem m).flags = s.flags := rfl
@[simp] theorem setMem_cmdImm8 : (s.setMem m).cmdImm8 = s.cmdImm8 := rfl
@[simp] theorem setMem_cmdImm16 : (s.setMem m).cmdImm16 = s.cmdImm16 := rfl
@[simp] theorem setMem_cmdOp : (s.setMem m).cmdOp = s.cmdOp := rfl
@[simp] theorem setMem_fmtLen : (s.setMem m).fmtLen = s.fmtLen := rfl
@[simp] theorem setMem_pending : (s.setMem m).pending = s.pending := rfl
@[simp] theorem setMem_returned : (s.setMem m).returned = s.returned := rfl
@[simp] theorem setMem_attached : (s.setMem m).attached = s.attached := rfl
@[simp] theorem setMem_writable : (s.setMem m).writable = s.writable := rfl
end

/-! ### setLen -/

section
variable (s : State) (v : Half)
@[simp] theorem setLen_mem : (s.setLen v).mem = s.mem := rfl
@[simp] theorem setLen_len : (s.setLen v).len = v := rfl
@[simp] theorem setLen_vstate : (s.setLen v).vstate = s.vstate := rfl
@[simp] theorem setLen_txtoutLen : (s.setLen v).txtoutLen = s.txtoutLen := rfl
@[simp] theorem setLen_res : (s.setLen v).res = s.res := rfl
@[simp] theorem setLen_statusCode : (s.setLen v).statusCode = s.statusCode := rfl
@[simp] theorem setLen_statusDetail : (s.setLen v).statusDetail = s.statusDetail := rfl
@[simp] theorem setLen_flags : (s.setLen v).flags = s.flags := rfl
@[simp] theorem setLen_cmdImm8 : (s.setLen v).cmdImm8 = s.cmdImm8 := rfl
@[simp] theorem setLen_cmdImm16 : (s.setLen v).cmdImm16 = s.cmdImm16 := rfl
@[simp] theorem setLen_cmdOp : (s.setLen v).cmdOp = s.cmdOp := rfl
@[simp] theorem setLen_fmtLen : (s.setLen v).fmtLen = s.fmtLen := rfl
@[simp] theorem setLen_pending : (s.setLen v).pending = s.pending := rfl
@[simp] theorem setLen_returned : (s.setLen v).returned = s.returned := rfl
@[simp] theorem setLen_pbuf (k : Nat) : (s.setLen v).pbuf k = s.pbuf k := rfl
@[simp] theorem setLen_display (k : Nat) : (s.setLen v).display k = s.display k := rfl
@[simp] theorem setLen_txtin (k : Nat) : (s.setLen v).txtin k = s.txtin k := rfl
@[simp] theorem setLen_txtout (k : Nat) : (s.setLen v).txtout k = s.txtout k := rfl
@[simp] theorem setLen_fmtout (k : Nat) : (s.setLen v).fmtout k = s.fmtout k := rfl
@[simp] theorem setLen_attached : (s.setLen v).attached = s.attached := rfl
@[simp] theorem setLen_writable : (s.setLen v).writable = s.writable := rfl
end

/-! ### setVstate -/

section
variable (s : State) (v : Byte)
@[simp] theorem setVstate_mem : (s.setVstate v).mem = s.mem := rfl
@[simp] theorem setVstate_len : (s.setVstate v).len = s.len := rfl
@[simp] theorem setVstate_vstate : (s.setVstate v).vstate = v := rfl
@[simp] theorem setVstate_txtoutLen : (s.setVstate v).txtoutLen = s.txtoutLen := rfl
@[simp] theorem setVstate_res : (s.setVstate v).res = s.res := rfl
@[simp] theorem setVstate_statusCode : (s.setVstate v).statusCode = s.statusCode := rfl
@[simp] theorem setVstate_statusDetail : (s.setVstate v).statusDetail = s.statusDetail := rfl
@[simp] theorem setVstate_flags : (s.setVstate v).flags = s.flags := rfl
@[simp] theorem setVstate_cmdImm8 : (s.setVstate v).cmdImm8 = s.cmdImm8 := rfl
@[simp] theorem setVstate_cmdImm16 : (s.setVstate v).cmdImm16 = s.cmdImm16 := rfl
@[simp] theorem setVstate_cmdOp : (s.setVstate v).cmdOp = s.cmdOp := rfl
@[simp] theorem setVstate_fmtLen : (s.setVstate v).fmtLen = s.fmtLen := rfl
@[simp] theorem setVstate_pending : (s.setVstate v).pending = s.pending := rfl
@[simp] theorem setVstate_returned : (s.setVstate v).returned = s.returned := rfl
@[simp] theorem setVstate_pbuf (k : Nat) : (s.setVstate v).pbuf k = s.pbuf k := rfl
@[simp] theorem setVstate_display (k : Nat) : (s.setVstate v).display k = s.display k := rfl
@[simp] theorem setVstate_txtin (k : Nat) : (s.setVstate v).txtin k = s.txtin k := rfl
@[simp] theorem setVstate_txtout (k : Nat) : (s.setVstate v).txtout k = s.txtout k := rfl
@[simp] theorem setVstate_fmtout (k : Nat) : (s.setVstate v).fmtout k = s.fmtout k := rfl
end

/-! ### setTxtoutLen -/

section
variable (s : State) (v : Byte)
@[simp] theorem setTxtoutLen_mem : (s.setTxtoutLen v).mem = s.mem := rfl
@[simp] theorem setTxtoutLen_len : (s.setTxtoutLen v).len = s.len := rfl
@[simp] theorem setTxtoutLen_vstate : (s.setTxtoutLen v).vstate = s.vstate := rfl
@[simp] theorem setTxtoutLen_txtoutLen : (s.setTxtoutLen v).txtoutLen = v := rfl
@[simp] theorem setTxtoutLen_res : (s.setTxtoutLen v).res = s.res := rfl
@[simp] theorem setTxtoutLen_statusCode : (s.setTxtoutLen v).statusCode = s.statusCode := rfl
@[simp] theorem setTxtoutLen_statusDetail : (s.setTxtoutLen v).statusDetail = s.statusDetail := rfl
@[simp] theorem setTxtoutLen_flags : (s.setTxtoutLen v).flags = s.flags := rfl
@[simp] theorem setTxtoutLen_cmdImm8 : (s.setTxtoutLen v).cmdImm8 = s.cmdImm8 := rfl
@[simp] theorem setTxtoutLen_cmdImm16 : (s.setTxtoutLen v).cmdImm16 = s.cmdImm16 := rfl
@[simp] theorem setTxtoutLen_cmdOp : (s.setTxtoutLen v).cmdOp = s.cmdOp := rfl
@[simp] theorem setTxtoutLen_fmtLen : (s.setTxtoutLen v).fmtLen = s.fmtLen := rfl
@[simp] theorem setTxtoutLen_pending : (s.setTxtoutLen v).pending = s.pending := rfl
@[simp] theorem setTxtoutLen_returned : (s.setTxtoutLen v).returned = s.returned := rfl
@[simp] theorem setTxtoutLen_pbuf (k : Nat) : (s.setTxtoutLen v).pbuf k = s.pbuf k := rfl
@[simp] theorem setTxtoutLen_display (k : Nat) : (s.setTxtoutLen v).display k = s.display k := rfl
@[simp] theorem setTxtoutLen_txtin (k : Nat) : (s.setTxtoutLen v).txtin k = s.txtin k := rfl
@[simp] theorem setTxtoutLen_txtout (k : Nat) : (s.setTxtoutLen v).txtout k = s.txtout k := rfl
@[simp] theorem setTxtoutLen_fmtout (k : Nat) : (s.setTxtoutLen v).fmtout k = s.fmtout k := rfl
@[simp] theorem setTxtoutLen_attached : (s.setTxtoutLen v).attached = s.attached := rfl
@[simp] theorem setTxtoutLen_writable : (s.setTxtoutLen v).writable = s.writable := rfl
end

/-! ### setRes -/

section
variable (s : State) (v : Byte)
@[simp] theorem setRes_mem : (s.setRes v).mem = s.mem := rfl
@[simp] theorem setRes_len : (s.setRes v).len = s.len := rfl
@[simp] theorem setRes_vstate : (s.setRes v).vstate = s.vstate := rfl
@[simp] theorem setRes_txtoutLen : (s.setRes v).txtoutLen = s.txtoutLen := rfl
@[simp] theorem setRes_res : (s.setRes v).res = v := rfl
@[simp] theorem setRes_statusCode : (s.setRes v).statusCode = s.statusCode := rfl
@[simp] theorem setRes_statusDetail : (s.setRes v).statusDetail = s.statusDetail := rfl
@[simp] theorem setRes_flags : (s.setRes v).flags = s.flags := rfl
@[simp] theorem setRes_cmdImm8 : (s.setRes v).cmdImm8 = s.cmdImm8 := rfl
@[simp] theorem setRes_cmdImm16 : (s.setRes v).cmdImm16 = s.cmdImm16 := rfl
@[simp] theorem setRes_cmdOp : (s.setRes v).cmdOp = s.cmdOp := rfl
@[simp] theorem setRes_fmtLen : (s.setRes v).fmtLen = s.fmtLen := rfl
@[simp] theorem setRes_pending : (s.setRes v).pending = s.pending := rfl
@[simp] theorem setRes_returned : (s.setRes v).returned = s.returned := rfl
@[simp] theorem setRes_pbuf (k : Nat) : (s.setRes v).pbuf k = s.pbuf k := rfl
@[simp] theorem setRes_display (k : Nat) : (s.setRes v).display k = s.display k := rfl
@[simp] theorem setRes_txtin (k : Nat) : (s.setRes v).txtin k = s.txtin k := rfl
@[simp] theorem setRes_txtout (k : Nat) : (s.setRes v).txtout k = s.txtout k := rfl
@[simp] theorem setRes_fmtout (k : Nat) : (s.setRes v).fmtout k = s.fmtout k := rfl
@[simp] theorem setRes_attached : (s.setRes v).attached = s.attached := rfl
@[simp] theorem setRes_writable : (s.setRes v).writable = s.writable := rfl
end

/-! ### setFlags -/

section
variable (s : State) (v : Byte)
@[simp] theorem setFlags_mem : (s.setFlags v).mem = s.mem := rfl
@[simp] theorem setFlags_len : (s.setFlags v).len = s.len := rfl
@[simp] theorem setFlags_vstate : (s.setFlags v).vstate = s.vstate := rfl
@[simp] theorem setFlags_txtoutLen : (s.setFlags v).txtoutLen = s.txtoutLen := rfl
@[simp] theorem setFlags_res : (s.setFlags v).res = s.res := rfl
@[simp] theorem setFlags_statusCode : (s.setFlags v).statusCode = s.statusCode := rfl
@[simp] theorem setFlags_statusDetail : (s.setFlags v).statusDetail = s.statusDetail := rfl
@[simp] theorem setFlags_flags : (s.setFlags v).flags = v := rfl
@[simp] theorem setFlags_cmdImm8 : (s.setFlags v).cmdImm8 = s.cmdImm8 := rfl
@[simp] theorem setFlags_cmdImm16 : (s.setFlags v).cmdImm16 = s.cmdImm16 := rfl
@[simp] theorem setFlags_cmdOp : (s.setFlags v).cmdOp = s.cmdOp := rfl
@[simp] theorem setFlags_fmtLen : (s.setFlags v).fmtLen = s.fmtLen := rfl
@[simp] theorem setFlags_pending : (s.setFlags v).pending = s.pending := rfl
@[simp] theorem setFlags_returned : (s.setFlags v).returned = s.returned := rfl
@[simp] theorem setFlags_pbuf (k : Nat) : (s.setFlags v).pbuf k = s.pbuf k := rfl
@[simp] theorem setFlags_display (k : Nat) : (s.setFlags v).display k = s.display k := rfl
@[simp] theorem setFlags_txtin (k : Nat) : (s.setFlags v).txtin k = s.txtin k := rfl
@[simp] theorem setFlags_txtout (k : Nat) : (s.setFlags v).txtout k = s.txtout k := rfl
@[simp] theorem setFlags_fmtout (k : Nat) : (s.setFlags v).fmtout k = s.fmtout k := rfl
@[simp] theorem setFlags_attached : (s.setFlags v).attached = s.attached := rfl
@[simp] theorem setFlags_writable : (s.setFlags v).writable = s.writable := rfl
end

/-! ### setCmdImm8 -/

section
variable (s : State) (v : Byte)
@[simp] theorem setCmdImm8_mem : (s.setCmdImm8 v).mem = s.mem := rfl
@[simp] theorem setCmdImm8_len : (s.setCmdImm8 v).len = s.len := rfl
@[simp] theorem setCmdImm8_vstate : (s.setCmdImm8 v).vstate = s.vstate := rfl
@[simp] theorem setCmdImm8_txtoutLen : (s.setCmdImm8 v).txtoutLen = s.txtoutLen := rfl
@[simp] theorem setCmdImm8_res : (s.setCmdImm8 v).res = s.res := rfl
@[simp] theorem setCmdImm8_statusCode : (s.setCmdImm8 v).statusCode = s.statusCode := rfl
@[simp] theorem setCmdImm8_statusDetail : (s.setCmdImm8 v).statusDetail = s.statusDetail := rfl
@[simp] theorem setCmdImm8_flags : (s.setCmdImm8 v).flags = s.flags := rfl
@[simp] theorem setCmdImm8_cmdImm8 : (s.setCmdImm8 v).cmdImm8 = v := rfl
@[simp] theorem setCmdImm8_cmdImm16 : (s.setCmdImm8 v).cmdImm16 = s.cmdImm16 := rfl
@[simp] theorem setCmdImm8_cmdOp : (s.setCmdImm8 v).cmdOp = s.cmdOp := rfl
@[simp] theorem setCmdImm8_fmtLen : (s.setCmdImm8 v).fmtLen = s.fmtLen := rfl
@[simp] theorem setCmdImm8_pending : (s.setCmdImm8 v).pending = s.pending := rfl
@[simp] theorem setCmdImm8_returned : (s.setCmdImm8 v).returned = s.returned := rfl
@[simp] theorem setCmdImm8_pbuf (k : Nat) : (s.setCmdImm8 v).pbuf k = s.pbuf k := rfl
@[simp] theorem setCmdImm8_display (k : Nat) : (s.setCmdImm8 v).display k = s.display k := rfl
@[simp] theorem setCmdImm8_txtin (k : Nat) : (s.setCmdImm8 v).txtin k = s.txtin k := rfl
@[simp] theorem setCmdImm8_txtout (k : Nat) : (s.setCmdImm8 v).txtout k = s.txtout k := rfl
@[simp] theorem setCmdImm8_fmtout (k : Nat) : (s.setCmdImm8 v).fmtout k = s.fmtout k := rfl
@[simp] theorem setCmdImm8_attached : (s.setCmdImm8 v).attached = s.attached := rfl
@[simp] theorem setCmdImm8_writable : (s.setCmdImm8 v).writable = s.writable := rfl
end

/-! ### setCmdImm16 -/

section
variable (s : State) (v : Half)
@[simp] theorem setCmdImm16_mem : (s.setCmdImm16 v).mem = s.mem := rfl
@[simp] theorem setCmdImm16_len : (s.setCmdImm16 v).len = s.len := rfl
@[simp] theorem setCmdImm16_vstate : (s.setCmdImm16 v).vstate = s.vstate := rfl
@[simp] theorem setCmdImm16_txtoutLen : (s.setCmdImm16 v).txtoutLen = s.txtoutLen := rfl
@[simp] theorem setCmdImm16_res : (s.setCmdImm16 v).res = s.res := rfl
@[simp] theorem setCmdImm16_statusCode : (s.setCmdImm16 v).statusCode = s.statusCode := rfl
@[simp] theorem setCmdImm16_statusDetail : (s.setCmdImm16 v).statusDetail = s.statusDetail := rfl
@[simp] theorem setCmdImm16_flags : (s.setCmdImm16 v).flags = s.flags := rfl
@[simp] theorem setCmdImm16_cmdImm8 : (s.setCmdImm16 v).cmdImm8 = s.cmdImm8 := rfl
@[simp] theorem setCmdImm16_cmdImm16 : (s.setCmdImm16 v).cmdImm16 = v := rfl
@[simp] theorem setCmdImm16_cmdOp : (s.setCmdImm16 v).cmdOp = s.cmdOp := rfl
@[simp] theorem setCmdImm16_fmtLen : (s.setCmdImm16 v).fmtLen = s.fmtLen := rfl
@[simp] theorem setCmdImm16_pending : (s.setCmdImm16 v).pending = s.pending := rfl
@[simp] theorem setCmdImm16_returned : (s.setCmdImm16 v).returned = s.returned := rfl
@[simp] theorem setCmdImm16_pbuf (k : Nat) : (s.setCmdImm16 v).pbuf k = s.pbuf k := rfl
@[simp] theorem setCmdImm16_display (k : Nat) : (s.setCmdImm16 v).display k = s.display k := rfl
@[simp] theorem setCmdImm16_txtin (k : Nat) : (s.setCmdImm16 v).txtin k = s.txtin k := rfl
@[simp] theorem setCmdImm16_txtout (k : Nat) : (s.setCmdImm16 v).txtout k = s.txtout k := rfl
@[simp] theorem setCmdImm16_fmtout (k : Nat) : (s.setCmdImm16 v).fmtout k = s.fmtout k := rfl
@[simp] theorem setCmdImm16_attached : (s.setCmdImm16 v).attached = s.attached := rfl
@[simp] theorem setCmdImm16_writable : (s.setCmdImm16 v).writable = s.writable := rfl
end

/-! ### setCmdOp -/

section
variable (s : State) (v : Byte)
@[simp] theorem setCmdOp_mem : (s.setCmdOp v).mem = s.mem := rfl
@[simp] theorem setCmdOp_len : (s.setCmdOp v).len = s.len := rfl
@[simp] theorem setCmdOp_vstate : (s.setCmdOp v).vstate = s.vstate := rfl
@[simp] theorem setCmdOp_txtoutLen : (s.setCmdOp v).txtoutLen = s.txtoutLen := rfl
@[simp] theorem setCmdOp_res : (s.setCmdOp v).res = s.res := rfl
@[simp] theorem setCmdOp_statusCode : (s.setCmdOp v).statusCode = s.statusCode := rfl
@[simp] theorem setCmdOp_statusDetail : (s.setCmdOp v).statusDetail = s.statusDetail := rfl
@[simp] theorem setCmdOp_flags : (s.setCmdOp v).flags = s.flags := rfl
@[simp] theorem setCmdOp_cmdImm8 : (s.setCmdOp v).cmdImm8 = s.cmdImm8 := rfl
@[simp] theorem setCmdOp_cmdImm16 : (s.setCmdOp v).cmdImm16 = s.cmdImm16 := rfl
@[simp] theorem setCmdOp_cmdOp : (s.setCmdOp v).cmdOp = v := rfl
@[simp] theorem setCmdOp_fmtLen : (s.setCmdOp v).fmtLen = s.fmtLen := rfl
@[simp] theorem setCmdOp_pending : (s.setCmdOp v).pending = s.pending := rfl
@[simp] theorem setCmdOp_returned : (s.setCmdOp v).returned = s.returned := rfl
@[simp] theorem setCmdOp_pbuf (k : Nat) : (s.setCmdOp v).pbuf k = s.pbuf k := rfl
@[simp] theorem setCmdOp_display (k : Nat) : (s.setCmdOp v).display k = s.display k := rfl
@[simp] theorem setCmdOp_txtin (k : Nat) : (s.setCmdOp v).txtin k = s.txtin k := rfl
@[simp] theorem setCmdOp_txtout (k : Nat) : (s.setCmdOp v).txtout k = s.txtout k := rfl
@[simp] theorem setCmdOp_fmtout (k : Nat) : (s.setCmdOp v).fmtout k = s.fmtout k := rfl
@[simp] theorem setCmdOp_attached : (s.setCmdOp v).attached = s.attached := rfl
@[simp] theorem setCmdOp_writable : (s.setCmdOp v).writable = s.writable := rfl
end

/-! ### setFmtLen -/

section
variable (s : State) (v : Byte)
@[simp] theorem setFmtLen_mem : (s.setFmtLen v).mem = s.mem := rfl
@[simp] theorem setFmtLen_len : (s.setFmtLen v).len = s.len := rfl
@[simp] theorem setFmtLen_vstate : (s.setFmtLen v).vstate = s.vstate := rfl
@[simp] theorem setFmtLen_txtoutLen : (s.setFmtLen v).txtoutLen = s.txtoutLen := rfl
@[simp] theorem setFmtLen_res : (s.setFmtLen v).res = s.res := rfl
@[simp] theorem setFmtLen_statusCode : (s.setFmtLen v).statusCode = s.statusCode := rfl
@[simp] theorem setFmtLen_statusDetail : (s.setFmtLen v).statusDetail = s.statusDetail := rfl
@[simp] theorem setFmtLen_flags : (s.setFmtLen v).flags = s.flags := rfl
@[simp] theorem setFmtLen_cmdImm8 : (s.setFmtLen v).cmdImm8 = s.cmdImm8 := rfl
@[simp] theorem setFmtLen_cmdImm16 : (s.setFmtLen v).cmdImm16 = s.cmdImm16 := rfl
@[simp] theorem setFmtLen_cmdOp : (s.setFmtLen v).cmdOp = s.cmdOp := rfl
@[simp] theorem setFmtLen_fmtLen : (s.setFmtLen v).fmtLen = v := rfl
@[simp] theorem setFmtLen_pending : (s.setFmtLen v).pending = s.pending := rfl
@[simp] theorem setFmtLen_returned : (s.setFmtLen v).returned = s.returned := rfl
@[simp] theorem setFmtLen_pbuf (k : Nat) : (s.setFmtLen v).pbuf k = s.pbuf k := rfl
@[simp] theorem setFmtLen_display (k : Nat) : (s.setFmtLen v).display k = s.display k := rfl
@[simp] theorem setFmtLen_txtin (k : Nat) : (s.setFmtLen v).txtin k = s.txtin k := rfl
@[simp] theorem setFmtLen_txtout (k : Nat) : (s.setFmtLen v).txtout k = s.txtout k := rfl
@[simp] theorem setFmtLen_fmtout (k : Nat) : (s.setFmtLen v).fmtout k = s.fmtout k := rfl
@[simp] theorem setFmtLen_attached : (s.setFmtLen v).attached = s.attached := rfl
@[simp] theorem setFmtLen_writable : (s.setFmtLen v).writable = s.writable := rfl
end

/-! ### setPending -/

section
variable (s : State) (v : List HostEvent)
@[simp] theorem setPending_mem : (s.setPending v).mem = s.mem := rfl
@[simp] theorem setPending_len : (s.setPending v).len = s.len := rfl
@[simp] theorem setPending_vstate : (s.setPending v).vstate = s.vstate := rfl
@[simp] theorem setPending_txtoutLen : (s.setPending v).txtoutLen = s.txtoutLen := rfl
@[simp] theorem setPending_res : (s.setPending v).res = s.res := rfl
@[simp] theorem setPending_statusCode : (s.setPending v).statusCode = s.statusCode := rfl
@[simp] theorem setPending_statusDetail : (s.setPending v).statusDetail = s.statusDetail := rfl
@[simp] theorem setPending_flags : (s.setPending v).flags = s.flags := rfl
@[simp] theorem setPending_cmdImm8 : (s.setPending v).cmdImm8 = s.cmdImm8 := rfl
@[simp] theorem setPending_cmdImm16 : (s.setPending v).cmdImm16 = s.cmdImm16 := rfl
@[simp] theorem setPending_cmdOp : (s.setPending v).cmdOp = s.cmdOp := rfl
@[simp] theorem setPending_fmtLen : (s.setPending v).fmtLen = s.fmtLen := rfl
@[simp] theorem setPending_pending : (s.setPending v).pending = v := rfl
@[simp] theorem setPending_returned : (s.setPending v).returned = s.returned := rfl
@[simp] theorem setPending_pbuf (k : Nat) : (s.setPending v).pbuf k = s.pbuf k := rfl
@[simp] theorem setPending_display (k : Nat) : (s.setPending v).display k = s.display k := rfl
@[simp] theorem setPending_txtin (k : Nat) : (s.setPending v).txtin k = s.txtin k := rfl
@[simp] theorem setPending_txtout (k : Nat) : (s.setPending v).txtout k = s.txtout k := rfl
@[simp] theorem setPending_fmtout (k : Nat) : (s.setPending v).fmtout k = s.fmtout k := rfl
@[simp] theorem setPending_attached : (s.setPending v).attached = s.attached := rfl
@[simp] theorem setPending_writable : (s.setPending v).writable = s.writable := rfl
end

/-! ### setReturned -/

section
variable (s : State) (v : List Byte)
@[simp] theorem setReturned_mem : (s.setReturned v).mem = s.mem := rfl
@[simp] theorem setReturned_len : (s.setReturned v).len = s.len := rfl
@[simp] theorem setReturned_vstate : (s.setReturned v).vstate = s.vstate := rfl
@[simp] theorem setReturned_txtoutLen : (s.setReturned v).txtoutLen = s.txtoutLen := rfl
@[simp] theorem setReturned_res : (s.setReturned v).res = s.res := rfl
@[simp] theorem setReturned_statusCode : (s.setReturned v).statusCode = s.statusCode := rfl
@[simp] theorem setReturned_statusDetail : (s.setReturned v).statusDetail = s.statusDetail := rfl
@[simp] theorem setReturned_flags : (s.setReturned v).flags = s.flags := rfl
@[simp] theorem setReturned_cmdImm8 : (s.setReturned v).cmdImm8 = s.cmdImm8 := rfl
@[simp] theorem setReturned_cmdImm16 : (s.setReturned v).cmdImm16 = s.cmdImm16 := rfl
@[simp] theorem setReturned_cmdOp : (s.setReturned v).cmdOp = s.cmdOp := rfl
@[simp] theorem setReturned_fmtLen : (s.setReturned v).fmtLen = s.fmtLen := rfl
@[simp] theorem setReturned_pending : (s.setReturned v).pending = s.pending := rfl
@[simp] theorem setReturned_returned : (s.setReturned v).returned = v := rfl
@[simp] theorem setReturned_pbuf (k : Nat) : (s.setReturned v).pbuf k = s.pbuf k := rfl
@[simp] theorem setReturned_display (k : Nat) : (s.setReturned v).display k = s.display k := rfl
@[simp] theorem setReturned_txtin (k : Nat) : (s.setReturned v).txtin k = s.txtin k := rfl
@[simp] theorem setReturned_txtout (k : Nat) : (s.setReturned v).txtout k = s.txtout k := rfl
@[simp] theorem setReturned_fmtout (k : Nat) : (s.setReturned v).fmtout k = s.fmtout k := rfl
@[simp] theorem setReturned_attached : (s.setReturned v).attached = s.attached := rfl
@[simp] theorem setReturned_writable : (s.setReturned v).writable = s.writable := rfl
end

/-! ### setStatus -/

section
variable (s : State) (c : Byte) (d : Half)
@[simp] theorem setStatus_mem : (s.setStatus c d).mem = s.mem := rfl
@[simp] theorem setStatus_len : (s.setStatus c d).len = s.len := rfl
@[simp] theorem setStatus_vstate : (s.setStatus c d).vstate = s.vstate := rfl
@[simp] theorem setStatus_txtoutLen : (s.setStatus c d).txtoutLen = s.txtoutLen := rfl
@[simp] theorem setStatus_res : (s.setStatus c d).res = s.res := rfl
@[simp] theorem setStatus_statusCode : (s.setStatus c d).statusCode = c := rfl
@[simp] theorem setStatus_statusDetail : (s.setStatus c d).statusDetail = d := rfl
@[simp] theorem setStatus_flags : (s.setStatus c d).flags = s.flags := rfl
@[simp] theorem setStatus_cmdImm8 : (s.setStatus c d).cmdImm8 = s.cmdImm8 := rfl
@[simp] theorem setStatus_cmdImm16 : (s.setStatus c d).cmdImm16 = s.cmdImm16 := rfl
@[simp] theorem setStatus_cmdOp : (s.setStatus c d).cmdOp = s.cmdOp := rfl
@[simp] theorem setStatus_fmtLen : (s.setStatus c d).fmtLen = s.fmtLen := rfl
@[simp] theorem setStatus_pending : (s.setStatus c d).pending = s.pending := rfl
@[simp] theorem setStatus_returned : (s.setStatus c d).returned = s.returned := rfl
@[simp] theorem setStatus_pbuf (k : Nat) : (s.setStatus c d).pbuf k = s.pbuf k := rfl
@[simp] theorem setStatus_display (k : Nat) : (s.setStatus c d).display k = s.display k := rfl
@[simp] theorem setStatus_txtin (k : Nat) : (s.setStatus c d).txtin k = s.txtin k := rfl
@[simp] theorem setStatus_txtout (k : Nat) : (s.setStatus c d).txtout k = s.txtout k := rfl
@[simp] theorem setStatus_fmtout (k : Nat) : (s.setStatus c d).fmtout k = s.fmtout k := rfl
@[simp] theorem setStatus_attached : (s.setStatus c d).attached = s.attached := rfl
@[simp] theorem setStatus_writable : (s.setStatus c d).writable = s.writable := rfl
end

/-! ### raise -/

section
variable (f : Failure) (s : State)
@[simp] theorem raise_mem : (raise f s).mem = s.mem := rfl
@[simp] theorem raise_len : (raise f s).len = s.len := rfl
@[simp] theorem raise_vstate : (raise f s).vstate = s.vstate := rfl
@[simp] theorem raise_txtoutLen : (raise f s).txtoutLen = s.txtoutLen := rfl
@[simp] theorem raise_res : (raise f s).res = s.res := rfl
@[simp] theorem raise_statusCode : (raise f s).statusCode = errCode f.err := rfl
@[simp] theorem raise_statusDetail : (raise f s).statusDetail = f.detail := rfl
@[simp] theorem raise_flags : (raise f s).flags = s.flags := rfl
@[simp] theorem raise_cmdImm8 : (raise f s).cmdImm8 = s.cmdImm8 := rfl
@[simp] theorem raise_cmdImm16 : (raise f s).cmdImm16 = s.cmdImm16 := rfl
@[simp] theorem raise_cmdOp : (raise f s).cmdOp = s.cmdOp := rfl
@[simp] theorem raise_fmtLen : (raise f s).fmtLen = s.fmtLen := rfl
@[simp] theorem raise_pending : (raise f s).pending = s.pending := rfl
@[simp] theorem raise_returned : (raise f s).returned = s.returned := rfl
@[simp] theorem raise_pbuf (k : Nat) : (raise f s).pbuf k = s.pbuf k := rfl
@[simp] theorem raise_display (k : Nat) : (raise f s).display k = s.display k := rfl
@[simp] theorem raise_txtin (k : Nat) : (raise f s).txtin k = s.txtin k := rfl
@[simp] theorem raise_txtout (k : Nat) : (raise f s).txtout k = s.txtout k := rfl
@[simp] theorem raise_fmtout (k : Nat) : (raise f s).fmtout k = s.fmtout k := rfl
@[simp] theorem raise_attached : (raise f s).attached = s.attached := rfl
@[simp] theorem raise_writable : (raise f s).writable = s.writable := rfl
end

/-! ### complete -/

section
variable (d : Half) (s : State)
@[simp] theorem complete_mem : (complete d s).mem = s.mem := rfl
@[simp] theorem complete_len : (complete d s).len = s.len := rfl
@[simp] theorem complete_vstate : (complete d s).vstate = s.vstate := rfl
@[simp] theorem complete_txtoutLen : (complete d s).txtoutLen = s.txtoutLen := rfl
@[simp] theorem complete_res : (complete d s).res = s.res := rfl
@[simp] theorem complete_statusCode : (complete d s).statusCode = 0#8 := rfl
@[simp] theorem complete_statusDetail : (complete d s).statusDetail = d := rfl
@[simp] theorem complete_flags : (complete d s).flags = s.flags := rfl
@[simp] theorem complete_cmdImm8 : (complete d s).cmdImm8 = s.cmdImm8 := rfl
@[simp] theorem complete_cmdImm16 : (complete d s).cmdImm16 = s.cmdImm16 := rfl
@[simp] theorem complete_cmdOp : (complete d s).cmdOp = s.cmdOp := rfl
@[simp] theorem complete_fmtLen : (complete d s).fmtLen = s.fmtLen := rfl
@[simp] theorem complete_pending : (complete d s).pending = s.pending := rfl
@[simp] theorem complete_returned : (complete d s).returned = s.returned := rfl
@[simp] theorem complete_pbuf (k : Nat) : (complete d s).pbuf k = s.pbuf k := rfl
@[simp] theorem complete_display (k : Nat) : (complete d s).display k = s.display k := rfl
@[simp] theorem complete_txtin (k : Nat) : (complete d s).txtin k = s.txtin k := rfl
@[simp] theorem complete_txtout (k : Nat) : (complete d s).txtout k = s.txtout k := rfl
@[simp] theorem complete_fmtout (k : Nat) : (complete d s).fmtout k = s.fmtout k := rfl
@[simp] theorem complete_attached : (complete d s).attached = s.attached := rfl
@[simp] theorem complete_writable : (complete d s).writable = s.writable := rfl
end

/-! ### Writes to the register arrays change storage alone -/

section
variable (s : State) (k : Nat) (b : Byte)
@[simp] theorem setPbuf_len : (s.setPbuf k b).len = s.len := rfl
@[simp] theorem setPbuf_vstate : (s.setPbuf k b).vstate = s.vstate := rfl
@[simp] theorem setPbuf_txtoutLen : (s.setPbuf k b).txtoutLen = s.txtoutLen := rfl
@[simp] theorem setPbuf_res : (s.setPbuf k b).res = s.res := rfl
@[simp] theorem setPbuf_statusCode : (s.setPbuf k b).statusCode = s.statusCode := rfl
@[simp] theorem setPbuf_statusDetail : (s.setPbuf k b).statusDetail = s.statusDetail := rfl
@[simp] theorem setPbuf_flags : (s.setPbuf k b).flags = s.flags := rfl
@[simp] theorem setPbuf_cmdImm8 : (s.setPbuf k b).cmdImm8 = s.cmdImm8 := rfl
@[simp] theorem setPbuf_cmdImm16 : (s.setPbuf k b).cmdImm16 = s.cmdImm16 := rfl
@[simp] theorem setPbuf_cmdOp : (s.setPbuf k b).cmdOp = s.cmdOp := rfl
@[simp] theorem setPbuf_fmtLen : (s.setPbuf k b).fmtLen = s.fmtLen := rfl
@[simp] theorem setPbuf_pending : (s.setPbuf k b).pending = s.pending := rfl
@[simp] theorem setPbuf_returned : (s.setPbuf k b).returned = s.returned := rfl
@[simp] theorem setPbuf_attached : (s.setPbuf k b).attached = s.attached := rfl
@[simp] theorem setPbuf_writable : (s.setPbuf k b).writable = s.writable := rfl
end

section
variable (s : State) (j : Nat) (b : Byte)
@[simp] theorem setTxtin_len : (s.setTxtin j b).len = s.len := rfl
@[simp] theorem setTxtin_vstate : (s.setTxtin j b).vstate = s.vstate := rfl
@[simp] theorem setTxtin_txtoutLen : (s.setTxtin j b).txtoutLen = s.txtoutLen := rfl
@[simp] theorem setTxtin_res : (s.setTxtin j b).res = s.res := rfl
@[simp] theorem setTxtin_statusCode : (s.setTxtin j b).statusCode = s.statusCode := rfl
@[simp] theorem setTxtin_statusDetail : (s.setTxtin j b).statusDetail = s.statusDetail := rfl
@[simp] theorem setTxtin_flags : (s.setTxtin j b).flags = s.flags := rfl
@[simp] theorem setTxtin_cmdImm8 : (s.setTxtin j b).cmdImm8 = s.cmdImm8 := rfl
@[simp] theorem setTxtin_cmdImm16 : (s.setTxtin j b).cmdImm16 = s.cmdImm16 := rfl
@[simp] theorem setTxtin_cmdOp : (s.setTxtin j b).cmdOp = s.cmdOp := rfl
@[simp] theorem setTxtin_fmtLen : (s.setTxtin j b).fmtLen = s.fmtLen := rfl
@[simp] theorem setTxtin_pending : (s.setTxtin j b).pending = s.pending := rfl
@[simp] theorem setTxtin_returned : (s.setTxtin j b).returned = s.returned := rfl
@[simp] theorem setTxtin_attached : (s.setTxtin j b).attached = s.attached := rfl
@[simp] theorem setTxtin_writable : (s.setTxtin j b).writable = s.writable := rfl
end

section
variable (s : State) (bs : List Byte)
@[simp] theorem setDisplay_len : (s.setDisplay bs).len = s.len := rfl
@[simp] theorem setDisplay_vstate : (s.setDisplay bs).vstate = s.vstate := rfl
@[simp] theorem setDisplay_txtoutLen : (s.setDisplay bs).txtoutLen = s.txtoutLen := rfl
@[simp] theorem setDisplay_res : (s.setDisplay bs).res = s.res := rfl
@[simp] theorem setDisplay_statusCode : (s.setDisplay bs).statusCode = s.statusCode := rfl
@[simp] theorem setDisplay_statusDetail : (s.setDisplay bs).statusDetail = s.statusDetail := rfl
@[simp] theorem setDisplay_flags : (s.setDisplay bs).flags = s.flags := rfl
@[simp] theorem setDisplay_cmdImm8 : (s.setDisplay bs).cmdImm8 = s.cmdImm8 := rfl
@[simp] theorem setDisplay_cmdImm16 : (s.setDisplay bs).cmdImm16 = s.cmdImm16 := rfl
@[simp] theorem setDisplay_cmdOp : (s.setDisplay bs).cmdOp = s.cmdOp := rfl
@[simp] theorem setDisplay_fmtLen : (s.setDisplay bs).fmtLen = s.fmtLen := rfl
@[simp] theorem setDisplay_pending : (s.setDisplay bs).pending = s.pending := rfl
@[simp] theorem setDisplay_returned : (s.setDisplay bs).returned = s.returned := rfl
@[simp] theorem setDisplay_attached : (s.setDisplay bs).attached = s.attached := rfl
@[simp] theorem setDisplay_writable : (s.setDisplay bs).writable = s.writable := rfl
end

section
variable (s : State) (bs : List Byte)
@[simp] theorem setTxtout_len : (s.setTxtout bs).len = s.len := rfl
@[simp] theorem setTxtout_vstate : (s.setTxtout bs).vstate = s.vstate := rfl
@[simp] theorem setTxtout_txtoutLen : (s.setTxtout bs).txtoutLen = s.txtoutLen := rfl
@[simp] theorem setTxtout_res : (s.setTxtout bs).res = s.res := rfl
@[simp] theorem setTxtout_statusCode : (s.setTxtout bs).statusCode = s.statusCode := rfl
@[simp] theorem setTxtout_statusDetail : (s.setTxtout bs).statusDetail = s.statusDetail := rfl
@[simp] theorem setTxtout_flags : (s.setTxtout bs).flags = s.flags := rfl
@[simp] theorem setTxtout_cmdImm8 : (s.setTxtout bs).cmdImm8 = s.cmdImm8 := rfl
@[simp] theorem setTxtout_cmdImm16 : (s.setTxtout bs).cmdImm16 = s.cmdImm16 := rfl
@[simp] theorem setTxtout_cmdOp : (s.setTxtout bs).cmdOp = s.cmdOp := rfl
@[simp] theorem setTxtout_fmtLen : (s.setTxtout bs).fmtLen = s.fmtLen := rfl
@[simp] theorem setTxtout_pending : (s.setTxtout bs).pending = s.pending := rfl
@[simp] theorem setTxtout_returned : (s.setTxtout bs).returned = s.returned := rfl
@[simp] theorem setTxtout_attached : (s.setTxtout bs).attached = s.attached := rfl
@[simp] theorem setTxtout_writable : (s.setTxtout bs).writable = s.writable := rfl
end

section
variable (s : State) (bs : List Byte)
@[simp] theorem setFmtout_len : (s.setFmtout bs).len = s.len := rfl
@[simp] theorem setFmtout_vstate : (s.setFmtout bs).vstate = s.vstate := rfl
@[simp] theorem setFmtout_txtoutLen : (s.setFmtout bs).txtoutLen = s.txtoutLen := rfl
@[simp] theorem setFmtout_res : (s.setFmtout bs).res = s.res := rfl
@[simp] theorem setFmtout_statusCode : (s.setFmtout bs).statusCode = s.statusCode := rfl
@[simp] theorem setFmtout_statusDetail : (s.setFmtout bs).statusDetail = s.statusDetail := rfl
@[simp] theorem setFmtout_flags : (s.setFmtout bs).flags = s.flags := rfl
@[simp] theorem setFmtout_cmdImm8 : (s.setFmtout bs).cmdImm8 = s.cmdImm8 := rfl
@[simp] theorem setFmtout_cmdImm16 : (s.setFmtout bs).cmdImm16 = s.cmdImm16 := rfl
@[simp] theorem setFmtout_cmdOp : (s.setFmtout bs).cmdOp = s.cmdOp := rfl
@[simp] theorem setFmtout_fmtLen : (s.setFmtout bs).fmtLen = s.fmtLen := rfl
@[simp] theorem setFmtout_pending : (s.setFmtout bs).pending = s.pending := rfl
@[simp] theorem setFmtout_returned : (s.setFmtout bs).returned = s.returned := rfl
@[simp] theorem setFmtout_attached : (s.setFmtout bs).attached = s.attached := rfl
@[simp] theorem setFmtout_writable : (s.setFmtout bs).writable = s.writable := rfl
end

end Sys2Proof.Machine
end

