-- ==== Sys2Proof/Laws/Text.lean ====
section
/-! SUPPORT. The laws of the byte classes, the ascending scans, the text length and the rendering:
one specification per function, so that no later proof unfolds them. -/

namespace Sys2Proof.Machine

/-! ### Byte classes -/

theorem isText_iff {b : Byte} : isText b = true ↔ 0x20 ≤ b.toNat ∧ b.toNat ≤ 0x7F := by
  simp [isText, Config.textLo, Config.textHi, BitVec.le_def]

theorem isDisp_iff {b : Byte} : isDisp b = true ↔ (0x20 ≤ b.toNat ∧ b.toNat ≤ 0x7F) ∨ b = 0 := by
  simp [isDisp, isText_iff, Config.padNul]

/-- A text byte is a display byte (00_scope.md R11). -/
theorem isDisp_of_isText {b : Byte} (h : isText b = true) : isDisp b = true := by simp [isDisp, h]

theorem isText_space : isText Config.space = true := by decide

theorem ne_zero_of_isText {b : Byte} (h : isText b = true) : b ≠ 0 := by
  rintro rfl; revert h; decide

/-! ### The ascending scan -/

theorem firstIndex_eq_none {n : Nat} {p : Nat → Bool} :
    firstIndex n p = none ↔ ∀ k, k < n → p k = false := by
  simp [firstIndex]

theorem firstIndex_eq_some {n : Nat} {p : Nat → Bool} {k : Nat} :
    firstIndex n p = some k ↔ k < n ∧ p k = true ∧ ∀ j, j < k → p j = false := by
  simp only [firstIndex, List.find?_range_eq_some, Bool.not_eq_true', List.mem_range]
  exact ⟨fun ⟨a, b, c⟩ => ⟨b, a, c⟩, fun ⟨a, b, c⟩ => ⟨b, a, c⟩⟩

theorem firstIndex_congr {n : Nat} {p q : Nat → Bool} (h : ∀ k, k < n → p k = q k) :
    firstIndex n p = firstIndex n q := by
  cases hp : firstIndex n p with
  | none =>
    rw [firstIndex_eq_none] at hp
    exact (firstIndex_eq_none.mpr fun k hk => (h k hk).symm.trans (hp k hk)).symm
  | some k =>
    obtain ⟨hk, hpk, hlt⟩ := firstIndex_eq_some.mp hp
    exact (firstIndex_eq_some.mpr ⟨hk, (h k hk).symm.trans hpk, fun j hj =>
      (h j (by omega)).symm.trans (hlt j hj)⟩).symm

/-! ### Tables of bytes -/

@[simp] theorem length_tabulate (n : Nat) (f : Nat → Byte) : (tabulate n f).length = n := by
  simp [tabulate]

theorem getD_tabulate (n : Nat) (f : Nat → Byte) (j : Nat) (d : Byte) :
    (tabulate n f).getD j d = if j < n then f j else d := by
  by_cases h : j < n <;> simp [tabulate, List.getD, h]

theorem tabulate_congr {n : Nat} {f g : Nat → Byte} (h : ∀ k, k < n → f k = g k) :
    tabulate n f = tabulate n g := by
  simp only [tabulate]
  exact List.map_congr_left fun k hk => h k (List.mem_range.mp hk)

@[simp] theorem length_zeroFill (n : Nat) (bs : List Byte) : (zeroFill n bs).length = n := by
  simp [zeroFill]

theorem getD_zeroFill (n : Nat) (bs : List Byte) (j : Nat) :
    (zeroFill n bs).getD j 0 = if j < n then bs.getD j 0 else 0 := getD_tabulate ..

/-! ### The text length -/

/-- Trimming gives the least length whose dropped bytes are all spaces. -/
theorem trimSpaces_eq_iff {d : Nat → Byte} {m n : Nat} :
    trimSpaces d m = n ↔
      n ≤ m ∧ (∀ k, n ≤ k → k < m → d k = 0x20) ∧ (n = 0 ∨ d (n - 1) ≠ 0x20) := by
  induction m with
  | zero =>
    constructor
    · rintro rfl; exact ⟨Nat.le_refl _, fun k _ hk => absurd hk (Nat.not_lt_zero k), .inl rfl⟩
    · rintro ⟨h, -, -⟩; exact (Nat.le_zero.mp h).symm
  | succ m ih =>
    unfold trimSpaces
    by_cases hm : d m = Config.space
    · rw [if_pos hm, ih]
      constructor
      · rintro ⟨h1, h2, h3⟩
        refine ⟨by omega, fun k hk hlt => ?_, h3⟩
        by_cases e : k = m
        · subst e; exact hm
        · exact h2 k hk (by omega)
      · rintro ⟨h1, h2, h3⟩
        refine ⟨?_, fun k hk hlt => h2 k hk (by omega), h3⟩
        by_contra hn
        have e : n = m + 1 := by omega
        subst e
        rcases h3 with h3 | h3
        · omega
        · exact h3 hm
    · rw [if_neg hm]
      constructor
      · rintro rfl; exact ⟨Nat.le_refl _, fun k h1 h2 => by omega, .inr hm⟩
      · rintro ⟨h1, h2, -⟩
        by_contra hn
        exact hm (h2 m (by omega) (by omega))

/-- The first null: every earlier byte is not null, and it is null or past the region. -/
theorem firstNull_eq_iff {s : State} {m : Nat} :
    firstNull s = m ↔
      m ≤ 16 ∧ (∀ k, k < m → s.display k ≠ 0) ∧ (m = 16 ∨ s.display m = 0) := by
  unfold firstNull
  cases h : firstIndex Config.dispLen fun k => s.display k == Config.padNul with
  | none =>
    have h := firstIndex_eq_none.mp h
    simp only [Config.dispLen, Config.padNul, beq_eq_false_iff_ne] at h
    constructor
    · rintro rfl; exact ⟨Nat.le_refl _, h, .inl rfl⟩
    · rintro ⟨h1, -, rfl | h3⟩
      · rfl
      · by_contra hn
        have : (none : Option Nat).getD Config.dispLen = 16 := rfl
        exact h m (by omega) h3
  | some k =>
    obtain ⟨h1, h2, h3⟩ := firstIndex_eq_some.mp h
    simp only [Config.dispLen, Config.padNul, beq_iff_eq, beq_eq_false_iff_ne] at h1 h2 h3
    show k = m ↔ _
    constructor
    · rintro rfl; exact ⟨by omega, h3, .inr h2⟩
    · rintro ⟨g1, g2, g3⟩
      rcases Nat.lt_trichotomy k m with h | h | h
      · exact absurd h2 (g2 k h)
      · exact h
      · rcases g3 with rfl | g3
        · omega
        · exact absurd g3 (h3 m h)

theorem firstNull_le (s : State) : firstNull s ≤ 16 := (firstNull_eq_iff.mp rfl).1

theorem textLen_le_firstNull (s : State) : textLen s ≤ firstNull s := (trimSpaces_eq_iff.mp rfl).1

theorem textLen_le (s : State) : textLen s ≤ 16 := Nat.le_trans (textLen_le_firstNull s) (firstNull_le s)

theorem textLen_ne_zero_byte {s : State} {k : Nat} (h : k < textLen s) : s.display k ≠ 0 :=
  (firstNull_eq_iff.mp rfl).2.1 k (Nat.lt_of_lt_of_le h (textLen_le_firstNull s))

@[simp] theorem length_decodedText (s : State) : (decodedText s).length = textLen s := by
  simp [decodedText]

theorem getD_decodedText (s : State) (j : Nat) :
    (decodedText s).getD j 0 = if j < textLen s then s.display j else 0 := getD_tabulate ..

/-! ### The rendering -/

@[simp] theorem length_ascii (cs : List Char) : (ascii cs).length = cs.length := by simp [ascii]

theorem length_dec (b : Byte) : 1 ≤ (dec b).length ∧ (dec b).length ≤ 3 := by
  unfold dec
  dsimp only
  split
  · simp
  · split <;> simp

theorem length_boolTok (v : Bool) : (boolTok v).length = if v then 4 else 5 := by
  cases v <;> simp [boolTok]

theorem length_brTok (b : Brightness) : (brTok b).length = 1 ∨ (brTok b).length = 3 := by
  cases b <;> simp [brTok]

/-- The length of the rendering (44_format.md R170): 47 literal bytes and its variable parts. -/
theorem length_rendering (s : State) :
    (rendering s).length = 44 + (dec (packetAddress s)).length
      + (boolTok ((packetTally s).getLsbD 0)).length + (boolTok ((packetTally s).getLsbD 1)).length
      + (boolTok ((packetTally s).getLsbD 2)).length + (boolTok ((packetTally s).getLsbD 3)).length
      + (brTok (packetBrightness s)).length + textLen s := by
  simp only [rendering, tallyTok, List.length_append, length_ascii, length_decodedText,
    List.length_cons, List.length_nil]
  omega

/-- The bounds of the rendering's length (44_format.md R172). -/
theorem length_rendering_bounds (s : State) :
    62 ≤ (rendering s).length ∧ (rendering s).length ≤ 86 := by
  have h1 := length_dec (packetAddress s)
  have h2 := length_brTok (packetBrightness s)
  have h3 := textLen_le s
  have hb : ∀ v : Bool, 4 ≤ (boolTok v).length ∧ (boolTok v).length ≤ 5 := by decide
  have b0 := hb ((packetTally s).getLsbD 0)
  have b1 := hb ((packetTally s).getLsbD 1)
  have b2 := hb ((packetTally s).getLsbD 2)
  have b3 := hb ((packetTally s).getLsbD 3)
  rw [length_rendering]
  omega

end Sys2Proof.Machine
end

