-- ==== Sys2Proof/Laws/Checks.lean ====
section
/-! SUPPORT. The laws of ending a command and of the shared checks: what `raise`, `complete` and
`command` leave, and exactly when each check passes or fails. -/

namespace Sys2Proof.Machine

/-! ### Ending a command -/

theorem raise_eq (f : Failure) (s : State) :
    raise f s = { s with statusCode := errCode f.err, statusDetail := f.detail } := rfl

theorem complete_eq (d : Half) (s : State) :
    complete d s = { s with statusCode := 0, statusDetail := d } := rfl

/-- No error has the code of success. -/
theorem errCode_ne_zero (e : Err) : errCode e ≠ 0 := by cases e <;> decide

/-- The codes of 60_exceptions.md R180 are distinct. -/
theorem errCode_injective {e e' : Err} (h : errCode e = errCode e') : e = e' := by
  revert h; cases e <;> cases e' <;> decide

theorem command_none (effect : State → State) (s : State) :
    command none effect s = .next (complete 0 (effect s)) := rfl

theorem command_some (f : Failure) (effect : State → State) (s : State) :
    command (some f) effect s = .next (raise f s) := rfl

/-- Everything a command can do: raise its first failing check and nothing else, or complete. -/
theorem command_next {check : Option Failure} {effect : State → State} {s t : State}
    (h : command check effect s = .next t) :
    (∃ f, check = some f ∧ t = raise f s) ∨ (check = none ∧ t = complete 0 (effect s)) := by
  cases check with
  | none => rw [command_none] at h; injection h with h; exact .inr ⟨rfl, h.symm⟩
  | some f => rw [command_some] at h; injection h with h; exact .inl ⟨f, rfl, h.symm⟩

/-! ### View and writability -/

theorem attached_iff {s : State} : s.attached = true ↔ viewOf s.vstate ≠ 0#2 := by
  simp [State.attached, viewNone]

theorem attached_false_iff {s : State} : s.attached = false ↔ viewOf s.vstate = 0#2 := by
  simp [State.attached, viewNone]

theorem checkDetached_eq_none {s : State} : checkDetached s = none ↔ viewOf s.vstate = 0#2 := by
  rw [← attached_false_iff]; cases h : s.attached <;> simp [checkDetached, h]

theorem checkAttached_eq_none {s : State} : checkAttached s = none ↔ viewOf s.vstate ≠ 0#2 := by
  rw [← attached_iff]; cases h : s.attached <;> simp [checkAttached, h]

theorem checkDetached_of_attached {s : State} (h : viewOf s.vstate ≠ 0#2) :
    checkDetached s = some ⟨.alreadyAttached, 0⟩ := by
  simp [checkDetached, attached_iff.mpr h]

theorem checkAttached_of_detached {s : State} (h : viewOf s.vstate = 0#2) :
    checkAttached s = some ⟨.noView, 0⟩ := by
  simp [checkAttached, attached_false_iff.mpr h]

/-- The field-access check passes exactly when a view is attached, it is writable if it must be, and its
length is 18 (60_exceptions.md R182). -/
theorem fieldAccess_eq_none {needW : Bool} {s : State} :
    fieldAccess needW s = none ↔
      viewOf s.vstate ≠ 0#2 ∧ (needW = true → writableOf s.vstate = true) ∧ s.len = 18#16 := by
  rw [← attached_iff]
  unfold fieldAccess State.writable
  rw [show Config.pktLen = 18#16 from rfl]
  by_cases hl : s.len = 18#16
  · rw [if_neg (not_not.mpr hl)]
    cases s.attached <;> cases needW <;> cases writableOf s.vstate <;> simp [hl]
  · rw [if_pos hl]
    cases s.attached <;> cases needW <;> cases writableOf s.vstate <;> simp [hl]

theorem fieldAccess_noView {s : State} (needW : Bool) (h : viewOf s.vstate = 0#2) :
    fieldAccess needW s = some ⟨.noView, 0⟩ := by
  simp [fieldAccess, attached_false_iff.mpr h]

theorem fieldAccess_notWritable {s : State} (h : viewOf s.vstate ≠ 0#2)
    (hw : writableOf s.vstate = false) : fieldAccess true s = some ⟨.notWritable, 0⟩ := by
  simp [fieldAccess, attached_iff.mpr h, State.writable, hw]

theorem fieldAccess_length {needW : Bool} {s : State} (h : viewOf s.vstate ≠ 0#2)
    (hw : needW = true → writableOf s.vstate = true) (hl : s.len ≠ 18#16) :
    fieldAccess needW s = some ⟨.fieldLength, s.len⟩ := by
  cases needW <;> simp_all [fieldAccess, attached_iff.mpr h, State.writable, Config.pktLen]

/-- Every way the field-access check fails (60_exceptions.md R182). -/
theorem fieldAccess_eq_some {needW : Bool} {s : State} {f : Failure}
    (h : fieldAccess needW s = some f) :
    f = ⟨.noView, 0⟩ ∨ (needW = true ∧ f = ⟨.notWritable, 0⟩) ∨ (s.len ≠ 18#16 ∧ f = ⟨.fieldLength, s.len⟩) := by
  revert h
  unfold fieldAccess
  split
  · intro h; exact .inl (Option.some.inj h).symm
  · split
    · rename_i hw; intro h
      exact .inr (.inl ⟨by simp_all, (Option.some.inj h).symm⟩)
    · split
      · rename_i hl; intro h; exact .inr (.inr ⟨hl, (Option.some.inj h).symm⟩)
      · intro h; cases h

/-! ### Validation (40_view.md R106) -/

theorem validatePass_length {n : Half} {s : State} (h : n ≠ 18#16) :
    validatePass n s = some ⟨.lengthMismatch, n⟩ := if_pos h

theorem validatePass_marker {s : State} (h : (s.pbuf 0).getLsbD 7 = false) :
    validatePass 18#16 s = some ⟨.invalidAddressMarker, 0⟩ := by
  unfold validatePass
  rw [if_neg (by decide)]
  exact if_pos h

/-- With the right length and the marker set, the pass is the scan of the display region. -/
theorem validatePass_scan {s : State} (hm : (s.pbuf 0).getLsbD 7 = true) :
    validatePass 18#16 s =
      (firstIndex 16 fun k => !isDisp (s.display k)).map fun k =>
        ⟨.invalidDisplayByte, BitVec.ofNat 16 k⟩ := by
  unfold validatePass
  rw [if_neg (by decide), if_neg (by rw [show Config.addrOff = 0 from rfl, hm]; decide)]
  simp only [Config.dispLen]
  split <;> simp_all

theorem validatePass_display {s : State} {k : Nat} (hm : (s.pbuf 0).getLsbD 7 = true) (hk : k < 16)
    (hbad : isDisp (s.display k) = false) (hok : ∀ j, j < k → isDisp (s.display j) = true) :
    validatePass 18#16 s = some ⟨.invalidDisplayByte, BitVec.ofNat 16 k⟩ := by
  rw [validatePass_scan hm, firstIndex_eq_some.mpr ⟨hk, by simp [hbad], fun j hj => by simp [hok j hj]⟩]
  rfl

/-- The pass succeeds exactly when the length is 18, the marker is set and all sixteen display bytes are
display bytes. -/
theorem validatePass_eq_none {n : Half} {s : State} :
    validatePass n s = none ↔
      n = 18#16 ∧ (s.pbuf 0).getLsbD 7 = true ∧ ∀ k, k < 16 → isDisp (s.display k) = true := by
  by_cases hn : n = 18#16
  · subst hn
    cases hm : (s.pbuf 0).getLsbD 7
    · rw [validatePass_marker hm]; simp only [reduceCtorEq, false_and, and_false, Bool.false_eq_true]
    · rw [validatePass_scan hm, Option.map_eq_none_iff, firstIndex_eq_none]
      simp
  · rw [validatePass_length hn]; simp only [reduceCtorEq, hn, false_and]

/-- Every way the pass fails. -/
theorem validatePass_eq_some {n : Half} {s : State} {f : Failure} (h : validatePass n s = some f) :
    (n ≠ 18#16 ∧ f = ⟨.lengthMismatch, n⟩) ∨
    (n = 18#16 ∧ (s.pbuf 0).getLsbD 7 = false ∧ f = ⟨.invalidAddressMarker, 0⟩) ∨
    (n = 18#16 ∧ (s.pbuf 0).getLsbD 7 = true ∧ ∃ k, k < 16 ∧ isDisp (s.display k) = false ∧
      (∀ j, j < k → isDisp (s.display j) = true) ∧ f = ⟨.invalidDisplayByte, BitVec.ofNat 16 k⟩) := by
  by_cases hn : n = 18#16
  · subst hn
    cases hm : (s.pbuf 0).getLsbD 7
    · rw [validatePass_marker hm] at h
      exact .inr (.inl ⟨rfl, rfl, (Option.some.inj h).symm⟩)
    · rw [validatePass_scan hm, Option.map_eq_some_iff] at h
      obtain ⟨k, hf, rfl⟩ := h
      obtain ⟨hk, hb, hlt⟩ := firstIndex_eq_some.mp hf
      exact .inr (.inr ⟨rfl, rfl, k, hk, by simpa using hb, fun j hj => by simpa using hlt j hj, rfl⟩)
  · rw [validatePass_length hn] at h
    exact .inl ⟨hn, (Option.some.inj h).symm⟩

/-- The pass reads only PBUF (40_view.md R106). -/
theorem validatePass_congr {n : Half} {s s' : State} (h : ∀ k, k < 18 → s.pbuf k = s'.pbuf k) :
    validatePass n s = validatePass n s' := by
  have hd : (firstIndex Config.dispLen fun k => !isDisp (s.display k)) =
      firstIndex Config.dispLen fun k => !isDisp (s'.display k) :=
    firstIndex_congr fun k hk => by
      rw [State.display, State.display, h _ (by simp only [Config.dispLen, Config.dispOff] at *; omega)]
  unfold validatePass
  rw [hd, h _ (by decide : Config.addrOff < 18)]

/-! ### Operand checks of the mutators -/

theorem checkAddress_eq_none {v : Byte} : checkAddress v = none ↔ v.toNat ≤ 0x7E := by
  simp only [checkAddress, Config.addrSetMax, BitVec.lt_def]
  split <;> simp_all

theorem checkAddress_of_gt {v : Byte} (h : 0x7E < v.toNat) :
    checkAddress v = some ⟨.addressOutOfRange, v.setWidth 16⟩ := by
  simp [checkAddress, Config.addrSetMax, BitVec.lt_def, h]

/-- The text operand passes exactly when it is at most 16 bytes, all printable (42_mutators.md R145). -/
theorem checkText_eq_none {l : Half} {s : State} :
    checkText l s = none ↔ l.toNat ≤ 16 ∧ ∀ j, j < l.toNat → isText (s.txtin j) = true := by
  have hs : (firstIndex l.toNat fun j => !isText (s.txtin j)) = none ↔
      ∀ j, j < l.toNat → isText (s.txtin j) = true := by simp [firstIndex_eq_none]
  unfold checkText
  by_cases hl : Config.textinCap < l.toNat
  · simp only [hl, if_true]; simp only [Config.textinCap] at hl; simp; omega
  · simp only [hl, if_false]
    rw [← hs]
    simp only [Config.textinCap] at hl
    cases hf : (firstIndex l.toNat fun j => !isText (s.txtin j)) <;> simp; omega

theorem checkText_long {l : Half} {s : State} (h : 16 < l.toNat) :
    checkText l s = some ⟨.textTooLong, l⟩ := by simp [checkText, Config.textinCap, h]

theorem checkText_byte {l : Half} {s : State} {k : Nat} (hl : l.toNat ≤ 16) (hk : k < l.toNat)
    (hbad : isText (s.txtin k) = false) (hok : ∀ j, j < k → isText (s.txtin j) = true) :
    checkText l s = some ⟨.textInvalidByte, BitVec.ofNat 16 k⟩ := by
  have : (firstIndex l.toNat fun j => !isText (s.txtin j)) = some k :=
    firstIndex_eq_some.mpr ⟨hk, by simp [hbad], fun j hj => by simp [hok j hj]⟩
  simp [checkText, Config.textinCap, Nat.not_lt.mpr hl, this]

/-- Every way the text operand fails. -/
theorem checkText_eq_some {l : Half} {s : State} {f : Failure} (h : checkText l s = some f) :
    (16 < l.toNat ∧ f = ⟨.textTooLong, l⟩) ∨
    (l.toNat ≤ 16 ∧ ∃ k, k < l.toNat ∧ isText (s.txtin k) = false ∧
      (∀ j, j < k → isText (s.txtin j) = true) ∧ f = ⟨.textInvalidByte, BitVec.ofNat 16 k⟩) := by
  by_cases hl : 16 < l.toNat
  · rw [checkText_long hl] at h; exact .inl ⟨hl, (Option.some.inj h).symm⟩
  · refine .inr ⟨by omega, ?_⟩
    cases hf : (firstIndex l.toNat fun j => !isText (s.txtin j)) with
    | none => simp [checkText, Config.textinCap, hl, hf] at h
    | some k =>
      obtain ⟨hk, hb, hlt⟩ := firstIndex_eq_some.mp hf
      refine ⟨k, hk, by simpa using hb, fun j hj => by simpa using hlt j hj, ?_⟩
      simp [checkText, Config.textinCap, hl, hf] at h
      exact h.symm

end Sys2Proof.Machine
end

