-- ==== Sys2Proof/Laws/Decode.lean ====
section
/-! SUPPORT. The laws of the encoding: the fields of an assembled word, the opcode map's rows (no op
twice, every mask and match as its form says), and the well-formedness of every command. -/

namespace Sys2Proof

/-- The operand types of a command have exactly the ranges of 30_encoding.md R83. -/
theorem Instr.wellFormed_all (i : Instr) : i.wellFormed = true := by
  cases i <;> simp only [Instr.wellFormed, decide_eq_true_eq] <;> omega

@[simp] theorem opField_assembleWord (op : Byte) (i16 : Half) (i8 : Byte) :
    opField (assembleWord op i16 i8) = op := by
  apply BitVec.eq_of_getLsbD_eq
  intro k hk
  simp only [opField, assembleWord, BitVec.getLsbD_extractLsb', BitVec.getLsbD_append]
  have h1 : ¬ 24 + k < 8 := by omega
  have h2 : ¬ 24 + k - 8 < 16 := by omega
  have h3 : 24 + k - 8 - 16 = k := by omega
  simp only [hk, h1, h2, h3, decide_true, Bool.true_and, if_false]

@[simp] theorem imm16Field_assembleWord (op : Byte) (i16 : Half) (i8 : Byte) :
    imm16Field (assembleWord op i16 i8) = i16 := by
  apply BitVec.eq_of_getLsbD_eq
  intro k hk
  simp only [imm16Field, assembleWord, BitVec.getLsbD_extractLsb', BitVec.getLsbD_append]
  have h1 : ¬ 8 + k < 8 := by omega
  have h2 : 8 + k - 8 = k := by omega
  simp only [hk, h1, h2, decide_true, Bool.true_and, if_true, if_false]

@[simp] theorem imm8Field_assembleWord (op : Byte) (i16 : Half) (i8 : Byte) :
    imm8Field (assembleWord op i16 i8) = i8 := by
  apply BitVec.eq_of_getLsbD_eq
  intro k hk
  simp only [imm8Field, assembleWord, BitVec.getLsbD_extractLsb', BitVec.getLsbD_append, hk,
    Nat.zero_add, decide_true, Bool.true_and, if_true]

/-- A command word is its three fields (30_encoding.md R80). -/
theorem assembleWord_fields (cw : CommandWord) :
    assembleWord (opField cw) (imm16Field cw) (imm8Field cw) = cw := by
  apply BitVec.eq_of_getLsbD_eq
  intro k hk
  simp only [opField, imm16Field, imm8Field, assembleWord, BitVec.getLsbD_append,
    BitVec.getLsbD_extractLsb']
  by_cases h8 : k < 8
  · simp [h8]
  · by_cases h24 : k < 24
    · have e : 8 + (k - 8) = k := by omega
      have l : k - 8 < 16 := by omega
      simp [h8, l, e]
    · have l : ¬ k - 8 < 16 := by omega
      have e : 24 + (k - 8 - 16) = k := by omega
      have l' : k - 8 - 16 < 8 := by omega
      simp [h8, l, e, l']

/-- The bytes of a word, laid out little-endian and read back, are the word (20_memory.md R52). -/
theorem decodeBytes_wordBytes (cw : CommandWord) : decodeBytes (wordBytes cw) = decode cw := by
  have h : (cw.extractLsb' 16 8 ++ cw.extractLsb' 8 8 : Half) = imm16Field cw := by
    apply BitVec.eq_of_getLsbD_eq
    intro k hk
    simp only [imm16Field, BitVec.getLsbD_append, BitVec.getLsbD_extractLsb']
    by_cases h8 : k < 8
    · simp [h8, hk]
    · have e : 16 + (k - 8) = 8 + k := by omega
      have l : k - 8 < 8 := by omega
      simp [h8, hk, e, l]
  show decode (assembleWord (opField cw) (cw.extractLsb' 16 8 ++ cw.extractLsb' 8 8) (imm8Field cw)) = _
  rw [h, assembleWord_fields]

/-- No op stands in two rows (30_encoding.md R85: op values are distinct across rows). -/
theorem opcodeMap_ops_distinct : opcodeMap.Pairwise fun r r' => r.op ≠ r'.op := by
  simp only [opcodeMap, viewRows, accessorRows, mutatorRows, conversionRows]
  decide

/-- Every row's mask is its op bits and the bits its form reserves, and its match is its op alone
(30_encoding.md R82, R84). -/
theorem opcodeMap_masks (r : OpRow) (h : r ∈ opcodeMap) :
    r.mask = (0xFF000000#32 ||| reservedBits r.form) ∧ r.pattern = assembleWord r.op 0 0 := by
  simp only [opcodeMap, viewRows, accessorRows, mutatorRows, conversionRows, List.cons_append,
    List.nil_append, List.mem_cons, List.not_mem_nil, or_false] at h
  rcases h with rfl | rfl | rfl | rfl | rfl | rfl | rfl | rfl | rfl | rfl | rfl | rfl | rfl | rfl | rfl | rfl <;>
    decide

/-- How a word decodes, by the row of its op. -/
theorem decode_of_row {cw : CommandWord} {r : OpRow} (h : rowOf (opField cw) = some r) :
    decode cw = if cw &&& r.mask = r.pattern then .ok (r.build cw)
      else .error (.reservedBitSet (opField cw)) := by
  unfold decode; rw [h]

theorem decode_of_no_row {cw : CommandWord} (h : rowOf (opField cw) = none) :
    decode cw = .error (.unassignedOp (opField cw)) := by
  unfold decode; rw [h]

/-- Two assembled words are equal exactly when their fields are. -/
theorem assembleWord_inj {op op' : Byte} {a a' : Half} {b b' : Byte} :
    assembleWord op a b = assembleWord op' a' b' ↔ op = op' ∧ a = a' ∧ b = b' := by
  constructor
  · intro h
    exact ⟨by simpa using congrArg opField h, by simpa using congrArg imm16Field h,
      by simpa using congrArg imm8Field h⟩
  · rintro ⟨rfl, rfl, rfl⟩; rfl

/-- The mask test of a word, field by field. -/
theorem assembleWord_and (op op' : Byte) (a a' : Half) (b b' : Byte) :
    assembleWord op a b &&& assembleWord op' a' b' =
      assembleWord (op &&& op') (a &&& a') (b &&& b') := by
  apply BitVec.eq_of_getLsbD_eq
  intro k hk
  simp only [assembleWord, BitVec.getLsbD_and, BitVec.getLsbD_append]
  split
  · rfl
  · split <;> rfl

theorem byte_and_ones (b : Byte) : b &&& 0xFF = b := by simpa using BitVec.and_allOnes (x := b)

theorem half_and_ones (a : Half) : a &&& 0xFFFF = a := by simpa using BitVec.and_allOnes (x := a)

/-- How a word with a given op decodes, by the reserved bits of its two operand fields. -/
theorem decode_of_op {cw : CommandWord} {op : Byte} {r : OpRow} (m16 : Half) (m8 : Byte)
    (ho : opField cw = op) (hr : rowOf op = some r) (hm : r.mask = assembleWord 0xFF m16 m8)
    (hp : r.pattern = assembleWord op 0 0) :
    decode cw = if imm16Field cw &&& m16 = 0 ∧ imm8Field cw &&& m8 = 0 then .ok (r.build cw)
      else .error (.reservedBitSet op) := by
  rw [decode_of_row (r := r) (by rw [ho, hr]), ho]
  have e : (cw &&& r.mask = r.pattern) ↔ imm16Field cw &&& m16 = 0 ∧ imm8Field cw &&& m8 = 0 := by
    conv_lhs => rw [← assembleWord_fields cw]
    rw [hm, hp, assembleWord_and, assembleWord_inj, ho, byte_and_ones]
    exact ⟨fun h => h.2, fun h => ⟨rfl, h⟩⟩
  simp only [e]

/-- The low bits of an assembled word are those of its imm8 field. -/
theorem extractLow_assembleWord (op : Byte) (a : Half) (b : Byte) {n : Nat} (hn : n ≤ 8) :
    (assembleWord op a b).extractLsb' 0 n = b.extractLsb' 0 n := by
  apply BitVec.eq_of_getLsbD_eq
  intro k hk
  simp only [assembleWord, BitVec.getLsbD_extractLsb', BitVec.getLsbD_append, Nat.zero_add]
  simp [show k < 8 by omega]

/-- Bit 0 of an assembled word is that of its imm8 field. -/
theorem getLsbD_zero_assembleWord (op : Byte) (a : Half) (b : Byte) :
    (assembleWord op a b).getLsbD 0 = b.getLsbD 0 := by
  simp only [assembleWord, BitVec.getLsbD_append]; simp

end Sys2Proof
end

