-- ==== Sys2Proof/Laws/Exec.lean ====
section
/-! SUPPORT. Every command in one shape: its check and its effect, so that what a command can do is said
once (`exec_next`) and later proofs split on the command, not on the dispatch. -/

namespace Sys2Proof.Machine

/-- The check of each command, in the order of 60_exceptions.md R183. -/
def checkOf : Instr → State → Option Failure
  | .attu _ _, s => checkDetached s
  | .attc l _, s => (checkDetached s).or (validatePass l s)
  | .rel, s => checkAttached s
  | .val, s => (checkAttached s).or (validatePass s.len s)
  | .gaddr, s | .gtally, s | .gbrt, s | .gtext, s | .fmt, s => fieldAccess false s
  | .saddr v, s => (fieldAccess true s).or (checkAddress v)
  | .stally _, s | .sbrt _, s => fieldAccess true s
  | .stext l, s | .stextp l, s => (fieldAccess true s).or (checkText l s)
  | .b2a _, _ => none
  | .a2b v, _ => checkAnalog v

/-- The writes of each command before `complete(0)`. -/
def effectOf : Instr → State → State
  | .attu l w, s => (s.setLen l).setVstate (packVstate w viewUnchecked)
  | .attc l w, s => (s.setLen l).setVstate (packVstate w viewChecked)
  | .rel, s => s.setVstate 0x00
  | .val, s => s
  | .gaddr, s => s.setRes (packetAddress s)
  | .gtally, s => s.setRes ((packetTally s).setWidth 8)
  | .gbrt, s => s.setRes ((brvOf (packetBrightness s)).setWidth 8)
  | .gtext, s => (s.setTxtout (zeroFill Config.textinCap (decodedText s))).setTxtoutLen
      (BitVec.ofNat 8 (textLen s))
  | .saddr v, s => s.setPbuf Config.addrOff (v ||| 0x80)
  | .stally t, s => s.setPbuf Config.ctrlOff ((s.pbuf Config.ctrlOff &&& 0xF0) ||| t.setWidth 8)
  | .sbrt b, s => s.setPbuf Config.ctrlOff
      ((s.pbuf Config.ctrlOff &&& 0xCF) ||| ((wireEncode b).setWidth 8 <<< 4))
  | .stext l, s => s.setDisplay (stagedText l s)
  | .stextp l, s => s.setDisplay (paddedText l s)
  | .b2a b, s => s.setRes (analogEncode b)
  | .a2b v, s => match analogDecode v with
      | some b => s.setRes ((brvOf b).setWidth 8)
      | none => s
  | .fmt, s => (s.setFmtout (zeroFill Config.fmtCap (rendering s))).setFmtLen
      (BitVec.ofNat 8 (rendering s).length)

/-- Every command is its check and its effect. -/
theorem exec_eq_command (i : Instr) (s : State) : exec i s = command (checkOf i s) (effectOf i) s := by
  cases i <;> rfl

/-- A command whose check passes completes with its effect. -/
theorem exec_completes {i : Instr} {s : State} (h : checkOf i s = none) :
    exec i s = .next (complete 0 (effectOf i s)) := by
  rw [exec_eq_command, h, command_none]

/-- A command whose check fails raises that failure and does nothing else. -/
theorem exec_raises {i : Instr} {s : State} {f : Failure} (h : checkOf i s = some f) :
    exec i s = .next (raise f s) := by
  rw [exec_eq_command, h, command_some]

/-- Everything a command can do. -/
theorem exec_next {i : Instr} {s t : State} (h : exec i s = .next t) :
    (∃ f, checkOf i s = some f ∧ t = raise f s) ∨
    (checkOf i s = none ∧ t = complete 0 (effectOf i s)) :=
  command_next ((exec_eq_command i s).symm.trans h)

/-- The state a command leaves. -/
theorem exec_answers (i : Instr) (s : State) : ∃ t, exec i s = .next t := by
  cases h : checkOf i s with
  | none => exact ⟨_, exec_completes h⟩
  | some f => exact ⟨_, exec_raises h⟩

/-- A command's check looks only at LEN, VSTATE, PBUF and TXTIN. -/
theorem checkOf_congr {i : Instr} {s s' : State} (hl : s.len = s'.len) (hv : s.vstate = s'.vstate)
    (hp : ∀ k, k < 18 → s.pbuf k = s'.pbuf k) (ht : ∀ j, j < 16 → s.txtin j = s'.txtin j) :
    checkOf i s = checkOf i s' := by
  have ha : s.attached = s'.attached := by simp only [State.attached, hv]
  have hw : s.writable = s'.writable := by simp only [State.writable, hv]
  have hvp : ∀ n, validatePass n s = validatePass n s' := fun n => validatePass_congr hp
  have hct : ∀ l, checkText l s = checkText l s' := by
    intro l
    unfold checkText
    split
    · rfl
    · rename_i h
      rw [firstIndex_congr fun k hk => by rw [ht k (by simp only [Config.textinCap] at h; omega)]]
  cases i <;> simp only [checkOf, checkDetached, checkAttached, fieldAccess, ha, hw, hvp, hct, hl]

/-- VAL's check looks only at LEN, VSTATE and PBUF. -/
theorem checkOf_val_congr {s s' : State} (hl : s.len = s'.len) (hv : s.vstate = s'.vstate)
    (hp : ∀ k, k < 18 → s.pbuf k = s'.pbuf k) : checkOf .val s = checkOf .val s' := by
  have ha : s.attached = s'.attached := by simp only [State.attached, hv]
  simp only [checkOf, checkAttached, ha, validatePass_congr hp, hl]

/-! ### The register arrays under the commands' storage writes -/

theorem read_setPbuf (s : State) (k : Nat) (b : Byte) (a : Nat) :
    Memory.read (s.setPbuf k b).mem a = if a = k then b else Memory.read s.mem a := by
  simp [State.setPbuf, Memory.read_write, Config.pbufBase]

theorem read_setTxtin (s : State) (j : Nat) (b : Byte) (a : Nat) :
    Memory.read (s.setTxtin j b).mem a = if a = 0x20 + j then b else Memory.read s.mem a := by
  simp [State.setTxtin, Memory.read_write, Config.txtinBase]

theorem read_setDisplay (s : State) (bs : List Byte) (a : Nat) :
    Memory.read (s.setDisplay bs).mem a =
      if 2 ≤ a ∧ a < 2 + bs.length then bs.getD (a - 2) 0 else Memory.read s.mem a := by
  simp [State.setDisplay, Memory.read_writeBytes, Config.pbufBase, Config.dispOff]

theorem read_setTxtout (s : State) (bs : List Byte) (a : Nat) :
    Memory.read (s.setTxtout bs).mem a =
      if 0x30 ≤ a ∧ a < 0x30 + bs.length then bs.getD (a - 0x30) 0 else Memory.read s.mem a := by
  simp [State.setTxtout, Memory.read_writeBytes, Config.txtoutBase]

theorem read_setFmtout (s : State) (bs : List Byte) (a : Nat) :
    Memory.read (s.setFmtout bs).mem a =
      if 0x80 ≤ a ∧ a < 0x80 + bs.length then bs.getD (a - 0x80) 0 else Memory.read s.mem a := by
  simp [State.setFmtout, Memory.read_writeBytes, Config.fmtoutBase]

theorem pbuf_eq_read (s : State) (k : Nat) : s.pbuf k = Memory.read s.mem k := by
  simp [State.pbuf, Config.pbufBase]

theorem display_eq_read (s : State) (k : Nat) : s.display k = Memory.read s.mem (2 + k) := by
  simp [State.display, State.pbuf, Config.pbufBase, Config.dispOff]

theorem txtin_eq_read (s : State) (j : Nat) : s.txtin j = Memory.read s.mem (0x20 + j) := rfl

theorem txtout_eq_read (s : State) (j : Nat) : s.txtout j = Memory.read s.mem (0x30 + j) := rfl

theorem fmtout_eq_read (s : State) (j : Nat) : s.fmtout j = Memory.read s.mem (0x80 + j) := rfl

/-! ### Brightness (43_brightness.md) -/

theorem wireDecode_wireEncode (b : Brightness) : wireDecode (wireEncode b) = b := by cases b <;> decide

theorem wireEncode_wireDecode (c : BitVec 2) : wireEncode (wireDecode c) = c := by revert c; decide

theorem brightnessOfBrv_brvOf (b : Brightness) : brightnessOfBrv (brvOf b) = b := by cases b <;> decide

theorem brvOf_brightnessOfBrv (c : BitVec 2) : brvOf (brightnessOfBrv c) = c := by revert c; decide

theorem analogDecode_analogEncode (b : Brightness) : analogDecode (analogEncode b) = some b := by
  cases b <;> decide

theorem checkAnalog_eq_none {v : Byte} : checkAnalog v = none ↔ v ∈ [0#8, 36#8, 128#8, 255#8] := by
  revert v; decide

theorem checkAnalog_of_notMem {v : Byte} (h : v ∉ [0#8, 36#8, 128#8, 255#8]) :
    checkAnalog v = some ⟨.analogNotEncodable, v.setWidth 16⟩ := by
  cases hc : analogDecode v with
  | none => simp [checkAnalog, hc]
  | some b => exact absurd (checkAnalog_eq_none.mp (by simp [checkAnalog, hc])) h

/-! ### The control byte -/

/-- STALLY's read-modify-write: the high nibble is kept, the low nibble is the flags (42_mutators.md R142). -/
theorem tally_merge (b : Byte) (t : BitVec 4) :
    ((b &&& 0xF0) ||| t.setWidth 8 : Byte) = b.extractLsb' 4 4 ++ t := by
  apply BitVec.eq_of_getLsbD_eq
  intro k hk
  simp only [BitVec.getLsbD_append, BitVec.getLsbD_or, BitVec.getLsbD_and, BitVec.getLsbD_setWidth,
    BitVec.getLsbD_extractLsb']
  rcases (by omega : k = 0 ∨ k = 1 ∨ k = 2 ∨ k = 3 ∨ k = 4 ∨ k = 5 ∨ k = 6 ∨ k = 7)
    with rfl | rfl | rfl | rfl | rfl | rfl | rfl | rfl <;> simp

/-- SBRT's read-modify-write: bits 7:6 and 3:0 are kept, bits 5:4 are the code (42_mutators.md R144). -/
theorem brightness_merge (b : Byte) (c : BitVec 2) :
    ((b &&& 0xCF) ||| (c.setWidth 8 <<< 4) : Byte) = b.extractLsb' 6 2 ++ c ++ b.extractLsb' 0 4 := by
  apply BitVec.eq_of_getLsbD_eq
  intro k hk
  simp only [BitVec.getLsbD_append, BitVec.getLsbD_or, BitVec.getLsbD_and, BitVec.getLsbD_setWidth,
    BitVec.getLsbD_extractLsb', BitVec.getLsbD_shiftLeft]
  rcases (by omega : k = 0 ∨ k = 1 ∨ k = 2 ∨ k = 3 ∨ k = 4 ∨ k = 5 ∨ k = 6 ∨ k = 7)
    with rfl | rfl | rfl | rfl | rfl | rfl | rfl | rfl <;> simp

/-! ### What each effect stores -/

/-- The storage a command's effect leaves, for the six commands that store. -/
theorem effectOf_gtext_mem (s : State) : (effectOf .gtext s).mem =
    (s.setTxtout (zeroFill Config.textinCap (decodedText s))).mem := by
  simp only [effectOf, setTxtoutLen_mem]

theorem effectOf_fmt_mem (s : State) : (effectOf .fmt s).mem =
    (s.setFmtout (zeroFill Config.fmtCap (rendering s))).mem := by
  simp only [effectOf, setFmtLen_mem]

theorem effectOf_saddr_mem (v : Byte) (s : State) : (effectOf (.saddr v) s).mem =
    (s.setPbuf 0 (v ||| 0x80)).mem := rfl

theorem effectOf_stally_mem (t : BitVec 4) (s : State) : (effectOf (.stally t) s).mem =
    (s.setPbuf 1 ((s.pbuf 1 &&& 0xF0) ||| t.setWidth 8)).mem := rfl

theorem effectOf_sbrt_mem (b : Brightness) (s : State) : (effectOf (.sbrt b) s).mem =
    (s.setPbuf 1 ((s.pbuf 1 &&& 0xCF) ||| ((wireEncode b).setWidth 8 <<< 4))).mem := rfl

theorem effectOf_stext_mem (l : Half) (s : State) : (effectOf (.stext l) s).mem =
    (s.setDisplay (stagedText l s)).mem := rfl

theorem effectOf_stextp_mem (l : Half) (s : State) : (effectOf (.stextp l) s).mem =
    (s.setDisplay (paddedText l s)).mem := rfl

theorem effectOf_a2b (v : Byte) (s : State) :
    effectOf (.a2b v) s = s ∨ ∃ b, effectOf (.a2b v) s = s.setRes ((brvOf b).setWidth 8) := by
  show (match analogDecode v with | some b => s.setRes ((brvOf b).setWidth 8) | none => s) = s ∨ _
  cases h : analogDecode v with
  | none => exact .inl rfl
  | some b => exact .inr ⟨b, by simp only [effectOf, h]⟩

/-- The storage reads that GTEXT leaves. -/
theorem read_effectOf_gtext (s : State) (a : Nat) : Memory.read (effectOf .gtext s).mem a =
    if 0x30 ≤ a ∧ a < 0x40 then (decodedText s).getD (a - 0x30) 0 else Memory.read s.mem a := by
  rw [effectOf_gtext_mem, read_setTxtout, length_zeroFill, show 0x30 + Config.textinCap = 0x40 from rfl]
  split
  · rw [getD_zeroFill, if_pos (by simp only [Config.textinCap]; omega)]
  · rfl

/-- The storage reads that FMT leaves. -/
theorem read_effectOf_fmt (s : State) (a : Nat) : Memory.read (effectOf .fmt s).mem a =
    if 0x80 ≤ a ∧ a < 0x100 then (rendering s).getD (a - 0x80) 0 else Memory.read s.mem a := by
  rw [effectOf_fmt_mem, read_setFmtout, length_zeroFill, show 0x80 + Config.fmtCap = 0x100 from rfl]
  split
  · rw [getD_zeroFill, if_pos (by simp only [Config.fmtCap]; omega)]
  · rfl

/-- The storage reads that STEXT leaves. -/
theorem read_effectOf_stext (l : Half) (s : State) (a : Nat) :
    Memory.read (effectOf (.stext l) s).mem a =
      if 2 ≤ a ∧ a < 2 + l.toNat then s.txtin (a - 2) else Memory.read s.mem a := by
  rw [effectOf_stext_mem, read_setDisplay, stagedText, length_tabulate]
  split
  · rw [getD_tabulate, if_pos (by omega)]
  · rfl

/-- The storage reads that STEXTP leaves. -/
theorem read_effectOf_stextp (l : Half) (s : State) (a : Nat) :
    Memory.read (effectOf (.stextp l) s).mem a =
      if 2 ≤ a ∧ a < 18 then (if a - 2 < l.toNat then s.txtin (a - 2) else 0x20)
      else Memory.read s.mem a := by
  rw [effectOf_stextp_mem, read_setDisplay, paddedText, length_tabulate,
    show 2 + Config.dispLen = 18 from rfl]
  split
  · rw [getD_tabulate, if_pos (by simp only [Config.dispLen]; omega)]; rfl
  · rfl

/-- The bytes a passing command can store to: outside them, storage reads as before. -/
def storesTo : Instr → Nat → Prop
  | .gtext, a => 0x30 ≤ a ∧ a < 0x40
  | .fmt, a => 0x80 ≤ a ∧ a < 0x100
  | .saddr _, a => a = 0
  | .stally _, a | .sbrt _, a => a = 1
  | .stext _, a | .stextp _, a => 2 ≤ a ∧ a < 18
  | .attu _ _, _ | .attc _ _, _ | .rel, _ | .val, _ | .gaddr, _ | .gtally, _ | .gbrt, _ | .b2a _, _
  | .a2b _, _ => False

/-- A text setter's check bounds the length. -/
theorem length_of_textCheck {l : Half} {s : State} (h : (fieldAccess true s).or (checkText l s) = none) :
    l.toNat ≤ 16 := by
  cases hf : fieldAccess true s with
  | none => rw [hf] at h; exact (checkText_eq_none.mp h).1
  | some f => rw [hf] at h; cases h

/-- The storage frame of every command. -/
theorem read_effectOf_of_not_storesTo {i : Instr} {s : State} (hc : checkOf i s = none) {a : Nat}
    (h : ¬ storesTo i a) : Memory.read (effectOf i s).mem a = Memory.read s.mem a := by
  cases i <;> simp only [storesTo] at h
  case gtext => rw [read_effectOf_gtext, if_neg h]
  case fmt => rw [read_effectOf_fmt, if_neg h]
  case saddr v => rw [effectOf_saddr_mem, read_setPbuf, if_neg h]
  case stally t => rw [effectOf_stally_mem, read_setPbuf, if_neg h]
  case sbrt b => rw [effectOf_sbrt_mem, read_setPbuf, if_neg h]
  case stext l =>
    have := length_of_textCheck hc
    rw [read_effectOf_stext, if_neg fun hh => h ⟨hh.1, by omega⟩]
  case stextp l => rw [read_effectOf_stextp, if_neg h]
  case a2b v =>
    rcases effectOf_a2b v s with e | ⟨b, e⟩
    · rw [e]
    · rw [e, setRes_mem]
  all_goals rfl

/-! ### The registers each effect leaves alone -/

/-- The registers no command writes (10_state.md R22) are as before. -/
theorem effectOf_untouched (i : Instr) (s : State) :
    (effectOf i s).flags = s.flags ∧ (effectOf i s).cmdImm8 = s.cmdImm8 ∧
    (effectOf i s).cmdImm16 = s.cmdImm16 ∧ (effectOf i s).cmdOp = s.cmdOp ∧
    (effectOf i s).pending = s.pending ∧ (effectOf i s).returned = s.returned := by
  cases i with
  | a2b v => rcases effectOf_a2b v s with e | ⟨b, e⟩ <;> (rw [e]; exact ⟨rfl, rfl, rfl, rfl, rfl, rfl⟩)
  | _ => simp [effectOf]

/-- Only the attaching commands write LEN. -/
theorem effectOf_len {i : Instr} (s : State) (h : ∀ l w, i ≠ .attu l w ∧ i ≠ .attc l w) :
    (effectOf i s).len = s.len := by
  cases i with
  | attu l w => exact absurd rfl (h l w).1
  | attc l w => exact absurd rfl (h l w).2
  | a2b v =>
    rcases effectOf_a2b v s with e | ⟨b, e⟩
    · rw [e]
    · rw [e, setRes_len]
  | _ => simp [effectOf]

/-- Only REL and the attaching commands write VSTATE. -/
theorem effectOf_vstate {i : Instr} (s : State) (h : i ≠ .rel ∧ ∀ l w, i ≠ .attu l w ∧ i ≠ .attc l w) :
    (effectOf i s).vstate = s.vstate := by
  cases i with
  | attu l w => exact absurd rfl (h.2 l w).1
  | attc l w => exact absurd rfl (h.2 l w).2
  | rel => exact absurd rfl h.1
  | a2b v =>
    rcases effectOf_a2b v s with e | ⟨b, e⟩
    · rw [e]
    · rw [e, setRes_vstate]
  | _ => simp [effectOf]

/-- Only the scalar accessors and the conversions write RES. -/
theorem effectOf_res {i : Instr} (s : State)
    (h : i ≠ .gaddr ∧ i ≠ .gtally ∧ i ≠ .gbrt ∧ (∀ b, i ≠ .b2a b) ∧ ∀ v, i ≠ .a2b v) :
    (effectOf i s).res = s.res := by
  obtain ⟨h1, h2, h3, h4, h5⟩ := h
  cases i <;> simp_all [effectOf]

/-- Only GTEXT writes TXTOUT_LEN. -/
theorem effectOf_txtoutLen {i : Instr} (s : State) (h : i ≠ .gtext) :
    (effectOf i s).txtoutLen = s.txtoutLen := by
  cases i with
  | gtext => exact absurd rfl h
  | a2b v =>
    rcases effectOf_a2b v s with e | ⟨b, e⟩
    · rw [e]
    · rw [e, setRes_txtoutLen]
  | _ => simp [effectOf]

/-- Only FMT writes FMT_LEN. -/
theorem effectOf_fmtLen {i : Instr} (s : State) (h : i ≠ .fmt) :
    (effectOf i s).fmtLen = s.fmtLen := by
  cases i with
  | fmt => exact absurd rfl h
  | a2b v =>
    rcases effectOf_a2b v s with e | ⟨b, e⟩
    · rw [e]
    · rw [e, setRes_fmtLen]
  | _ => simp [effectOf]

end Sys2Proof.Machine
end

