-- ==== Sys2Proof/Laws/PerInstr.lean ====
section
/-! SUPPORT. Statements made of every command as syntax, one lemma per constructor. -/

namespace Sys2Proof.Laws

/-- The command has a row of the opcode map under its op; its word carries that op and sets no bit the
row's form reserves; and its operands are in range (30_encoding.md R82, R83, R84). -/
def EncodesLegally.Statement (i : Instr) : Prop :=
  i.wellFormed = true ∧ opField (encode i) = opcode i ∧
    ∃ r, rowOf (opcode i) = some r ∧ encode i &&& r.mask = r.pattern

/-- A command encodes legally when its row's mask is its op bits and the reserved bits of its two
operand fields, and its operand fields are clear there. -/
theorem EncodesLegally.of_row {i : Instr} {r : OpRow} (op : Byte) (m16 : Half) (m8 : Byte)
    (h : rowOf (opcode i) = some r) (hop : opcode i = op) (hm : r.mask = assembleWord 0xFF m16 m8)
    (hp : r.pattern = assembleWord op 0 0) (h16 : encodeImm16 i &&& m16 = 0)
    (h8 : encodeImm8 i &&& m8 = 0) : EncodesLegally.Statement i := by
  refine ⟨i.wellFormed_all, opField_assembleWord .., r, h, ?_⟩
  rw [hm, encode, assembleWord_and, h16, h8, hop, hp, byte_and_ones]

theorem ofBool_and_reserved (w : Bool) : (0#7 ++ BitVec.ofBool w : BitVec 8) &&& 0xFE = 0 := by
  cases w <;> decide

theorem tally_and_reserved (t : BitVec 4) : (0#4 ++ t : BitVec 8) &&& 0xF0 = 0 := by
  revert t; decide

theorem brv_and_reserved (b : Brightness) : (0#6 ++ brvOf b : BitVec 8) &&& 0xFC = 0 := by
  cases b <;> decide

theorem zero_and_half : (0 : Half) &&& 0xFFFF = 0 := by decide

theorem zero_and_byte : (0 : Byte) &&& 0xFF = 0 := by decide

theorem half_and_zero (l : Half) : l &&& 0x0000 = 0 := by simp

theorem byte_and_zero (v : Byte) : v &&& 0x00 = 0 := by simp

theorem EncodesLegally.attu (l : Half) (w : Bool) : EncodesLegally.Statement (.attu l w) :=
  EncodesLegally.of_row 0x01 0x0000 0xFE rfl rfl (by decide) (by decide) (half_and_zero l) (ofBool_and_reserved w)

theorem EncodesLegally.attc (l : Half) (w : Bool) : EncodesLegally.Statement (.attc l w) :=
  EncodesLegally.of_row 0x02 0x0000 0xFE rfl rfl (by decide) (by decide) (half_and_zero l) (ofBool_and_reserved w)

theorem EncodesLegally.rel : EncodesLegally.Statement .rel :=
  EncodesLegally.of_row 0x03 0xFFFF 0xFF rfl rfl (by decide) (by decide) zero_and_half zero_and_byte

theorem EncodesLegally.val : EncodesLegally.Statement .val :=
  EncodesLegally.of_row 0x04 0xFFFF 0xFF rfl rfl (by decide) (by decide) zero_and_half zero_and_byte

theorem EncodesLegally.gaddr : EncodesLegally.Statement .gaddr :=
  EncodesLegally.of_row 0x10 0xFFFF 0xFF rfl rfl (by decide) (by decide) zero_and_half zero_and_byte

theorem EncodesLegally.gtally : EncodesLegally.Statement .gtally :=
  EncodesLegally.of_row 0x11 0xFFFF 0xFF rfl rfl (by decide) (by decide) zero_and_half zero_and_byte

theorem EncodesLegally.gbrt : EncodesLegally.Statement .gbrt :=
  EncodesLegally.of_row 0x12 0xFFFF 0xFF rfl rfl (by decide) (by decide) zero_and_half zero_and_byte

theorem EncodesLegally.gtext : EncodesLegally.Statement .gtext :=
  EncodesLegally.of_row 0x13 0xFFFF 0xFF rfl rfl (by decide) (by decide) zero_and_half zero_and_byte

theorem EncodesLegally.saddr (v : Byte) : EncodesLegally.Statement (.saddr v) :=
  EncodesLegally.of_row 0x20 0xFFFF 0x00 rfl rfl (by decide) (by decide) zero_and_half (byte_and_zero v)

theorem EncodesLegally.stally (t : BitVec 4) : EncodesLegally.Statement (.stally t) :=
  EncodesLegally.of_row 0x21 0xFFFF 0xF0 rfl rfl (by decide) (by decide) zero_and_half (tally_and_reserved t)

theorem EncodesLegally.sbrt (b : Brightness) : EncodesLegally.Statement (.sbrt b) :=
  EncodesLegally.of_row 0x22 0xFFFF 0xFC rfl rfl (by decide) (by decide) zero_and_half (brv_and_reserved b)

theorem EncodesLegally.stext (l : Half) : EncodesLegally.Statement (.stext l) :=
  EncodesLegally.of_row 0x23 0x0000 0xFF rfl rfl (by decide) (by decide) (half_and_zero l) zero_and_byte

theorem EncodesLegally.stextp (l : Half) : EncodesLegally.Statement (.stextp l) :=
  EncodesLegally.of_row 0x24 0x0000 0xFF rfl rfl (by decide) (by decide) (half_and_zero l) zero_and_byte

theorem EncodesLegally.b2a (b : Brightness) : EncodesLegally.Statement (.b2a b) :=
  EncodesLegally.of_row 0x30 0xFFFF 0xFC rfl rfl (by decide) (by decide) zero_and_half (brv_and_reserved b)

theorem EncodesLegally.a2b (v : Byte) : EncodesLegally.Statement (.a2b v) :=
  EncodesLegally.of_row 0x31 0xFFFF 0x00 rfl rfl (by decide) (by decide) zero_and_half (byte_and_zero v)

theorem EncodesLegally.fmt : EncodesLegally.Statement .fmt :=
  EncodesLegally.of_row 0x40 0xFFFF 0xFF rfl rfl (by decide) (by decide) zero_and_half zero_and_byte

end Sys2Proof.Laws
end

