-- ==== Sys2Proof/Laws/Step.lean ====
section
/-! SUPPORT. Everything a step can do, said once: wait, store, issue a command, read, or reset. -/

namespace Sys2Proof.Machine

/-- Running the command word the registers hold: a command, or the report of an illegal word. -/
theorem executeWord_next {s t : State} (h : executeWord s = .next t) :
    (∃ i, decode s.commandWord = .ok i ∧ exec i s = .next t) ∨
    (∃ e, decode s.commandWord = .error e ∧ t = execIllegal s) := by
  unfold executeWord at h
  split at h
  · rename_i i hd; exact .inl ⟨i, hd, h⟩
  · rename_i e hd; injection h with h; exact .inr ⟨e, hd, h.symm⟩

theorem executeWord_of_ok {s : State} {i : Instr} (h : decode s.commandWord = .ok i) :
    executeWord s = exec i s := by unfold executeWord; rw [h]

theorem executeWord_of_error {s : State} {e : DecodeError} (h : decode s.commandWord = .error e) :
    executeWord s = .next (execIllegal s) := by unfold executeWord; rw [h]

@[simp] theorem opField_commandWord (s : State) : opField s.commandWord = s.cmdOp := by
  simp [State.commandWord]

theorem execIllegal_eq (s : State) :
    execIllegal s = { s with statusCode := 0x10, statusDetail := s.cmdOp.setWidth 16 } := by
  unfold execIllegal; rw [raise_eq, opField_commandWord]; rfl

/-- Address 0x43 is the only one that names CMD_OP (20_memory.md R55). -/
theorem hostReg_cmdOp {addr : Byte} : hostReg addr = .cmdOp ↔ addr = 0x43 := by
  revert addr; decide

theorem hostWrite_of_ne {addr v : Byte} {s : State} (h : addr ≠ 0x43) :
    hostWrite addr v s = .next (hostStore addr v s) := if_neg fun e => h (hostReg_cmdOp.mp e)

theorem hostWrite_cmdOp (v : Byte) (s : State) : hostWrite 0x43 v s = executeWord (s.setCmdOp v) :=
  if_pos (hostReg_cmdOp.mpr rfl)

theorem step_idle {s : State} (h : s.pending = []) : step s = .next s := by
  unfold step runNext; rw [h]

theorem step_event {s : State} {e : HostEvent} {es : List HostEvent} (h : s.pending = e :: es) :
    step s = runEvent e (s.setPending es) := by
  unfold step runNext; rw [h]

/-- A step whose event is a write to an address other than CMD_OP stores the byte. -/
theorem step_write {s : State} {addr v : Byte} {es : List HostEvent}
    (h : s.pending = .write addr v :: es) (ha : addr ≠ 0x43) :
    step s = .next (hostStore addr v (s.setPending es)) := by
  rw [step_event h]; exact hostWrite_of_ne ha

/-- A step whose event is a write to CMD_OP issues the command. -/
theorem step_issue {s : State} {v : Byte} {es : List HostEvent} (h : s.pending = .write 0x43 v :: es) :
    step s = executeWord ((s.setPending es).setCmdOp v) := by
  rw [step_event h]; exact hostWrite_cmdOp v _

/-- The word a write of `v` to CMD_OP issues (30_encoding.md R81). -/
theorem commandWord_issue (s : State) (es : List HostEvent) (v : Byte) :
    ((s.setPending es).setCmdOp v).commandWord = assembleWord v s.cmdImm16 s.cmdImm8 := rfl

/-- Everything a step can do. -/
theorem step_next {s t : State} (h : step s = .next t) :
    (s.pending = [] ∧ t = s) ∨
    (∃ addr v es, s.pending = .write addr v :: es ∧ addr ≠ 0x43 ∧
      t = hostStore addr v (s.setPending es)) ∨
    (∃ v es i, s.pending = .write 0x43 v :: es ∧
      decode ((s.setPending es).setCmdOp v).commandWord = .ok i ∧
      exec i ((s.setPending es).setCmdOp v) = .next t) ∨
    (∃ v es e, s.pending = .write 0x43 v :: es ∧
      decode ((s.setPending es).setCmdOp v).commandWord = .error e ∧
      t = execIllegal ((s.setPending es).setCmdOp v)) ∨
    (∃ addr es, s.pending = .read addr :: es ∧ t = hostReadEvent addr (s.setPending es)) ∨
    (∃ es, s.pending = .reset :: es ∧ t = resetEvent (s.setPending es)) := by
  cases hp : s.pending with
  | nil =>
    rw [step_idle hp] at h; injection h with h; exact .inl ⟨rfl, h.symm⟩
  | cons e es =>
    rw [step_event hp] at h
    cases e with
    | write addr v =>
      by_cases ha : addr = 0x43
      · subst ha
        rcases executeWord_next (by rw [← h]; exact (hostWrite_cmdOp v _).symm) with ⟨i, hd, he⟩ | ⟨e, hd, ht⟩
        · exact .inr (.inr (.inl ⟨v, es, i, rfl, hd, he⟩))
        · exact .inr (.inr (.inr (.inl ⟨v, es, e, rfl, hd, ht⟩)))
      · have := (hostWrite_of_ne ha).symm.trans h
        injection this with this
        exact .inr (.inl ⟨addr, v, es, rfl, ha, this.symm⟩)
    | read addr =>
      injection h with h
      exact .inr (.inr (.inr (.inr (.inl ⟨addr, es, rfl, h.symm⟩))))
    | reset =>
      injection h with h
      exact .inr (.inr (.inr (.inr (.inr ⟨es, rfl, h.symm⟩))))

/-- What each kind of register says of the address that names it (20_memory.md R55). -/
def addressOk (addr : Byte) : HostReg → Bool
  | .pbuf k => decide (k < 18) && addr.toNat == k
  | .txtin j => decide (j < 16) && addr.toNat == 0x20 + j
  | .txtout j => decide (j < 16) && addr.toNat == 0x30 + j
  | .cmdImm8 => addr == 0x40
  | .cmdImm16Low => addr == 0x41
  | .cmdImm16High => addr == 0x42
  | .cmdOp => addr == 0x43
  | .statusCode => addr == 0x44
  | .statusDetailLow => addr == 0x45
  | .statusDetailHigh => addr == 0x46
  | .flags => addr == 0x47
  | .res => addr == 0x48
  | .txtoutLen => addr == 0x49
  | .vstate => addr == 0x4A
  | .lenLow => addr == 0x4C
  | .lenHigh => addr == 0x4D
  | .fmtLen => addr == 0x4E
  | .fmtout j => decide (j < 128) && addr.toNat == 0x80 + j
  | .reserved => (decide (0x12 ≤ addr) && decide (addr ≤ 0x1F)) || addr == 0x4B
      || (decide (0x4F ≤ addr) && decide (addr ≤ 0x7F))

/-- The map of 20_memory.md R55, read backwards: all 256 addresses. -/
theorem hostReg_addressOk (addr : Byte) : addressOk addr (hostReg addr) = true := by
  revert addr; decide

/-- Everything a host store can change. -/
theorem hostStore_cases (addr v : Byte) (s : State) :
    (∃ k, k < 18 ∧ addr.toNat = k ∧ hostStore addr v s = hostWritePbuf k v s) ∨
    (∃ j, j < 16 ∧ addr.toNat = 0x20 + j ∧ hostStore addr v s = s.setTxtin j v) ∨
    (addr = 0x40 ∧ hostStore addr v s = s.setCmdImm8 v) ∨
    (addr = 0x41 ∧ hostStore addr v s = s.setCmdImm16 (highByte s.cmdImm16 ++ v)) ∨
    (addr = 0x42 ∧ hostStore addr v s = s.setCmdImm16 (v ++ lowByte s.cmdImm16)) ∨
    (addr = 0x43 ∧ hostStore addr v s = s.setCmdOp v) ∨
    (addr = 0x47 ∧ hostStore addr v s = s.setFlags (writeFlags v s.flags)) ∨
    hostStore addr v s = s := by
  have h := hostReg_addressOk addr
  unfold hostStore
  cases hr : hostReg addr <;> rw [hr] at h <;> simp_all [addressOk]

end Sys2Proof.Machine
end

