-- ==== Sys2Proof/Tests/Slice0.lean ====
section
/-! SUPPORT. Tests: the words of every command written out from 30_encoding.md; ill-formed terms for every
check of WellFormed.lean; one or two single-step tests per command, with the expected results of
95_test_vectors.md; and for every statement with hypotheses a witness that meets them. -/

namespace Sys2Proof.Tests

open Sys2Proof.Machine

/-! ## Words, bit by bit from 30_encoding.md R82 and R84: op, imm16, imm8 -/

theorem test_word_attu : decode 0b00000001_0000000000010010_00000001 = .ok (.attu 18 true) := by decide
theorem test_word_attc : decode 0b00000010_0000000100000000_00000000 = .ok (.attc 256 false) := by decide
theorem test_word_rel : decode 0b00000011_0000000000000000_00000000 = .ok .rel := by decide
theorem test_word_val : decode 0b00000100_0000000000000000_00000000 = .ok .val := by decide
theorem test_word_gaddr : decode 0b00010000_0000000000000000_00000000 = .ok .gaddr := by decide
theorem test_word_gtally : decode 0b00010001_0000000000000000_00000000 = .ok .gtally := by decide
theorem test_word_gbrt : decode 0b00010010_0000000000000000_00000000 = .ok .gbrt := by decide
theorem test_word_gtext : decode 0b00010011_0000000000000000_00000000 = .ok .gtext := by decide
theorem test_word_saddr : decode 0b00100000_0000000000000000_00001101 = .ok (.saddr 13) := by decide
theorem test_word_stally : decode 0b00100001_0000000000000000_00000110 = .ok (.stally 0b0110) := by decide
theorem test_word_sbrt : decode 0b00100010_0000000000000000_00000011 = .ok (.sbrt .full) := by decide
theorem test_word_stext : decode 0b00100011_0000000000000101_00000000 = .ok (.stext 5) := by decide
theorem test_word_stextp : decode 0b00100100_1111111111111111_00000000 = .ok (.stextp 0xFFFF) := by decide
theorem test_word_b2a : decode 0b00110000_0000000000000000_00000001 = .ok (.b2a .oneSeventh) := by decide
theorem test_word_a2b : decode 0b00110001_0000000000000000_10000000 = .ok (.a2b 128) := by decide
theorem test_word_fmt : decode 0b01000000_0000000000000000_00000000 = .ok .fmt := by decide

/-- The encoder writes the words of 95_test_vectors.md, section 2. -/
theorem test_encode_words :
    encode (.attu 65535 true) = 0x01FFFF01 ∧ encode (.attc 17 true) = 0x02001101 ∧
    encode (.saddr 0x7F) = 0x2000007F ∧ encode (.stally 0xF) = 0x2100000F ∧
    encode (.sbrt .oneHalf) = 0x22000002 ∧ encode (.stextp 16) = 0x24001000 ∧
    encode (.a2b 200) = 0x310000C8 ∧ encode .fmt = 0x40000000 := by decide

/-- Illegal words, with their reason (95_test_vectors.md 2.1). -/
theorem test_illegal_words :
    decode 0x00000000 = .error (.unassignedOp 0x00) ∧ decode 0xFF000000 = .error (.unassignedOp 0xFF) ∧
    decode 0x05000000 = .error (.unassignedOp 0x05) ∧
    decode 0x01001202 = .error (.reservedBitSet 0x01) ∧ decode 0x03000001 = .error (.reservedBitSet 0x03) ∧
    decode 0x10000001 = .error (.reservedBitSet 0x10) ∧ decode 0x20010005 = .error (.reservedBitSet 0x20) ∧
    decode 0x21000010 = .error (.reservedBitSet 0x21) ∧ decode 0x22000004 = .error (.reservedBitSet 0x22) ∧
    decode 0x23000501 = .error (.reservedBitSet 0x23) ∧ decode 0x30000004 = .error (.reservedBitSet 0x30) ∧
    decode 0x31010000 = .error (.reservedBitSet 0x31) ∧
    decode 0x40000100 = .error (.reservedBitSet 0x40) := by decide

/-- A sequence that is not four bytes long is no command (30_encoding.md R80). -/
theorem test_short_sequence : decodeBytes [0x00, 0x00, 0x03] = .error .notFourBytes := by decide

/-- The decoder behind the opcode table's numbering: ATTU 18, 1, and a row longer than a command. -/
theorem test_decodeTableWord : decodeTableWord 32 0x01001201 = some (.attu 18 true) ∧
    decodeTableWord 32 0x00000000 = none ∧ decodeTableWord 40 0x03000000 = none := by decide

/-! ## Well-formedness: each check refuses a term -/

theorem test_wf_hw : (HostLine.hw 256 0).wellFormed = false ∧ (HostLine.hw 0 256).wellFormed = false ∧
    (HostLine.hw 255 255).wellFormed = true := by decide
theorem test_wf_hr : (HostLine.hr 256).wellFormed = false ∧ (HostLine.hr 255).wellFormed = true := by decide
theorem test_wf_hrExpect : (HostLine.hrExpect 256 0).wellFormed = false ∧
    (HostLine.hrExpect 0 256).wellFormed = false := by decide
theorem test_wf_attu : (HostLine.attu 65536 0).wellFormed = false ∧
    (HostLine.attu 0 2).wellFormed = false ∧ (HostLine.attu 65535 1).wellFormed = true := by decide
theorem test_wf_attc : (HostLine.attc 65536 0).wellFormed = false ∧
    (HostLine.attc 0 2).wellFormed = false := by decide
theorem test_wf_saddr : (HostLine.saddr 256).wellFormed = false ∧
    (HostLine.saddr 255).wellFormed = true := by decide
theorem test_wf_stally : (HostLine.stally 16).wellFormed = false ∧
    (HostLine.stallyChannels [1, 5]).wellFormed = false ∧
    (HostLine.stallyChannels [0]).wellFormed = false := by decide
theorem test_wf_sbrt : (HostLine.sbrt 4).wellFormed = false := by decide
theorem test_wf_stext : (HostLine.stext 65536).wellFormed = false ∧
    (HostLine.stextp 65536).wellFormed = false := by decide
theorem test_wf_conversions : (HostLine.b2a 4).wellFormed = false ∧
    (HostLine.a2b 256).wellFormed = false := by decide
theorem test_wf_cmd : (HostLine.cmd 256 0 0).wellFormed = false ∧
    (HostLine.cmd 0 65536 0).wellFormed = false ∧ (HostLine.cmd 0 0 256).wellFormed = false := by decide
theorem test_wf_ldbuf : (HostLine.ldbuf []).wellFormed = false ∧
    (HostLine.ldbuf (List.replicate 19 0)).wellFormed = false ∧
    (HostLine.ldbuf [256]).wellFormed = false ∧
    (HostLine.ldbuf (List.replicate 18 255)).wellFormed = true := by decide
theorem test_wf_ldtxt : (HostLine.ldtxt (List.replicate 17 0x41)).wellFormed = false ∧
    (HostLine.ldtxt [256]).wellFormed = false := by decide

/-- A raw word with a bit its form reserves is not legal, one for each form (30_encoding.md R82). -/
theorem test_wf_words : legalWord 0x04000100 = false ∧ legalWord 0x02001280 = false ∧
    legalWord 0x31000100 = false ∧ legalWord 0x21000080 = false ∧ legalWord 0x30000004 = false ∧
    legalWord 0x24000001 = false := by decide

/-! ## Small states -/

/-- The first scenario buffer of 95_test_vectors.md. -/
def VB : List Byte := [0xE9, 0x19, 0x68, 0x65, 0x6C, 0x6C, 0x6F] ++ List.replicate 11 0x20

/-- A reset machine with bytes in PBUF. -/
def buffer (bs : List Byte) : State := { State.reset with mem := Memory.writeBytes [] 0 bs }

/-- The same with a view: LEN and VSTATE. -/
def view (bs : List Byte) (len : Half) (vstate : Byte) : State :=
  { buffer bs with len := len, vstate := vstate }

/-- The same with text staged in TXTIN. -/
def staged (text : List Byte) (s : State) : State :=
  { s with mem := Memory.writeBytes s.mem 0x20 text }

/-- A writable unchecked view over a zeroed buffer, after `ATTU 18, 1` from reset (40_view.md R100). -/
def building : State := { State.reset with len := 18, vstate := 0x05 }

/-- What a test looks at: the code, the detail and one more value of the next state. -/
def see {α : Type} (i : Instr) (s : State) (f : State → α) : Option (Byte × Half × α) :=
  (nextState (exec i s)).map fun t => (t.statusCode, t.statusDetail, f t)

/-- The display region of a state. -/
def region (s : State) : List Byte := (List.range 16).map s.display

/-- TXTOUT of a state. -/
def textOut (s : State) : List Byte := (List.range 16).map s.txtout

/-- The first bytes of FMTOUT, and the byte after them. -/
def formatted (n : Nat) (s : State) : List Byte := (List.range (n + 1)).map s.fmtout

/-! ## One step of each command (95_test_vectors.md 2.2 to 2.6) -/

theorem test_attu : see (.attu 65535 true) State.reset (fun t => (t.vstate, t.len)) =
    some (0x00, 0x0000, 0x05, 0xFFFF) := by decide
theorem test_attu_again : see (.attu 18 true) (view [] 7 0x05) (fun t => (t.vstate, t.len)) =
    some (0x12, 0x0000, 0x05, 7) := by decide
theorem test_attc : see (.attc 18 false) (buffer VB) (fun t => (t.vstate, t.len)) =
    some (0x00, 0x0000, 0x02, 18) := by decide
theorem test_attc_scans_past_null :
    see (.attc 18 false) (buffer ([0xE9, 0x19, 0x68, 0x65, 0x00, 0x0A] ++ List.replicate 12 0x20))
      (fun t => (t.vstate, t.len)) = some (0x03, 0x0003, 0x00, 0) := by decide
theorem test_rel : see .rel (view VB 18 0x06) (fun t => (t.vstate, t.len, t.pbuf 0)) =
    some (0x00, 0x0000, 0x00, 18, 0xE9) := by decide
theorem test_rel_no_view : see .rel (buffer VB) (fun t => t.vstate) = some (0x11, 0x0000, 0x00) := by decide
theorem test_val : see .val (view VB 18 0x01) (fun t => t.vstate) = some (0x00, 0x0000, 0x01) := by decide
theorem test_val_no_marker : see .val building (fun t => t.vstate) = some (0x02, 0x0000, 0x05) := by decide
theorem test_gaddr : see .gaddr (view [0xFF] 18 0x01) (fun t => t.res) = some (0x00, 0x0000, 0x7F) := by
  decide
theorem test_gtally : see .gtally (view [0x80, 0xCA] 18 0x01) (fun t => t.res) =
    some (0x00, 0x0000, 0x0A) := by decide
theorem test_gtally_length : see .gtally (view [0x80, 0xCA] 17 0x01) (fun t => t.res) =
    some (0x14, 0x0011, 0x00) := by decide
theorem test_gbrt : see .gbrt (view [0x80, 0x20] 18 0x02) (fun t => t.res) = some (0x00, 0x0000, 0x02) := by
  decide
theorem test_gtext : see .gtext
    (view ([0x80, 0, 0x68, 0x69, 0x20, 0x20, 0x00, 0x78] ++ List.replicate 10 0) 18 0x01)
      (fun t => (t.txtoutLen, textOut t)) =
    some (0x00, 0x0000, 2, [0x68, 0x69] ++ List.replicate 14 0) := by decide
theorem test_gtext_keeps_tab : see .gtext
    (view ([0x80, 0, 0x61, 0x62, 0x09] ++ List.replicate 13 0x20) 18 0x01) (fun t => t.txtoutLen) =
    some (0x00, 0x0000, 3) := by decide
theorem test_saddr : see (.saddr 5) (view [0xFF] 18 0x05) (fun t => t.pbuf 0) =
    some (0x00, 0x0000, 0x85) := by decide
theorem test_saddr_range : see (.saddr 0x7F) (view [0x8D] 18 0x05) (fun t => t.pbuf 0) =
    some (0x04, 0x007F, 0x8D) := by decide
theorem test_stally : see (.stally 0xF) (view [0, 0xC0] 18 0x05) (fun t => t.pbuf 1) =
    some (0x00, 0x0000, 0xCF) := by decide
theorem test_stally_read_only : see (.stally 1) (view [0, 0xC0] 17 0x01) (fun t => t.pbuf 1) =
    some (0x13, 0x0000, 0xC0) := by decide
theorem test_sbrt : see (.sbrt .oneHalf) (view [0, 0xC5] 18 0x05) (fun t => t.pbuf 1) =
    some (0x00, 0x0000, 0xE5) := by decide
theorem test_sbrt_zero : see (.sbrt .zero) (view [0, 0xFF] 18 0x06) (fun t => t.pbuf 1) =
    some (0x00, 0x0000, 0xCF) := by decide
theorem test_stext : see (.stext 2)
    (staged [0x68, 0x69] (view [0, 0, 0x68, 0x65, 0x6C, 0x6C, 0x6F] 18 0x05)) region =
    some (0x00, 0x0000, [0x68, 0x69, 0x6C, 0x6C, 0x6F] ++ List.replicate 11 0) := by decide
theorem test_stext_first_offender : see (.stext 5) (staged [0x68, 0x00, 0x6C, 0x6C, 0x80] building) region =
    some (0x06, 0x0001, List.replicate 16 0) := by decide
theorem test_stextp : see (.stextp 2)
    (staged [0x68, 0x69] (view [0, 0, 0x68, 0x65, 0x6C, 0x6C, 0x6F] 18 0x05)) region =
    some (0x00, 0x0000, [0x68, 0x69] ++ List.replicate 14 0x20) := by decide
theorem test_stextp_long : see (.stextp 0xFFFF) (staged [0x1F] building) region =
    some (0x05, 0xFFFF, List.replicate 16 0) := by decide
theorem test_b2a : see (.b2a .oneSeventh) State.reset (fun t => t.res) = some (0x00, 0x0000, 0x24) := by decide
theorem test_a2b : see (.a2b 255) State.reset (fun t => t.res) = some (0x00, 0x0000, 0x03) := by decide
theorem test_a2b_inexact : see (.a2b 200) State.reset (fun t => t.res) = some (0x07, 0x00C8, 0x00) := by
  decide
theorem test_fmt : see .fmt (view VB 18 0x02) (fun t => (t.fmtLen, formatted 73 t)) =
    some (0x00, 0x0000, 73,
      [0x61, 0x64, 0x64, 0x72, 0x3D, 0x31, 0x30, 0x35, 0x2C, 0x20, 0x31, 0x3D, 0x74, 0x72, 0x75, 0x65]
      ++ [0x2C, 0x20, 0x32, 0x3D, 0x66, 0x61, 0x6C, 0x73, 0x65, 0x2C, 0x20, 0x33, 0x3D, 0x66, 0x61, 0x6C]
      ++ [0x73, 0x65, 0x2C, 0x20, 0x34, 0x3D, 0x74, 0x72, 0x75, 0x65, 0x2C, 0x20, 0x62, 0x72, 0x69, 0x67]
      ++ [0x68, 0x74, 0x6E, 0x65, 0x73, 0x73, 0x3D, 0x31, 0x2F, 0x37, 0x2C, 0x20, 0x64, 0x69, 0x73, 0x70]
      ++ [0x6C, 0x61, 0x79, 0x3D, 0x68, 0x65, 0x6C, 0x6C, 0x6F, 0x00]) := by decide +kernel
theorem test_fmt_shortest : see .fmt (view [0x80, 0x0F] 18 0x01) (fun t => t.fmtLen) =
    some (0x00, 0x0000, 62) := by decide +kernel

/-! ## The host port and reset (95_test_vectors.md 2.1, 2.7, 2.8) -/

/-- A state whose next host event is the given one. -/
def next (e : HostEvent) (s : State) : State := { s with pending := [e] }

theorem test_pbuf_write : (nextState (step (next (.write 0x00 0x80) State.reset))).map
    (fun t => (t.pbuf 0, t.flags)) = some (0x80, 0x00) := by decide
theorem test_pbuf_write_under_view : (nextState (step (next (.write 0x00 0x12) (view VB 18 0x02)))).map
    (fun t => (t.pbuf 0, t.flags)) = some (0xE9, 0x01) := by decide
theorem test_flags_clear : (nextState (step (next (.write 0x47 0x01) ({ State.reset with flags := 1 })))).map
    (fun t => t.flags) = some 0x00 := by decide
theorem test_flags_keep : (nextState (step (next (.write 0x47 0xFE) ({ State.reset with flags := 1 })))).map
    (fun t => t.flags) = some 0x01 := by decide
theorem test_len_read : hostRead { State.reset with len := 0x1234 } 0x4C = 0x34 ∧
    hostRead { State.reset with len := 0x1234 } 0x4D = 0x12 := by decide
theorem test_res_read_only : (nextState (step (next (.write 0x48 0x55) ({ State.reset with res := 0x69 })))).map
    (fun t => t.res) = some 0x69 := by decide
theorem test_reserved_read : hostRead (view VB 18 0x02) 0x12 = 0 ∧ hostRead (view VB 18 0x02) 0x4B = 0 ∧
    hostRead (view VB 18 0x02) 0x7F = 0 := by decide
theorem test_read_event : (nextState (step (next (.read 0x05) (view VB 18 0x02)))).map
    (fun t => (t.returned, t.flags)) = some ([0x6C], 0x00) := by decide
theorem test_illegal_command : (nextState (step (next (.write 0x43 0x00) State.reset))).map
    (fun t => (t.statusCode, t.statusDetail)) = some (0x10, 0x0000) := by decide
theorem test_persistent_operands :
    (nextState (step (next (.write 0x43 0x20) ({ building with cmdImm8 := 0x7F })))).map
      (fun t => (t.statusCode, t.statusDetail, t.cmdOp)) = some (0x04, 0x007F, 0x20) := by decide
theorem test_reset : nextState (step (next .reset ({ view VB 18 0x06 with flags := 1, cmdOp := 3 }))) =
    some State.reset := by decide
theorem test_withFetchWord : (nextState (step (State.reset.withFetchWord 32 0x01001201))).map
    (fun t => (t.vstate, t.len, t.statusCode, t.cmdOp)) = some (0x05, 18, 0x00, 0x01) := by decide
theorem test_reset_memory : Memory.wf State.reset.mem = true := by decide
theorem test_canonical : Memory.write (Memory.write (Memory.write [] 5 7) 2 9) 5 0 = [(2, 9)] := by decide
theorem test_expand : expand (.stally 6) = [.write 0x40 6, .write 0x41 0, .write 0x42 0, .write 0x43 0x21] ∧
    expand (.stallyChannels [1, 4]) = expand (.stally 9) ∧ expand (.stallyChannels []) = expand (.stally 0) ∧
    expand (.attc 0x0111 1) = [.write 0x40 1, .write 0x41 0x11, .write 0x42 1, .write 0x43 2] ∧
    expand (.ldtxt [0x68, 0x69]) = [.write 0x20 0x68, .write 0x21 0x69] ∧
    expand .rdstat = [.read 0x44, .read 0x45, .read 0x46] := by decide

/-! ## Witnesses: states and operands that meet the hypotheses of each statement -/

/-- CmdOpWriteIssuesDecodedWord: a word that decodes, one that does not, and writes to 0x40, 0x41, 0x42. -/
theorem witness_CmdOpWriteIssuesDecodedWord :
    (next (.write 0x43 0x01) { State.reset with cmdImm8 := 1, cmdImm16 := 18 }).pending =
      .write 0x43 0x01 :: [] ∧
    decode (assembleWord 0x01 18 1) = .ok (.attu 18 true) ∧
    (next (.write 0x43 0x00) State.reset).pending = .write 0x43 0x00 :: [] ∧
    decode (assembleWord 0x00 0 0) = .error (.unassignedOp 0) ∧
    (next (.write 0x40 0xFF) State.reset).pending = .write 0x40 0xFF :: [] ∧
    (next (.write 0x41 0xFF) State.reset).pending = .write 0x41 0xFF :: [] ∧
    (next (.write 0x42 0xFF) State.reset).pending = .write 0x42 0xFF :: [] := by decide

/-- EncodeInvertsDecode: words at both ends of an operand decode. -/
theorem witness_EncodeInvertsDecode : decode 0x0100_0000 = .ok (.attu 0 false) ∧
    decode 0x01FF_FF01 = .ok (.attu 65535 true) := by decide

/-- IllegalWordsOnlyReport: an unassigned op, and a reserved bit at each end of a form's field. -/
theorem witness_IllegalWordsOnlyReport :
    decode 0x3FFFFFFF = .error (.unassignedOp 0x3F) ∧ decode 0x40000001 = .error (.reservedBitSet 0x40) ∧
    decode 0x40800000 = .error (.reservedBitSet 0x40) ∧
    ({ State.reset with cmdOp := 0x40, cmdImm8 := 1 } : State).commandWord = 0x40000001 := by decide

/-- PseudoInstructionIssuesItsCommand: the four writes stand first in the queue. -/
theorem witness_PseudoInstructionIssuesItsCommand :
    ({ State.reset with pending := expand (lineOf (.attu 65535 true)) ++ [.reset] } : State).pending =
      expand (lineOf (.attu 65535 true)) ++ [.reset] := by decide

/-- AttuAttachesUncheckedView: a legal and an illegal word, a view attached and none. -/
theorem witness_AttuAttachesUncheckedView :
    (opField 0x01FFFF01 = 0x01 ∧ (imm8Field 0x01FFFF01).extractLsb' 1 7 = 0) ∧
    (opField 0x01000080 = 0x01 ∧ (imm8Field 0x01000080).extractLsb' 1 7 ≠ 0) ∧
    viewOf (view VB 18 0x02).vstate ≠ 0#2 ∧ viewOf (buffer VB).vstate = 0#2 := by decide

/-- AttcAttachesOnlyValidPackets and ValReportsTheFirstViolation, their words and their view clauses. -/
theorem witness_AttcAndVal_words :
    (opField 0x02001201 = 0x02 ∧ (imm8Field 0x02001201).extractLsb' 1 7 = 0) ∧
    (opField 0x02001202 = 0x02 ∧ (imm8Field 0x02001202).extractLsb' 1 7 ≠ 0) ∧
    opField 0x04000000 = 0x04 ∧ (opField 0x04000001 = 0x04 ∧ (0x04000001 : CommandWord) ≠ 0x04000000) ∧
    viewOf (view VB 18 0x01).vstate ≠ 0#2 ∧ viewOf (buffer VB).vstate = 0#2 := by decide

/-- A valid packet, with and without a view. -/
theorem witness_valid : ValidBytes (buffer VB) ∧ ValidBytes (view VB 18 0x01) := by
  unfold ValidBytes DispByte TextByte; decide

/-- A wrong length, and a clear marker. -/
theorem witness_length_and_marker : (17 : Half) ≠ 18 ∧ (view VB 0 0x01).len ≠ 18 ∧
    (view [0x7F] 18 0x01).len = 18 ∧ ((view [0x7F] 18 0x01).pbuf 0).getLsbD 7 = false := by decide

/-- The first bad display byte at the first and at the last offset, under a set marker. -/
theorem witness_firstBad_display :
    (FirstBad DispByte (fun j => (view [0x80, 0, 0x1F] 18 0x01).pbuf (2 + j)) 0 ∧
      ((view [0x80, 0, 0x1F] 18 0x01).pbuf 0).getLsbD 7 = true) ∧
    (FirstBad DispByte (fun j => (view ([0x80] ++ List.replicate 16 0x7F ++ [0x80]) 18 0x01).pbuf (2 + j)) 15 ∧
      ((view ([0x80] ++ List.replicate 16 0x7F ++ [0x80]) 18 0x01).pbuf 0).getLsbD 7 = true) := by
  unfold FirstBad DispByte TextByte; decide

/-- RelReleasesTheView. -/
theorem witness_RelReleasesTheView :
    opField 0x03000000 = 0x03 ∧ (opField 0x03800000 = 0x03 ∧ (0x03800000 : CommandWord) ≠ 0x03000000) ∧
    viewOf State.reset.vstate = 0#2 ∧ viewOf (view VB 18 0x06).vstate ≠ 0#2 := by decide

/-- WithoutViewOnlyFourCommandsSucceed: no view, a command that needs one, and one that succeeds. -/
theorem witness_WithoutViewOnlyFourCommandsSucceed :
    viewOf State.reset.vstate = 0#2 ∧ runsWithoutView .gaddr = false ∧
    see (.b2a .full) State.reset (fun t => t.res) = some (0x00, 0x0000, 0xFF) := by decide

/-- ValidationIsIdempotent: VAL, commands of `readsOnly` between, and VAL again; and VAL, a host write to
TXTIN and a refused mutator between, and VAL again, on a packet that fails at its first display byte. -/
theorem witness_ValidationIsIdempotent :
    see .val (view [0x80, 0, 0x1F] 18 0x01) (fun t => (t.len, t.vstate)) = some (0x03, 0x0000, 18, 0x01) ∧
    (nextState (exec (.saddr 1) (staged [0x41] (view [0x80, 0, 0x1F] 18 0x01)))).map
      (fun u => (u.len, u.vstate, (List.range 18).map u.pbuf)) =
      some (18, 0x01, (List.range 18).map (view [0x80, 0, 0x1F] 18 0x01).pbuf) ∧
    (nextState (execAll [.saddr 1, .val] (staged [0x41] (view [0x80, 0, 0x1F] 18 0x01)))).map
      (fun v => (v.statusCode, v.statusDetail)) = some (0x03, 0x0000) ∧
    (∀ i ∈ [Instr.gaddr, Instr.b2a .full], readsOnly i = true) ∧
    (nextState (exec .val (view VB 18 0x01))).isSome = true ∧
    (nextState (execAll [.val, .gaddr, .b2a .full, .val] (view VB 18 0x01))).isSome = true := by decide

/-- The accessors' and FMT's words. -/
theorem witness_accessor_words :
    (opField 0x10000000 = 0x10 ∧ opField 0x10000001 = 0x10 ∧ (0x10000001 : CommandWord) ≠ 0x10000000) ∧
    (opField 0x11000000 = 0x11 ∧ opField 0x11000100 = 0x11 ∧ (0x11000100 : CommandWord) ≠ 0x11000000) ∧
    (opField 0x12000000 = 0x12 ∧ opField 0x12800000 = 0x12 ∧ (0x12800000 : CommandWord) ≠ 0x12000000) ∧
    (opField 0x13000000 = 0x13 ∧ opField 0x13000080 = 0x13 ∧ (0x13000080 : CommandWord) ≠ 0x13000000) ∧
    (opField 0x40000000 = 0x40 ∧ opField 0x40000001 = 0x40 ∧ (0x40000001 : CommandWord) ≠ 0x40000000) := by
  decide

/-- The mutators' and conversions' words, legal and illegal. -/
theorem witness_mutator_words :
    (opField 0x200000FF = 0x20 ∧ imm16Field 0x200000FF = 0 ∧ imm16Field 0x20000100 ≠ 0) ∧
    (opField 0x2100000F = 0x21 ∧ imm16Field 0x2100000F = 0 ∧ (imm8Field 0x2100000F).extractLsb' 4 4 = 0 ∧
      (imm8Field 0x21000010).extractLsb' 4 4 ≠ 0) ∧
    (opField 0x22000003 = 0x22 ∧ imm16Field 0x22000003 = 0 ∧ (imm8Field 0x22000003).extractLsb' 2 6 = 0 ∧
      (imm8Field 0x22000004).extractLsb' 2 6 ≠ 0) ∧
    (opField 0x23FFFF00 = 0x23 ∧ imm8Field 0x23FFFF00 = 0 ∧ imm8Field 0x23000001 ≠ 0) ∧
    (opField 0x24FFFF00 = 0x24 ∧ imm8Field 0x24FFFF00 = 0 ∧ imm8Field 0x24000080 ≠ 0) ∧
    (opField 0x30000003 = 0x30 ∧ imm16Field 0x30000003 = 0 ∧ (imm8Field 0x30000003).extractLsb' 2 6 = 0 ∧
      (imm8Field 0x30000080).extractLsb' 2 6 ≠ 0) ∧
    (opField 0x310000FF = 0x31 ∧ imm16Field 0x310000FF = 0 ∧ imm16Field 0x31000100 ≠ 0) := by decide

/-- The field-access clauses of every accessor, mutator and FMT: no view, no W bit, a wrong length at both
ends, and ready for reading and for writing. -/
theorem witness_field_access :
    viewOf State.reset.vstate = 0#2 ∧
    (viewOf (view VB 17 0x01).vstate ≠ 0#2 ∧ writableOf (view VB 17 0x01).vstate = false) ∧
    (viewOf (view VB 0 0x05).vstate ≠ 0#2 ∧ writableOf (view VB 0 0x05).vstate = true ∧
      (view VB 0 0x05).len ≠ 18 ∧ (view VB 19 0x05).len ≠ 18) ∧
    FieldReady false (view VB 18 0x02) ∧ FieldReady true (view VB 18 0x06) ∧ FieldReady true building := by
  unfold FieldReady; decide

/-- GTEXT and FMT: a text of 16 bytes, and none. -/
theorem witness_decodedLength :
    DecodedLength (view ([0x80, 0] ++ List.replicate 16 0x41) 18 0x01) 16 ∧ DecodedLength building 0 := by
  refine ⟨⟨16, ?_, ?_⟩, ⟨0, ?_, ?_⟩⟩
  · unfold FirstNullAt; decide
  · unfold TrimmedTo; decide
  · unfold FirstNullAt; decide
  · unfold TrimmedTo; decide

/-- CheckedTextIsPrintable and CheckedViewStaysValid: a checked view with a text. -/
theorem witness_checked : viewOf (view VB 18 0x02).vstate = 2#2 ∧ CheckedOk (view VB 18 0x02) ∧
    see .gtext (view VB 18 0x02) (fun t => t.txtoutLen) = some (0x00, 0x0000, 5) := by
  unfold CheckedOk ValidBytes DispByte TextByte; decide

/-- SaddrOverwritesTheAddressByte: the ends of both ranges. -/
theorem witness_SaddrOverwritesTheAddressByte : FieldReady true building ∧
    (0x7E < (0x7F : Byte).toNat ∧ 0x7E < (0xFF : Byte).toNat) ∧
    ((0x7E : Byte).toNat ≤ 0x7E ∧ (0x00 : Byte).toNat ≤ 0x7E) := by
  unfold FieldReady; decide

/-- A staged text of 16 bytes, both ends of the printable range in it. -/
def sixteen : List Byte := 0x20 :: List.replicate 14 0x41 ++ [0x7F]

/-- StextCopiesOnlyTheText and StextpPadsTheRegion: texts of 0, 5 and 16 bytes, a length of 17, and a bad
byte at the first and at the last offset. -/
theorem witness_texts :
    (FieldReady true (staged sixteen building) ∧ GoodText 16 (staged sixteen building) ∧
      GoodText 0 (staged sixteen building) ∧ GoodText 5 (staged sixteen building)) ∧
    16 < (17 : Half).toNat ∧ 16 < (0xFFFF : Half).toNat ∧
    FirstBad TextByte (staged [0x00] building).txtin 0 ∧
    FirstBad TextByte (staged (List.replicate 15 0x41 ++ [0x80]) building).txtin 15 := by
  unfold FieldReady GoodText FirstBad TextByte; decide

/-- StextLeavesAStaleTail: "hi" over "hello". -/
theorem witness_StextLeavesAStaleTail :
    FieldReady true (staged [0x68, 0x69] (view VB 18 0x05)) ∧
    GoodText 2 (staged [0x68, 0x69] (view VB 18 0x05)) ∧ (2 : Half).toNat < 16 ∧
    ¬ CleanFrom (2 : Half).toNat (staged [0x68, 0x69] (view VB 18 0x05)) := by
  refine ⟨by unfold FieldReady; decide, by unfold GoodText TextByte; decide, by decide, ?_⟩
  rintro ⟨m, h1, h2, h3, h4⟩
  by_cases hm : m = 2
  · subst hm; revert h4; decide
  · have h5 : 2 ≤ m := h1
    exact absurd (h3 2 (by decide) (by omega)) (by decide)

/-- MutatorsOfDifferentFieldsCommute: STALLY and SBRT, which write the same byte. -/
theorem witness_MutatorsOfDifferentFieldsCommute :
    Memory.wf (view VB 18 0x06).mem = true ∧
    fieldSet (.stally 5) = some .tally ∧ fieldSet (.sbrt .full) = some .brightness ∧
    PacketField.tally ≠ PacketField.brightness ∧
    see (.stally 5) (view VB 18 0x06) (fun t => t.pbuf 1) = some (0x00, 0x0000, 0x15) ∧
    see (.sbrt .full) (view VB 18 0x06) (fun t => t.pbuf 1) = some (0x00, 0x0000, 0x39) := by decide

/-- SettersThenAccessorsRoundTrip: STEXTP over old text, STEXT over a zeroed region, an order that is not
the listed one, and the ends of the address and text ranges. -/
theorem witness_SettersThenAccessorsRoundTrip :
    FieldReady true (staged sixteen building) ∧ (0x7E : Byte).toNat ≤ 0x7E ∧
    GoodText 16 (staged sixteen building) ∧
    CleanFrom (16 : Half).toNat (staged sixteen building) ∧ CleanFrom (0 : Half).toNat building ∧
    [Instr.stextp 16, .sbrt .full, .stally 0xF, .saddr 0x7E].Perm
      [.saddr 0x7E, .stally 0xF, .sbrt .full, .stextp 16] := by
  refine ⟨by unfold FieldReady; decide, by decide, by unfold GoodText TextByte; decide,
    ⟨16, by decide, by decide, by decide, .inl rfl⟩, ⟨0, by decide, by decide, by decide, .inr (by decide)⟩,
    by decide⟩

/-- BuiltPacketValidates: a zeroed buffer with no view and a staged text. -/
theorem witness_BuiltPacketValidates : viewOf (staged sixteen State.reset).vstate = 0#2 ∧
    (∀ k, k < 16 → DispByte ((staged sixteen State.reset).pbuf (2 + k))) ∧
    (0x00 : Byte).toNat ≤ 0x7E ∧ GoodText 16 (staged sixteen State.reset) := by
  unfold DispByte GoodText TextByte; decide

/-- A2bAcceptsOnlyExactValues: values beside the exact ones, and a state after B2A. -/
theorem witness_A2bAcceptsOnlyExactValues :
    (1 : Byte).toNat ∉ [0, 36, 128, 255] ∧ (35 : Byte).toNat ∉ [0, 36, 128, 255] ∧
    (254 : Byte).toNat ∉ [0, 36, 128, 255] ∧
    see (.b2a .oneHalf) State.reset (fun t => t.res) = some (0x00, 0x0000, 0x80) := by decide

/-- ControlByteFieldsHaveOneWriter: commands other than SBRT and than STALLY that answer next. -/
theorem witness_ControlByteFieldsHaveOneWriter :
    see (.stally 5) (view VB 18 0x06) (fun t => t.pbuf 1) = some (0x00, 0x0000, 0x15) ∧
    (∀ b, Instr.stally 5 ≠ .sbrt b) ∧
    see (.sbrt .full) (view VB 18 0x06) (fun t => t.pbuf 1) = some (0x00, 0x0000, 0x39) ∧
    (∀ f, Instr.sbrt .full ≠ .stally f) := by
  refine ⟨by decide, by simp, by decide, by simp⟩

/-- FmtLengthIsBounded: an FMT that completes. -/
theorem witness_FmtLengthIsBounded : see .fmt (view VB 18 0x02) (fun t => t.fmtLen) =
    some (0x00, 0x0000, 73) := by decide +kernel

/-- StatusFollowsTheTable and IllegalWordsOnlyReport: a state that holds an illegal word, and what it does. -/
theorem witness_StatusFollowsTheTable :
    decode ({ State.reset with cmdOp := 0xFF } : State).commandWord = .error (.unassignedOp 0xFF) ∧
    (nextState (executeWord { State.reset with cmdOp := 0xFF })).map
      (fun t => (t.statusCode, t.statusDetail)) = some (0x10, 0x00FF) := by decide

/-- FieldAccessGuardsFieldCommands: a reading and a writing field command that answer next. -/
theorem witness_FieldAccessGuardsFieldCommands :
    (fieldNeeds .gaddr = some false ∧ see .gaddr State.reset (fun t => t.res) = some (0x11, 0x0000, 0)) ∧
    (fieldNeeds (.stally 0) = some true ∧
      see (.stally 0) building (fun t => t.pbuf 1) = some (0x00, 0x0000, 0)) := by decide

/-- ErrorsChangeOnlyTheStatus, RegistersHaveOnlyTheirWriters: a command that reports an error. -/
theorem witness_ErrorsChangeOnlyTheStatus :
    nextState (exec .gaddr State.reset) = some { State.reset with statusCode := 0x11 } := by decide

/-- RegistersHaveOnlyTheirWriters: each register's writer changes it on some state. -/
theorem witness_RegistersHaveOnlyTheirWriters :
    see (.attu 18 true) State.reset (fun t => (t.len, t.vstate)) = some (0x00, 0x0000, 18, 0x05) ∧
    see (.saddr 1) building (fun t => t.pbuf 0) = some (0x00, 0x0000, 0x81) ∧
    see (.stally 1) building (fun t => t.pbuf 1) = some (0x00, 0x0000, 0x01) ∧
    see (.stextp 0) building (fun t => t.pbuf 17) = some (0x00, 0x0000, 0x20) ∧
    see .gtext (view VB 18 0x02) (fun t => (t.txtoutLen, t.txtout 0)) = some (0x00, 0x0000, 5, 0x68) ∧
    see .gaddr (view VB 18 0x02) (fun t => t.res) = some (0x00, 0x0000, 0x69) := by decide

/-- ViewStateStaysLegal: a legal VSTATE and a step. -/
theorem witness_ViewStateStaysLegal : VstateOk (next .reset (view VB 18 0x06)) ∧
    (nextState (step (next .reset (view VB 18 0x06)))).isSome = true := by
  unfold VstateOk; decide

/-- OutcomesIgnoreResultRegisters: two states that differ in RES, FLAGS and the status only. -/
theorem witness_OutcomesIgnoreResultRegisters :
    (view VB 18 0x02).len = ({ view VB 18 0x02 with res := 1, flags := 1, statusCode := 7 } : State).len ∧
    (∀ k, k < 18 → (view VB 18 0x02).pbuf k =
      ({ view VB 18 0x02 with res := 1, flags := 1, statusCode := 7 } : State).pbuf k) ∧
    (nextState (exec .gbrt (view VB 18 0x02))).isSome = true ∧
    (nextState (exec .gbrt { view VB 18 0x02 with res := 1, flags := 1, statusCode := 7 })).isSome = true := by
  decide

/-- StepKeepsTheInvariant: a state that is not the reset state has the invariant, and steps. -/
theorem witness_StepKeepsTheInvariant :
    State.Inv (next (.write 0x43 0x20) { view VB 18 0x06 with cmdImm8 := 5 }) ∧
    (nextState (step (next (.write 0x43 0x20) { view VB 18 0x06 with cmdImm8 := 5 }))).map
      (fun t => t.pbuf 0) = some 0x85 := by
  refine ⟨⟨?_, ?_, ?_, ?_, ?_, ?_, ?_⟩, by decide⟩
  · unfold StorageOk InArrays; decide
  · unfold VstateOk; decide
  · unfold CheckedOk ValidBytes DispByte TextByte; decide
  · unfold FlagsOk; decide
  · unfold TxtoutOk; decide
  · unfold FmtoutOk; decide
  · unfold StatusLegal; decide

/-- ReservedAndReadOnlyIgnoreWrites: the ends of each range of addresses. -/
theorem witness_ReservedAndReadOnlyIgnoreWrites :
    (next (.write 0x12 1) building).pending = .write 0x12 1 :: [] ∧
    (0x12 ≤ (0x12 : Byte).toNat ∧ (0x1F : Byte).toNat ≤ 0x1F) ∧
    (0x30 ≤ (0x30 : Byte).toNat ∧ (0x3F : Byte).toNat ≤ 0x3F) ∧
    (0x44 ≤ (0x44 : Byte).toNat ∧ (0x46 : Byte).toNat ≤ 0x46) ∧
    (0x48 ≤ (0x48 : Byte).toNat ∧ (0xFF : Byte).toNat ≤ 0xFF) ∧
    (0x4F ≤ (0x4F : Byte).toNat ∧ (0x7F : Byte).toNat ≤ 0x7F) ∧
    (nextState (step (next (.write 0x47 0xFF) building))).isSome = true := by decide

/-- ViewGuardsThePacketBuffer and HostAccessSideEffects: the first and the last PBUF byte, with and without
a view; a read; FLAGS writes of both kinds; a CMD_OP write; and an address that is not CMD_OP. -/
theorem witness_host_accesses :
    ((next (.write 0x00 7) (buffer VB)).pending = .write (BitVec.ofNat 8 0) 7 :: [] ∧
      viewOf (next (.write 0x00 7) (buffer VB)).vstate = 0#2) ∧
    ((next (.write 0x11 7) (view VB 18 0x01)).pending = .write (BitVec.ofNat 8 17) 7 :: [] ∧
      viewOf (next (.write 0x11 7) (view VB 18 0x01)).vstate ≠ 0#2) ∧
    (next (.read 0x11) building).pending = .read 0x11 :: [] ∧
    ((0x01 : Byte).getLsbD 0 = true ∧ (0xFE : Byte).getLsbD 0 = false) ∧
    (next (.write 0x47 0x01) building).pending = .write 0x47 0x01 :: [] ∧
    (next (.write 0x43 0x03) building).pending = .write 0x43 0x03 :: [] ∧ (0x42 : Byte) ≠ 0x43 := by decide

/-- StagedByteReadsBack: a write and a read of TXTIN[15]. -/
theorem witness_StagedByteReadsBack :
    ({ building with pending := [.write 0x2F 0x41, .read 0x2F] } : State).pending =
      .write (BitVec.ofNat 8 (0x20 + 15)) 0x41 :: .read (BitVec.ofNat 8 (0x20 + 15)) :: [] := by decide

/-- LdbufLoadsThePacketBuffer: one byte, and eighteen. -/
theorem witness_LdbufLoadsThePacketBuffer : (HostLine.ldbuf [255]).wellFormed = true ∧
    (HostLine.ldbuf (List.replicate 18 0x41)).wellFormed = true ∧ viewOf State.reset.vstate = 0#2 ∧
    ({ State.reset with pending := expand (.ldbuf [255]) ++ [] } : State).pending =
      expand (.ldbuf [255]) ++ [] := by decide

/-- ResetClearsEveryRegister and WaitsForTheHost. -/
theorem witness_reset_and_wait : (next .reset building).pending = .reset :: [] ∧
    State.reset.pending = [] := by decide

end Sys2Proof.Tests
end

/-! # Statements about the registers (10_state.md)

What a command leaves of each register and byte; the invariants of a run, as predicates that every host
event keeps; non-interference of the result registers. -/

namespace Sys2Proof.Machine

/-! ## What a command leaves alone -/

/-- A part of the state that is no status and that the command's effect leaves alone is left alone by the
command, whether it reports or completes (60_exceptions.md R184). -/
theorem exec_keeps {α : Type} (part : State → α) {i : Instr} {s t : State}
    (hstatus : ∀ u c d, part (State.setStatus u c d) = part u) (h : exec i s = .next t)
    (heffect : checkOf i s = none → part (effectOf i s) = part s) : part t = part s := by
  rcases exec_next h with ⟨f, -, rfl⟩ | ⟨hc, rfl⟩
  · exact hstatus ..
  · exact (hstatus ..).trans (heffect hc)

/-- A command changes only the bytes it stores to. -/
theorem storesTo_of_read_ne {i : Instr} {s t : State} {a : Nat} (h : exec i s = .next t)
    (hne : Memory.read t.mem a ≠ Memory.read s.mem a) : storesTo i a := by
  by_contra hn
  exact hne (exec_keeps (fun u => Memory.read u.mem a) (fun _ _ _ => rfl) h
    fun hc => read_effectOf_of_not_storesTo hc hn)

theorem storesTo_of_pbuf_ne {i : Instr} {s t : State} {k : Nat} (h : exec i s = .next t)
    (hne : t.pbuf k ≠ s.pbuf k) : storesTo i k := by
  rw [pbuf_eq_read, pbuf_eq_read] at hne
  exact storesTo_of_read_ne h hne

theorem pbuf_effectOf {i : Instr} {s : State} (hc : checkOf i s = none) {k : Nat} (h : ¬ storesTo i k) :
    (effectOf i s).pbuf k = s.pbuf k := by
  rw [pbuf_eq_read, pbuf_eq_read, read_effectOf_of_not_storesTo hc h]

/-- No effect writes the status; `complete` and `raise` do (00_scope.md R10). -/
theorem effectOf_status (i : Instr) (s : State) :
    (effectOf i s).statusCode = s.statusCode ∧ (effectOf i s).statusDetail = s.statusDetail := by
  cases i with
  | a2b v => rcases effectOf_a2b v s with e | ⟨b, e⟩ <;> (rw [e]; exact ⟨rfl, rfl⟩)
  | _ => simp [effectOf]

/-! ### Who stores where -/

theorem exists_saddr_of_storesTo {i : Instr} (h : storesTo i 0) : ∃ v, i = .saddr v := by
  cases i <;> simp [storesTo] at h ⊢

theorem exists_stally_or_sbrt_of_storesTo {i : Instr} (h : storesTo i 1) :
    (∃ f, i = .stally f) ∨ ∃ b, i = .sbrt b := by
  cases i <;> simp [storesTo] at h ⊢

theorem exists_stext_or_stextp_of_storesTo {i : Instr} {k : Nat} (hk : k < 16) (h : storesTo i (2 + k)) :
    ∃ l, i = .stext l ∨ i = .stextp l := by
  cases i <;> simp [storesTo] at h ⊢ <;> omega

theorem not_storesTo_txtin {j : Nat} (hj : j < 16) (i : Instr) : ¬ storesTo i (0x20 + j) := by
  cases i <;> simp [storesTo] <;> omega

/-- TXTIN belongs to the host: no command stores to it (10_state.md R26). -/
theorem txtin_effectOf {i : Instr} {s : State} (hc : checkOf i s = none) {j : Nat} (hj : j < 16) :
    (effectOf i s).txtin j = s.txtin j :=
  read_effectOf_of_not_storesTo hc (not_storesTo_txtin hj i)

theorem eq_gtext_of_storesTo {i : Instr} {j : Nat} (hj : j < 16) (h : storesTo i (0x30 + j)) :
    i = .gtext := by
  cases i <;> simp [storesTo] at h ⊢ <;> omega

theorem eq_fmt_of_storesTo {i : Instr} {j : Nat} (h : storesTo i (0x80 + j)) : i = .fmt := by
  cases i <;> simp [storesTo] at h ⊢ <;> omega

/-! ## The status a command reports (60_exceptions.md R180) -/

theorem statusLegal_of_checkAttached {s : State} {f : Failure} (h : checkAttached s = some f) :
    StatusLegal (errCode f.err) f.detail := by
  unfold checkAttached at h
  split at h
  · cases h
  · cases h; simp [StatusLegal, errCode]

theorem statusLegal_of_checkDetached {s : State} {f : Failure} (h : checkDetached s = some f) :
    StatusLegal (errCode f.err) f.detail := by
  unfold checkDetached at h
  split at h
  · cases h; simp [StatusLegal, errCode]
  · cases h

theorem statusLegal_of_fieldAccess {needW : Bool} {s : State} {f : Failure}
    (h : fieldAccess needW s = some f) : StatusLegal (errCode f.err) f.detail := by
  rcases fieldAccess_eq_some h with rfl | ⟨-, rfl⟩ | ⟨hl, rfl⟩
  · simp [StatusLegal, errCode]
  · simp [StatusLegal, errCode]
  · simpa [StatusLegal, errCode] using hl

/-- An offset below 16 fits the detail. -/
theorem toNat_offset_le {k : Nat} (h : k < 16) : (BitVec.ofNat 16 k).toNat ≤ 15 := by
  rw [BitVec.toNat_ofNat]; omega

theorem statusLegal_of_validatePass {n : Half} {s : State} {f : Failure}
    (h : validatePass n s = some f) : StatusLegal (errCode f.err) f.detail := by
  rcases validatePass_eq_some h with ⟨hn, rfl⟩ | ⟨-, -, rfl⟩ | ⟨-, -, k, hk, -, -, rfl⟩
  · simpa [StatusLegal, errCode] using hn
  · simp [StatusLegal, errCode]
  · simpa [StatusLegal, errCode] using toNat_offset_le hk

theorem statusLegal_of_checkAddress {v : Byte} {f : Failure} (h : checkAddress v = some f) :
    StatusLegal (errCode f.err) f.detail := by
  have hv : 0x7E < v.toNat := by
    by_contra hn
    rw [checkAddress_eq_none.mpr (by omega)] at h
    cases h
  rw [checkAddress_of_gt hv] at h
  cases h
  simp [StatusLegal, errCode]
  omega

theorem statusLegal_of_checkText {l : Half} {s : State} {f : Failure} (h : checkText l s = some f) :
    StatusLegal (errCode f.err) f.detail := by
  rcases checkText_eq_some h with ⟨hl, rfl⟩ | ⟨hl, k, hk, -, -, rfl⟩
  · simpa [StatusLegal, errCode] using (show 17 ≤ l.toNat from hl)
  · simpa [StatusLegal, errCode] using toNat_offset_le (show k < 16 by omega)

theorem statusLegal_of_checkAnalog {v : Byte} {f : Failure} (h : checkAnalog v = some f) :
    StatusLegal (errCode f.err) f.detail := by
  have hv : v ∉ [0#8, 36#8, 128#8, 255#8] := fun hm => by
    rw [checkAnalog_eq_none.mpr hm] at h; cases h
  rw [checkAnalog_of_notMem hv] at h
  cases h
  simp [StatusLegal, errCode, ← BitVec.toNat_inj] at hv ⊢
  omega

/-- Whatever check fails, it reports a row of the table. -/
theorem statusLegal_of_checkOf {i : Instr} {s : State} {f : Failure} (h : checkOf i s = some f) :
    StatusLegal (errCode f.err) f.detail := by
  cases i <;> simp only [checkOf, Option.or_eq_some_iff, reduceCtorEq] at h
  case attu => exact statusLegal_of_checkDetached h
  case attc => exact h.elim statusLegal_of_checkDetached fun h => statusLegal_of_validatePass h.2
  case rel => exact statusLegal_of_checkAttached h
  case val => exact h.elim statusLegal_of_checkAttached fun h => statusLegal_of_validatePass h.2
  case saddr => exact h.elim statusLegal_of_fieldAccess fun h => statusLegal_of_checkAddress h.2
  case stext => exact h.elim statusLegal_of_fieldAccess fun h => statusLegal_of_checkText h.2
  case stextp => exact h.elim statusLegal_of_fieldAccess fun h => statusLegal_of_checkText h.2
  case a2b => exact statusLegal_of_checkAnalog h
  all_goals exact statusLegal_of_fieldAccess h

theorem statusLegal_ok : StatusLegal codeOk 0 := .inl ⟨rfl, rfl⟩

theorem statusLegal_illegal (op : Byte) : StatusLegal 0x10 (op.setWidth 16) := by
  simp [StatusLegal]
  omega

/-! ## Predicates that every host event keeps -/

/-- What makes a predicate of the state an invariant of every run: it holds after reset, it does not look
at the host-port fields and the command word, and each write to another register keeps it. A host write to
PBUF counts only while no view is attached (20_memory.md R58), a status only if it is a row of the table,
and an effect only after the command's check has passed. -/
structure KeptByEvents (P : State → Prop) : Prop where
  reset : P State.reset
  port : ∀ s es bs i8 i16 op, P s →
    P { s with pending := es, returned := bs, cmdImm8 := i8, cmdImm16 := i16, cmdOp := op }
  status : ∀ s c d, StatusLegal c d → P s → P (s.setStatus c d)
  hwv : ∀ s, P s → P (s.setFlags (setHwv s.flags))
  flags : ∀ s v, P s → P (s.setFlags (writeFlags v s.flags))
  pbuf : ∀ s k v, k < 18 → viewOf s.vstate = 0#2 → P s → P (s.setPbuf k v)
  txtin : ∀ s j v, j < 16 → P s → P (s.setTxtin j v)
  effect : ∀ s i, checkOf i s = none → P s → P (effectOf i s)

section
variable {P : State → Prop} (hP : KeptByEvents P)
include hP

theorem KeptByEvents.hostWritePbuf {s : State} {k : Nat} (v : Byte) (hk : k < 18) (h : P s) :
    P (hostWritePbuf k v s) := by
  unfold Machine.hostWritePbuf
  split
  · exact hP.hwv s h
  · rename_i ha
    exact hP.pbuf s k v hk (attached_false_iff.mp (by simpa using ha)) h

/-- Every register of the host map is one of the fields above, or ignores the write. -/
theorem KeptByEvents.hostStore {s : State} (addr v : Byte) (h : P s) : P (hostStore addr v s) := by
  rcases hostStore_cases addr v s with ⟨k, hk, -, e⟩ | ⟨j, hj, -, e⟩ | ⟨-, e⟩ | ⟨-, e⟩ | ⟨-, e⟩ | ⟨-, e⟩ |
    ⟨-, e⟩ | e <;> rw [e]
  · exact hP.hostWritePbuf v hk h
  · exact hP.txtin s j v hj h
  · exact hP.port s _ _ _ _ _ h
  · exact hP.port s _ _ _ _ _ h
  · exact hP.port s _ _ _ _ _ h
  · exact hP.port s _ _ _ _ _ h
  · exact hP.flags s v h
  · exact h

theorem KeptByEvents.exec {i : Instr} {s t : State} (h : P s) (ht : exec i s = .next t) : P t := by
  rcases exec_next ht with ⟨f, hc, rfl⟩ | ⟨hc, rfl⟩
  · exact hP.status s _ _ (statusLegal_of_checkOf hc) h
  · exact hP.status _ _ _ statusLegal_ok (hP.effect s i hc h)

theorem KeptByEvents.execIllegal {s : State} (h : P s) : P (execIllegal s) := by
  rw [execIllegal_eq]
  exact hP.status s _ _ (statusLegal_illegal s.cmdOp) h

/-- Every step keeps such a predicate. -/
theorem KeptByEvents.step {s t : State} (h : P s) (ht : step s = .next t) : P t := by
  have hport : ∀ es, P (s.setPending es) := fun es => hP.port s es _ _ _ _ h
  have hissue : ∀ es v, P ((s.setPending es).setCmdOp v) := fun es v => hP.port s es _ _ _ v h
  rcases step_next ht with ⟨-, rfl⟩ | ⟨addr, v, es, -, -, rfl⟩ | ⟨v, es, i, -, -, he⟩ |
    ⟨v, es, e, -, -, rfl⟩ | ⟨addr, es, -, rfl⟩ | ⟨es, -, rfl⟩
  · exact h
  · exact hP.hostStore addr v (hport es)
  · exact hP.exec (hissue es v) he
  · exact hP.execIllegal (hissue es v)
  · exact hP.port s es _ _ _ _ h
  · exact hP.port State.reset _ _ _ _ _ hP.reset

end

/-! ## The parts of the invariant of a run -/

/-! ### Byte storage -/

theorem StorageOk.write {s : State} (h : StorageOk s) {a : Nat} (b : Byte) (ha : InArrays a) :
    StorageOk (s.setMem (Memory.write s.mem a b)) := by
  obtain ⟨hwf, hin⟩ := h
  refine ⟨Memory.wf_write hwf a b, fun c hc => ?_⟩
  rcases Memory.mem_write hc with rfl | hc
  · exact ha
  · exact hin c hc

theorem StorageOk.writeBytes {s : State} (h : StorageOk s) {base : Nat} {bs : List Byte}
    (hb : ∀ a, base ≤ a → a < base + bs.length → InArrays a) :
    StorageOk (s.setMem (Memory.writeBytes s.mem base bs)) := by
  obtain ⟨hwf, hin⟩ := h
  refine ⟨Memory.wf_writeBytes hwf base bs, fun c hc => ?_⟩
  rcases Memory.mem_writeBytes hc with ⟨h1, h2⟩ | hc
  · exact hb c.1 h1 h2
  · exact hin c hc

theorem StorageOk.setPbuf {s : State} (h : StorageOk s) {k : Nat} (v : Byte) (hk : k < 18) :
    StorageOk (s.setPbuf k v) :=
  h.write v (.inl (by simp only [Config.pbufBase]; omega))

theorem StorageOk.setTxtin {s : State} (h : StorageOk s) {j : Nat} (v : Byte) (hj : j < 16) :
    StorageOk (s.setTxtin j v) :=
  h.write v (.inr (.inl (by simp only [Config.txtinBase]; omega)))

theorem StorageOk.setDisplay {s : State} (h : StorageOk s) {bs : List Byte} (hb : bs.length ≤ 16) :
    StorageOk (s.setDisplay bs) :=
  h.writeBytes fun a _ ha => .inl (by simp only [Config.pbufBase, Config.dispOff] at ha; omega)

theorem StorageOk.setTxtout {s : State} (h : StorageOk s) {bs : List Byte} (hb : bs.length ≤ 16) :
    StorageOk (s.setTxtout bs) :=
  h.writeBytes fun a hl ha => .inr (.inl (by simp only [Config.txtoutBase] at hl ha; omega))

theorem StorageOk.setFmtout {s : State} (h : StorageOk s) {bs : List Byte} (hb : bs.length ≤ 128) :
    StorageOk (s.setFmtout bs) :=
  h.writeBytes fun a hl ha => .inr (.inr (by simp only [Config.fmtoutBase] at hl ha; omega))

/-- Only storage counts. -/
theorem StorageOk.of_mem_eq {s t : State} (h : StorageOk s) (e : t.mem = s.mem) : StorageOk t := by
  unfold StorageOk; rw [e]; exact h

/-- The six storing commands write inside their arrays. -/
theorem StorageOk.effectOf {i : Instr} {s : State} (hc : checkOf i s = none) (h : StorageOk s) :
    StorageOk (effectOf i s) := by
  cases i with
  | gtext => exact (h.setTxtout (by simp [Config.textinCap])).of_mem_eq (effectOf_gtext_mem s)
  | fmt => exact (h.setFmtout (by simp [Config.fmtCap])).of_mem_eq (effectOf_fmt_mem s)
  | saddr v => exact h.setPbuf _ (by decide)
  | stally t => exact h.setPbuf _ (by decide)
  | sbrt b => exact h.setPbuf _ (by decide)
  | stext l => exact h.setDisplay (by simpa [stagedText] using length_of_textCheck hc)
  | stextp l => exact h.setDisplay (by simp [paddedText, Config.dispLen])
  | a2b v =>
    rcases effectOf_a2b v s with e | ⟨b, e⟩ <;> rw [e]
    · exact h
    · exact h.of_mem_eq (setRes_mem ..)
  | _ => exact h.of_mem_eq (by simp [Machine.effectOf])

theorem storageOk_keptByEvents : KeptByEvents StorageOk where
  reset := ⟨by decide, fun _ hc => absurd hc List.not_mem_nil⟩
  port _ _ _ _ _ _ h := h
  status _ _ _ _ h := h
  hwv _ h := h
  flags _ _ h := h
  pbuf _ _ v hk _ h := h.setPbuf v hk
  txtin _ _ v hj h := h.setTxtin v hj
  effect _ _ hc h := h.effectOf hc

/-! ### VSTATE -/

/-- The views that the attaching commands write, with and without W (40_view.md R100, R102). -/
theorem packVstate_unchecked (w : Bool) :
    packVstate w viewUnchecked = 0x01 ∨ packVstate w viewUnchecked = 0x05 := by
  revert w; decide

theorem packVstate_checked (w : Bool) :
    packVstate w viewChecked = 0x02 ∨ packVstate w viewChecked = 0x06 := by
  revert w; decide

theorem viewOf_packVstate (w : Bool) (v : BitVec 2) : viewOf (packVstate w v) = v := by
  revert w v; decide

theorem VstateOk.effectOf (i : Instr) {s : State} (h : VstateOk s) : VstateOk (effectOf i s) := by
  cases i with
  | attu l w => exact (packVstate_unchecked w).elim (.inr ∘ .inl) (.inr ∘ .inr ∘ .inl)
  | attc l w =>
    exact (packVstate_checked w).elim (.inr ∘ .inr ∘ .inr ∘ .inl) (.inr ∘ .inr ∘ .inr ∘ .inr)
  | rel => exact .inl rfl
  | _ => rw [VstateOk, effectOf_vstate s (by simp)]; exact h

theorem vstateOk_keptByEvents : KeptByEvents VstateOk where
  reset := .inl rfl
  port _ _ _ _ _ _ h := h
  status _ _ _ _ h := h
  hwv _ h := h
  flags _ _ h := h
  pbuf _ _ _ _ _ h := h
  txtin _ _ _ _ h := h
  effect _ i _ h := h.effectOf i

/-! ### The checked view (10_state.md R36) -/

theorem dispByte_iff_isDisp {b : Byte} : DispByte b ↔ isDisp b = true := isDisp_iff.symm

/-- What validation accepts is what the invariant asks for. -/
theorem validatePass_eq_none_iff {n : Half} {s : State} :
    validatePass n s = none ↔ n = 18#16 ∧ ValidBytes s := by
  simp only [validatePass_eq_none, ValidBytes, dispByte_iff_isDisp]
  rfl

/-- The address byte keeps its marker: SADDR sets it, and no other command writes the byte. -/
theorem marker_effectOf {i : Instr} {s : State} (hc : checkOf i s = none)
    (h : (s.pbuf 0).getLsbD 7 = true) : ((effectOf i s).pbuf 0).getLsbD 7 = true := by
  by_cases hs : storesTo i 0
  · obtain ⟨v, rfl⟩ := exists_saddr_of_storesTo hs
    rw [pbuf_eq_read, effectOf_saddr_mem, read_setPbuf, if_pos rfl, BitVec.getLsbD_or]
    simp
  · rwa [pbuf_effectOf hc hs]

/-- A display byte stays one: the text setters write checked text or spaces, and no other command writes
the region. -/
theorem dispByte_effectOf {i : Instr} {s : State} (hc : checkOf i s = none) {k : Nat} (hk : k < 16)
    (h : DispByte (s.pbuf (2 + k))) : DispByte ((effectOf i s).pbuf (2 + k)) := by
  by_cases hs : storesTo i (2 + k)
  · obtain ⟨l, hl⟩ := exists_stext_or_stextp_of_storesTo hk hs
    have htext : ∀ j, j < l.toNat → DispByte (s.txtin j) := by
      have hct : checkText l s = none := by
        rcases hl with rfl | rfl <;> exact (Option.or_eq_none_iff.mp hc).2
      exact fun j hj => dispByte_iff_isDisp.mpr (isDisp_of_isText ((checkText_eq_none.mp hct).2 j hj))
    rw [pbuf_eq_read] at h ⊢
    rcases hl with rfl | rfl
    · rw [read_effectOf_stext]
      split
      · exact htext _ (by omega)
      · exact h
    · rw [read_effectOf_stextp, if_pos (by omega)]
      split
      · exact htext _ ‹_›
      · exact dispByte_iff_isDisp.mpr (isDisp_of_isText isText_space)
  · rwa [pbuf_effectOf hc hs]

theorem ValidBytes.effectOf {i : Instr} {s : State} (hc : checkOf i s = none) (h : ValidBytes s) :
    ValidBytes (effectOf i s) := by
  obtain ⟨hm, hd⟩ := h
  exact ⟨marker_effectOf hc hm, fun k hk => dispByte_effectOf hc hk (hd k hk)⟩

/-- A predicate of a checked view holds where the view is of another kind. -/
theorem checkedOk_of_view_ne {s : State} (h : viewOf s.vstate ≠ 2#2) : CheckedOk s := fun hv => absurd hv h

/-- ATTU and REL leave no checked view, ATTC has validated what it attaches, and the other commands leave
VSTATE, LEN and the validity of the packet. -/
theorem CheckedOk.effectOf {i : Instr} {s : State} (hc : checkOf i s = none) (h : CheckedOk s) :
    CheckedOk (effectOf i s) := by
  cases i with
  | attu l w =>
    refine checkedOk_of_view_ne (show viewOf (packVstate w viewUnchecked) ≠ 2#2 from ?_)
    rw [viewOf_packVstate]
    decide
  | rel => exact checkedOk_of_view_ne (show viewOf 0x00 ≠ 2#2 by decide)
  | attc l w =>
    obtain ⟨hl, hv⟩ := validatePass_eq_none_iff.mp (Option.or_eq_none_iff.mp hc).2
    exact fun _ => ⟨hl, hv.effectOf hc⟩
  | _ =>
    intro hv
    rw [effectOf_vstate s (by simp)] at hv
    obtain ⟨hl, hb⟩ := h hv
    exact ⟨(effectOf_len s (by simp)).trans hl, hb.effectOf hc⟩

theorem pbuf_setTxtin {s : State} {j k : Nat} (v : Byte) (hk : k < 18) :
    (s.setTxtin j v).pbuf k = s.pbuf k := by
  rw [pbuf_eq_read, pbuf_eq_read, read_setTxtin, if_neg (by omega)]

theorem ValidBytes.setTxtin {s : State} (j : Nat) (v : Byte) (h : ValidBytes s) :
    ValidBytes (s.setTxtin j v) := by
  obtain ⟨hm, hd⟩ := h
  refine ⟨by rwa [pbuf_setTxtin v (by decide)], fun k hk => ?_⟩
  rw [pbuf_setTxtin v (by omega)]
  exact hd k hk

theorem checkedOk_keptByEvents : KeptByEvents CheckedOk where
  reset := checkedOk_of_view_ne (by decide)
  port _ _ _ _ _ _ h := h
  status _ _ _ _ h := h
  hwv _ h := h
  flags _ _ h := h
  pbuf _ _ _ _ hnone _ := checkedOk_of_view_ne (by rw [setPbuf_vstate, hnone]; decide)
  txtin _ j v _ h hv := ⟨(h hv).1, (h hv).2.setTxtin j v⟩
  effect _ _ hc h := h.effectOf hc

/-! ### FLAGS -/

theorem flagsOk_keptByEvents : KeptByEvents FlagsOk where
  reset := .inl rfl
  port _ _ _ _ _ _ h := h
  status _ _ _ _ h := h
  hwv s h := .inr (by rcases h with h | h <;> rw [setFlags_flags, h] <;> decide)
  flags s v h := by
    unfold FlagsOk writeFlags
    rw [setFlags_flags]
    split
    · exact .inl (by rcases h with h | h <;> rw [h] <;> decide)
    · exact h
  pbuf _ _ _ _ _ h := h
  txtin _ _ _ _ h := h
  effect s i _ h := by
    obtain ⟨hf, -⟩ := effectOf_untouched i s
    rw [FlagsOk, hf]
    exact h

/-! ### TXTOUT and FMTOUT -/

theorem txtout_setPbuf {s : State} {k : Nat} (v : Byte) (hk : k < 18) (j : Nat) :
    (s.setPbuf k v).txtout j = s.txtout j := by
  rw [txtout_eq_read, txtout_eq_read, read_setPbuf, if_neg (by omega)]

theorem txtout_setTxtin {s : State} {k : Nat} (v : Byte) (hk : k < 16) (j : Nat) :
    (s.setTxtin k v).txtout j = s.txtout j := by
  rw [txtout_eq_read, txtout_eq_read, read_setTxtin, if_neg (by omega)]

theorem fmtout_setPbuf {s : State} {k : Nat} (v : Byte) (hk : k < 18) (j : Nat) :
    (s.setPbuf k v).fmtout j = s.fmtout j := by
  rw [fmtout_eq_read, fmtout_eq_read, read_setPbuf, if_neg (by omega)]

theorem fmtout_setTxtin {s : State} {k : Nat} (v : Byte) (hk : k < 16) (j : Nat) :
    (s.setTxtin k v).fmtout j = s.fmtout j := by
  rw [fmtout_eq_read, fmtout_eq_read, read_setTxtin, if_neg (by omega)]

/-- Only GTEXT writes TXTOUT. -/
theorem txtout_effectOf {i : Instr} {s : State} (hc : checkOf i s = none) (hi : i ≠ .gtext) {j : Nat}
    (hj : j < 16) : (effectOf i s).txtout j = s.txtout j :=
  read_effectOf_of_not_storesTo hc fun hs => hi (eq_gtext_of_storesTo hj hs)

/-- Only FMT writes FMTOUT. -/
theorem fmtout_effectOf {i : Instr} {s : State} (hc : checkOf i s = none) (hi : i ≠ .fmt) (j : Nat) :
    (effectOf i s).fmtout j = s.fmtout j :=
  read_effectOf_of_not_storesTo hc fun hs => hi (eq_fmt_of_storesTo hs)

theorem effectOf_gtext_txtout (s : State) {j : Nat} (hj : j < 16) :
    (effectOf .gtext s).txtout j = (decodedText s).getD j 0 := by
  rw [txtout_eq_read, read_effectOf_gtext, if_pos (by omega), Nat.add_sub_cancel_left]

theorem effectOf_fmt_fmtout (s : State) {j : Nat} (hj : j < 128) :
    (effectOf .fmt s).fmtout j = (rendering s).getD j 0 := by
  rw [fmtout_eq_read, read_effectOf_fmt, if_pos (by omega), Nat.add_sub_cancel_left]

theorem effectOf_gtext_txtoutLen (s : State) : (effectOf .gtext s).txtoutLen.toNat = textLen s := by
  have := textLen_le s
  exact (BitVec.toNat_ofNat ..).trans (Nat.mod_eq_of_lt (by omega))

theorem effectOf_fmt_fmtLen (s : State) : (effectOf .fmt s).fmtLen.toNat = (rendering s).length := by
  have := length_rendering_bounds s
  exact (BitVec.toNat_ofNat ..).trans (Nat.mod_eq_of_lt (by omega))

/-- GTEXT zero-fills TXTOUT past its text. -/
theorem txtoutOk_effectOf_gtext (s : State) : TxtoutOk (effectOf .gtext s) := by
  unfold TxtoutOk
  rw [effectOf_gtext_txtoutLen]
  refine ⟨textLen_le s, fun j hl hj => ?_⟩
  rw [effectOf_gtext_txtout s hj, getD_decodedText, if_neg (by omega)]

/-- FMT zero-fills FMTOUT past its rendering. -/
theorem fmtoutOk_effectOf_fmt (s : State) : FmtoutOk (effectOf .fmt s) := by
  unfold FmtoutOk
  rw [effectOf_fmt_fmtLen]
  refine ⟨.inr (length_rendering_bounds s), fun j hl hj => ?_⟩
  rw [effectOf_fmt_fmtout s hj, List.getD_eq_default _ _ hl]

theorem txtoutOk_keptByEvents : KeptByEvents TxtoutOk where
  reset := by unfold TxtoutOk; decide
  port _ _ _ _ _ _ h := h
  status _ _ _ _ h := h
  hwv _ h := h
  flags _ _ h := h
  pbuf _ _ v hk _ h := ⟨h.1, fun j hl hj => (txtout_setPbuf v hk j).trans (h.2 j hl hj)⟩
  txtin _ _ v hk h := ⟨h.1, fun j hl hj => (txtout_setTxtin v hk j).trans (h.2 j hl hj)⟩
  effect s i hc h := by
    by_cases hi : i = .gtext
    · subst hi; exact txtoutOk_effectOf_gtext s
    · unfold TxtoutOk
      rw [effectOf_txtoutLen s hi]
      exact ⟨h.1, fun j hl hj => (txtout_effectOf hc hi hj).trans (h.2 j hl hj)⟩

theorem fmtoutOk_keptByEvents : KeptByEvents FmtoutOk where
  reset := ⟨.inl rfl, fun _ _ _ => rfl⟩
  port _ _ _ _ _ _ h := h
  status _ _ _ _ h := h
  hwv _ h := h
  flags _ _ h := h
  pbuf _ _ v hk _ h := ⟨h.1, fun j hl hj => (fmtout_setPbuf v hk j).trans (h.2 j hl hj)⟩
  txtin _ _ v hk h := ⟨h.1, fun j hl hj => (fmtout_setTxtin v hk j).trans (h.2 j hl hj)⟩
  effect s i hc h := by
    by_cases hi : i = .fmt
    · subst hi; exact fmtoutOk_effectOf_fmt s
    · unfold FmtoutOk
      rw [effectOf_fmtLen s hi]
      exact ⟨h.1, fun j hl hj => (fmtout_effectOf hc hi j).trans (h.2 j hl hj)⟩

/-! ### The status -/

theorem statusLegal_keptByEvents : KeptByEvents fun s => StatusLegal s.statusCode s.statusDetail where
  reset := statusLegal_ok
  port _ _ _ _ _ _ h := h
  status _ _ _ hcd _ := hcd
  hwv _ h := h
  flags _ _ h := h
  pbuf _ _ _ _ _ h := h
  txtin _ _ _ _ h := h
  effect s i _ h := by
    obtain ⟨hcode, hdetail⟩ := effectOf_status i s
    rw [hcode, hdetail]
    exact h

/-! ## The invariants of a run, settled -/

/-- VAL reports nothing on a packet of the right length and valid bytes, under a view. -/
theorem checkOf_val_eq_none {s : State} (hv : viewOf s.vstate ≠ 0#2) (hl : s.len = 18#16)
    (hb : ValidBytes s) : checkOf .val s = none :=
  Option.or_eq_none_iff.mpr ⟨checkAttached_eq_none.mpr hv, validatePass_eq_none_iff.mpr ⟨hl, hb⟩⟩

/-- Settles O40: the invariant is kept by every host event, and it is what VAL checks. -/
theorem checkedViewStaysValid : Obligations.CheckedViewStaysValid := by
  refine ⟨fun s t => checkedOk_keptByEvents.step, fun s h hv => ?_⟩
  obtain ⟨hl, hb⟩ := h hv
  exact exec_completes (checkOf_val_eq_none (by rw [hv]; decide) hl hb)

/-- Settles O41: each part of the invariant is kept by every host event. -/
theorem stepKeepsTheInvariant : Obligations.StepKeepsTheInvariant := fun _ _ h ht =>
  { storage := storageOk_keptByEvents.step h.storage ht
    vstate := vstateOk_keptByEvents.step h.vstate ht
    checked := checkedOk_keptByEvents.step h.checked ht
    flags := flagsOk_keptByEvents.step h.flags ht
    txtout := txtoutOk_keptByEvents.step h.txtout ht
    fmtout := fmtoutOk_keptByEvents.step h.fmtout ht
    status := statusLegal_keptByEvents.step h.status ht }

/-- Settles O38: a legal VSTATE is kept by every host event. -/
theorem viewStateStaysLegal : Obligations.ViewStateStaysLegal := fun _ _ => vstateOk_keptByEvents.step

/-! ## The writers of each register (10_state.md R22) -/

/-- The registers no command writes. -/
theorem exec_untouched {i : Instr} {s t : State} (h : exec i s = .next t) :
    t.cmdImm8 = s.cmdImm8 ∧ t.cmdImm16 = s.cmdImm16 ∧ t.cmdOp = s.cmdOp ∧ t.flags = s.flags := by
  obtain ⟨hflags, himm8, himm16, hop, -, -⟩ := effectOf_untouched i s
  exact ⟨exec_keeps State.cmdImm8 (fun _ _ _ => rfl) h fun _ => himm8,
    exec_keeps State.cmdImm16 (fun _ _ _ => rfl) h fun _ => himm16,
    exec_keeps State.cmdOp (fun _ _ _ => rfl) h fun _ => hop,
    exec_keeps State.flags (fun _ _ _ => rfl) h fun _ => hflags⟩

/-- Settles O37: a register's other commands leave it alone, and a byte changes only under a command that
stores to it. -/
theorem registersHaveOnlyTheirWriters : Obligations.RegistersHaveOnlyTheirWriters := by
  intro i s t h
  refine ⟨exec_untouched h, fun j hj => ?_, fun hne => ?_, fun hne => ?_, fun hne => ?_, fun hne => ?_,
    fun hne => ?_, fun hne => ?_, fun hne => ?_, fun k hk hne => ?_⟩
  · by_contra hne
    exact not_storesTo_txtin hj i (storesTo_of_read_ne h hne)
  · by_contra hw
    push Not at hw
    exact hne (exec_keeps State.len (fun _ _ _ => rfl) h fun _ => effectOf_len s hw)
  · by_contra hw
    push Not at hw
    exact hne (exec_keeps State.vstate (fun _ _ _ => rfl) h fun _ => effectOf_vstate s hw)
  · by_contra hw
    push Not at hw
    exact hne (exec_keeps State.res (fun _ _ _ => rfl) h fun _ => effectOf_res s hw)
  · rcases hne with hne | ⟨j, hj, hne⟩
    · by_contra hw
      exact hne (exec_keeps State.txtoutLen (fun _ _ _ => rfl) h fun _ => effectOf_txtoutLen s hw)
    · exact eq_gtext_of_storesTo hj (storesTo_of_read_ne h hne)
  · rcases hne with hne | ⟨j, -, hne⟩
    · by_contra hw
      exact hne (exec_keeps State.fmtLen (fun _ _ _ => rfl) h fun _ => effectOf_fmtLen s hw)
    · exact eq_fmt_of_storesTo (storesTo_of_read_ne h hne)
  · exact exists_saddr_of_storesTo (storesTo_of_pbuf_ne h hne)
  · exact exists_stally_or_sbrt_of_storesTo (storesTo_of_pbuf_ne h hne)
  · exact exists_stext_or_stextp_of_storesTo hk (storesTo_of_pbuf_ne h hne)

/-! ## Non-interference of the result registers (10_state.md R35) -/

/-- Two states agree on all that a command reads: LEN, VSTATE, PBUF and TXTIN. -/
structure SameInputs (s s' : State) : Prop where
  len : s.len = s'.len
  vstate : s.vstate = s'.vstate
  pbuf : ∀ k, k < 18 → s.pbuf k = s'.pbuf k
  txtin : ∀ j, j < 16 → s.txtin j = s'.txtin j

section
variable {s s' : State} (h : SameInputs s s')
include h

theorem SameInputs.display {k : Nat} (hk : k < 16) : s.display k = s'.display k :=
  h.pbuf (2 + k) (by omega)

theorem SameInputs.packetAddress : packetAddress s = packetAddress s' := by
  rw [Machine.packetAddress, h.pbuf _ (by decide)]; rfl

theorem SameInputs.packetTally : packetTally s = packetTally s' := by
  rw [Machine.packetTally, h.pbuf _ (by decide)]; rfl

theorem SameInputs.packetBrightness : packetBrightness s = packetBrightness s' := by
  rw [Machine.packetBrightness, h.pbuf _ (by decide)]; rfl

theorem SameInputs.firstNull : firstNull s = firstNull s' := by
  obtain ⟨hle, hpre, hend⟩ := firstNull_eq_iff.mp (rfl : Machine.firstNull s' = _)
  refine firstNull_eq_iff.mpr ⟨hle, fun k hk => ?_, ?_⟩
  · rw [h.display (by omega)]; exact hpre k hk
  · by_cases h16 : Machine.firstNull s' = 16
    · exact .inl h16
    · rw [h.display (by omega)]; exact hend

theorem SameInputs.textLen : textLen s = textLen s' := by
  have hle := firstNull_le s'
  obtain ⟨hn, hsp, hend⟩ := trimSpaces_eq_iff.mp (rfl : Machine.textLen s' = _)
  rw [Machine.textLen, h.firstNull]
  refine trimSpaces_eq_iff.mpr ⟨hn, fun k hk hlt => ?_, ?_⟩
  · rw [h.display (by omega)]; exact hsp k hk hlt
  · by_cases h0 : Machine.textLen s' = 0
    · exact .inl h0
    · rw [h.display (by omega)]; exact hend

theorem SameInputs.decodedText : decodedText s = decodedText s' := by
  have hle := textLen_le s'
  rw [Machine.decodedText, h.textLen]
  exact tabulate_congr fun k hk => h.display (by omega)

theorem SameInputs.rendering : rendering s = rendering s' := by
  simp only [Machine.rendering, h.packetAddress, h.packetTally, h.packetBrightness, h.decodedText]

theorem SameInputs.checkOf (i : Instr) : checkOf i s = checkOf i s' :=
  checkOf_congr h.len h.vstate h.pbuf h.txtin

/-! ### The effects of a command on two such states -/

theorem SameInputs.effectOf_len (i : Instr) : (effectOf i s).len = (effectOf i s').len := by
  cases i with
  | attu l w => rfl
  | attc l w => rfl
  | _ => rw [Machine.effectOf_len s (by simp), Machine.effectOf_len s' (by simp), h.len]

theorem SameInputs.effectOf_vstate (i : Instr) : (effectOf i s).vstate = (effectOf i s').vstate := by
  cases i with
  | attu l w => rfl
  | attc l w => rfl
  | rel => rfl
  | _ => rw [Machine.effectOf_vstate s (by simp), Machine.effectOf_vstate s' (by simp), h.vstate]

/-- What a mutator stores comes from PBUF, TXTIN and its operand. -/
theorem SameInputs.effectOf_pbuf {i : Instr} (hc : Machine.checkOf i s = none) {k : Nat} (hk : k < 18) :
    (effectOf i s).pbuf k = (effectOf i s').pbuf k := by
  by_cases hs : storesTo i k
  · rw [pbuf_eq_read, pbuf_eq_read]
    have hk' := h.pbuf k hk
    rw [pbuf_eq_read, pbuf_eq_read] at hk'
    cases i <;> simp only [storesTo] at hs
    case gtext => omega
    case fmt => omega
    case saddr v => simp only [effectOf_saddr_mem, read_setPbuf, hs, if_true]
    case stally t =>
      simp only [effectOf_stally_mem, read_setPbuf, hs, if_true, h.pbuf 1 (by decide)]
    case sbrt b =>
      simp only [effectOf_sbrt_mem, read_setPbuf, hs, if_true, h.pbuf 1 (by decide)]
    case stext l => rw [read_effectOf_stext, read_effectOf_stext, hk', h.txtin (k - 2) (by omega)]
    case stextp l => rw [read_effectOf_stextp, read_effectOf_stextp, hk', h.txtin (k - 2) (by omega)]
  · rw [pbuf_effectOf hc hs, pbuf_effectOf (h.checkOf i ▸ hc) hs, h.pbuf k hk]

theorem SameInputs.effectOf_txtin {i : Instr} (hc : Machine.checkOf i s = none) {j : Nat} (hj : j < 16) :
    (effectOf i s).txtin j = (effectOf i s').txtin j := by
  rw [txtin_effectOf hc hj, txtin_effectOf (h.checkOf i ▸ hc) hj, h.txtin j hj]

/-- So what a command completes with gives the same inputs again. -/
theorem SameInputs.effectOf {i : Instr} (hc : Machine.checkOf i s = none) :
    SameInputs (effectOf i s) (effectOf i s') where
  len := h.effectOf_len i
  vstate := h.effectOf_vstate i
  pbuf _ hk := h.effectOf_pbuf hc hk
  txtin _ hj := h.effectOf_txtin hc hj

/-- RES is written alike, or not at all. -/
theorem SameInputs.effectOf_res (i : Instr) :
    (Machine.effectOf i s).res = (Machine.effectOf i s').res ∨
      ((Machine.effectOf i s).res = s.res ∧ (Machine.effectOf i s').res = s'.res) := by
  cases i with
  | gaddr => exact .inl h.packetAddress
  | gtally => exact .inl (congrArg (BitVec.setWidth 8) h.packetTally)
  | gbrt => exact .inl (congrArg (fun b => (brvOf b).setWidth 8) h.packetBrightness)
  | b2a b => exact .inl rfl
  | a2b v =>
    cases hv : analogDecode v with
    | none => exact .inr (by simp only [Machine.effectOf, hv, and_self])
    | some b => exact .inl (by simp only [Machine.effectOf, hv, setRes_res])
  | _ => exact .inr ⟨Machine.effectOf_res s (by simp), Machine.effectOf_res s' (by simp)⟩

/-- TXTOUT and TXTOUT_LEN are written alike, or not at all. -/
theorem SameInputs.effectOf_txtout {i : Instr} (hc : Machine.checkOf i s = none) :
    ((Machine.effectOf i s).txtoutLen = (Machine.effectOf i s').txtoutLen ∧
        ∀ j, j < 16 → (Machine.effectOf i s).txtout j = (Machine.effectOf i s').txtout j) ∨
      ((Machine.effectOf i s).txtoutLen = s.txtoutLen ∧ (Machine.effectOf i s').txtoutLen = s'.txtoutLen ∧
        ∀ j, j < 16 → (Machine.effectOf i s).txtout j = s.txtout j ∧
          (Machine.effectOf i s').txtout j = s'.txtout j) := by
  by_cases hi : i = .gtext
  · subst hi
    refine .inl ⟨congrArg (BitVec.ofNat 8) h.textLen, fun j hj => ?_⟩
    rw [effectOf_gtext_txtout s hj, effectOf_gtext_txtout s' hj, h.decodedText]
  · exact .inr ⟨effectOf_txtoutLen s hi, effectOf_txtoutLen s' hi, fun j hj =>
      ⟨txtout_effectOf hc hi hj, txtout_effectOf (h.checkOf i ▸ hc) hi hj⟩⟩

/-- FMTOUT and FMT_LEN are written alike, or not at all. -/
theorem SameInputs.effectOf_fmtout {i : Instr} (hc : Machine.checkOf i s = none) :
    ((Machine.effectOf i s).fmtLen = (Machine.effectOf i s').fmtLen ∧
        ∀ j, j < 128 → (Machine.effectOf i s).fmtout j = (Machine.effectOf i s').fmtout j) ∨
      ((Machine.effectOf i s).fmtLen = s.fmtLen ∧ (Machine.effectOf i s').fmtLen = s'.fmtLen ∧
        ∀ j, j < 128 → (Machine.effectOf i s).fmtout j = s.fmtout j ∧
          (Machine.effectOf i s').fmtout j = s'.fmtout j) := by
  by_cases hi : i = .fmt
  · subst hi
    refine .inl ⟨congrArg (fun bs : List Byte => BitVec.ofNat 8 bs.length) h.rendering, fun j hj => ?_⟩
    rw [effectOf_fmt_fmtout s hj, effectOf_fmt_fmtout s' hj, h.rendering]
  · exact .inr ⟨effectOf_fmtLen s hi, effectOf_fmtLen s' hi, fun j _ =>
      ⟨fmtout_effectOf hc hi j, fmtout_effectOf (h.checkOf i ▸ hc) hi j⟩⟩

end

/-- Settles O39: the check is the same in both states, and so is the effect when it passes; a report leaves
every result register as it was. -/
theorem outcomesIgnoreResultRegisters : Obligations.OutcomesIgnoreResultRegisters := by
  intro i s s' t t' hlen hvstate hpbuf htxtin ht ht'
  have h : SameInputs s s' := ⟨hlen, hvstate, hpbuf, htxtin⟩
  cases hc : checkOf i s with
  | some f =>
    cases (exec_raises hc).symm.trans ht
    cases (exec_raises (h.checkOf i ▸ hc)).symm.trans ht'
    exact ⟨rfl, rfl, hlen, hvstate, hpbuf, htxtin, .inr ⟨rfl, rfl⟩,
      .inr ⟨rfl, rfl, fun _ _ => ⟨rfl, rfl⟩⟩, .inr ⟨rfl, rfl, fun _ _ => ⟨rfl, rfl⟩⟩⟩
  | none =>
    cases (exec_completes hc).symm.trans ht
    cases (exec_completes (h.checkOf i ▸ hc)).symm.trans ht'
    obtain ⟨hl, hv, hp, hx⟩ := h.effectOf hc
    exact ⟨rfl, rfl, hl, hv, hp, hx, h.effectOf_res i, h.effectOf_txtout hc, h.effectOf_fmtout hc⟩

end Sys2Proof.Machine

/-! # Statements about the host port (20_memory.md)

The register map read forwards, from a register to its address; what a host read returns and what a host
store does at each kind of address; the steps that perform them. -/

namespace Sys2Proof.Machine

/-! ## The register map, from a register to its address (20_memory.md R55) -/

theorem hostReg_pbuf {k : Nat} (hk : k < 18) : hostReg (BitVec.ofNat 8 k) = .pbuf k := by
  revert k; decide

theorem hostReg_txtin {j : Nat} (hj : j < 16) : hostReg (BitVec.ofNat 8 (0x20 + j)) = .txtin j := by
  revert j; decide

theorem hostReg_txtout {j : Nat} (hj : j < 16) : hostReg (BitVec.ofNat 8 (0x30 + j)) = .txtout j := by
  revert j; decide

theorem hostReg_fmtout {j : Nat} (hj : j < 128) : hostReg (BitVec.ofNat 8 (0x80 + j)) = .fmtout j := by
  revert j; decide

theorem hostReg_reserved {a : Byte}
    (h : (0x12 ≤ a.toNat ∧ a.toNat ≤ 0x1F) ∨ a = 0x4B ∨ (0x4F ≤ a.toNat ∧ a.toNat ≤ 0x7F)) :
    hostReg a = .reserved := by
  revert a; decide

/-! ## Host reads -/

theorem hostRead_pbuf (s : State) {k : Nat} (hk : k < 18) : hostRead s (BitVec.ofNat 8 k) = s.pbuf k := by
  unfold hostRead; rw [hostReg_pbuf hk]

theorem hostRead_txtin (s : State) {j : Nat} (hj : j < 16) :
    hostRead s (BitVec.ofNat 8 (0x20 + j)) = s.txtin j := by
  unfold hostRead; rw [hostReg_txtin hj]

theorem hostRead_txtout (s : State) {j : Nat} (hj : j < 16) :
    hostRead s (BitVec.ofNat 8 (0x30 + j)) = s.txtout j := by
  unfold hostRead; rw [hostReg_txtout hj]

theorem hostRead_fmtout (s : State) {j : Nat} (hj : j < 128) :
    hostRead s (BitVec.ofNat 8 (0x80 + j)) = s.fmtout j := by
  unfold hostRead; rw [hostReg_fmtout hj]

/-- A byte staged in TXTIN reads back (20_memory.md R62). -/
theorem hostRead_setTxtin (s : State) {j : Nat} (hj : j < 16) (v : Byte) :
    hostRead (s.setTxtin j v) (BitVec.ofNat 8 (0x20 + j)) = v := by
  rw [hostRead_txtin _ hj, txtin_eq_read, read_setTxtin, if_pos rfl]

/-- A reserved address reads 0x00 (20_memory.md R56). -/
theorem hostRead_reserved (s : State) {a : Byte}
    (h : (0x12 ≤ a.toNat ∧ a.toNat ≤ 0x1F) ∨ a = 0x4B ∨ (0x4F ≤ a.toNat ∧ a.toNat ≤ 0x7F)) :
    hostRead s a = 0x00 := by
  unfold hostRead; rw [hostReg_reserved h]

/-- FLAGS reads as HWV under seven zeros (10_state.md R29). -/
theorem readFlags_eq (flags : Byte) : readFlags flags = 0#7 ++ flags.extractLsb' 0 1 := by
  revert flags; decide

/-- Settles O44: the array rows by the map read forwards, each named register at its one address. -/
theorem hostReadsFollowTheMap : Obligations.HostReadsFollowTheMap := fun s =>
  ⟨fun _ => hostRead_pbuf s, fun _ => hostRead_txtin s, fun _ => hostRead_txtout s,
    fun _ => hostRead_fmtout s, rfl, rfl, rfl, rfl, rfl, rfl, rfl, readFlags_eq s.flags, rfl, rfl, rfl, rfl,
    rfl, rfl, fun _ => hostRead_reserved s⟩

/-! ## 16-bit registers (20_memory.md R52) -/

@[simp] theorem highByte_append_lowByte (h : Half) : (highByte h ++ lowByte h : Half) = h :=
  BitVec.extractLsb'_append_extractLsb'_eq_extractLsb' rfl |>.trans (BitVec.extractLsb'_eq_self ..)

@[simp] theorem highByte_append (u v : Byte) : highByte (u ++ v) = u :=
  BitVec.extractLsb'_append_eq_left

@[simp] theorem lowByte_append (u v : Byte) : lowByte (u ++ v) = v :=
  BitVec.extractLsb'_append_eq_right

/-- Settles O43: each pair of addresses reads as the two halves of one register. -/
theorem wideRegistersAreLittleEndian : Obligations.WideRegistersAreLittleEndian := fun s =>
  ⟨highByte_append_lowByte s.cmdImm16, highByte_append_lowByte s.statusDetail,
    highByte_append_lowByte s.len,
    congrArg (assembleWord s.cmdOp · s.cmdImm8) (highByte_append_lowByte s.cmdImm16)⟩

/-! ## FLAGS -/

theorem setHwv_hwv (flags : Byte) : (setHwv flags).getLsbD 0 = true := by
  simp [setHwv]

@[simp] theorem setHwv_setHwv (flags : Byte) : setHwv (setHwv flags) = setHwv flags := by
  rw [setHwv, setHwv, BitVec.or_assoc, BitVec.or_self]

/-- Writing 1 clears HWV (20_memory.md R59). -/
theorem writeFlags_of_set {v : Byte} (h : v.getLsbD 0 = true) (flags : Byte) :
    writeFlags v flags = flags &&& 0xFE := if_pos h

theorem writeFlags_hwv {v : Byte} (h : v.getLsbD 0 = true) (flags : Byte) :
    (writeFlags v flags).getLsbD 0 = false := by
  simp [writeFlags_of_set h]

/-- Writing 0 leaves FLAGS. -/
theorem writeFlags_of_clear {v : Byte} (h : v.getLsbD 0 = false) (flags : Byte) :
    writeFlags v flags = flags := if_neg (ne_true_of_eq_false h)

@[simp] theorem writeFlags_writeFlags (v flags : Byte) :
    writeFlags v (writeFlags v flags) = writeFlags v flags := by
  cases h : v.getLsbD 0 with
  | true => simp only [writeFlags_of_set h, BitVec.and_assoc, BitVec.and_self]
  | false => simp only [writeFlags_of_clear h]

/-- Bits 7:1 of FLAGS are read-only (10_state.md R29). -/
theorem extractLsb'_and_0xFE (flags : Byte) : (flags &&& 0xFE).extractLsb' 1 7 = flags.extractLsb' 1 7 := by
  revert flags; decide

theorem writeFlags_reserved (v flags : Byte) :
    (writeFlags v flags).extractLsb' 1 7 = flags.extractLsb' 1 7 := by
  cases h : v.getLsbD 0 with
  | true => rw [writeFlags_of_set h, extractLsb'_and_0xFE]
  | false => rw [writeFlags_of_clear h]

/-! ## Host stores -/

/-- A write to a byte of PBUF goes through the guard of 20_memory.md R58. -/
theorem hostStore_pbuf (s : State) {k : Nat} (hk : k < 18) (v : Byte) :
    hostStore (BitVec.ofNat 8 k) v s = hostWritePbuf k v s := by
  unfold hostStore; rw [hostReg_pbuf hk]

theorem hostStore_txtin (s : State) {j : Nat} (hj : j < 16) (v : Byte) :
    hostStore (BitVec.ofNat 8 (0x20 + j)) v s = s.setTxtin j v := by
  unfold hostStore; rw [hostReg_txtin hj]

theorem hostWritePbuf_of_detached {s : State} (h : viewOf s.vstate = 0#2) (k : Nat) (v : Byte) :
    hostWritePbuf k v s = s.setPbuf k v :=
  if_neg (by simp [attached_false_iff.mpr h])

theorem hostWritePbuf_of_attached {s : State} (h : viewOf s.vstate ≠ 0#2) (k : Nat) (v : Byte) :
    hostWritePbuf k v s = s.setFlags (setHwv s.flags) :=
  if_pos (attached_iff.mpr h)

/-- Every other address that can be written is PBUF, TXTIN, FLAGS or a command register. -/
theorem hostStore_eq_self {a : Byte} (s : State) (v : Byte)
    (h : (0x12 ≤ a.toNat ∧ a.toNat ≤ 0x1F) ∨ (0x30 ≤ a.toNat ∧ a.toNat ≤ 0x3F) ∨
      (0x44 ≤ a.toNat ∧ a.toNat ≤ 0x46) ∨ (0x48 ≤ a.toNat ∧ a.toNat ≤ 0xFF)) :
    hostStore a v s = s := by
  rcases hostStore_cases a v s with ⟨k, hk, ha, -⟩ | ⟨j, hj, ha, -⟩ | ⟨rfl, -⟩ | ⟨rfl, -⟩ | ⟨rfl, -⟩ |
    ⟨rfl, -⟩ | ⟨rfl, -⟩ | e
  · omega
  · omega
  · exact absurd h (by decide)
  · exact absurd h (by decide)
  · exact absurd h (by decide)
  · exact absurd h (by decide)
  · exact absurd h (by decide)
  · exact e

theorem setPbuf_setPbuf (s : State) (k : Nat) (v : Byte) : (s.setPbuf k v).setPbuf k v = s.setPbuf k v :=
  congrArg s.setMem (Memory.write_write ..)

theorem setTxtin_setTxtin (s : State) (j : Nat) (v : Byte) :
    (s.setTxtin j v).setTxtin j v = s.setTxtin j v :=
  congrArg s.setMem (Memory.write_write ..)

/-- Neither branch of the guard attaches or releases a view, so the second write takes the branch of the
first. -/
theorem hostWritePbuf_hostWritePbuf (k : Nat) (v : Byte) (s : State) :
    hostWritePbuf k v (hostWritePbuf k v s) = hostWritePbuf k v s := by
  by_cases h : viewOf s.vstate = 0#2
  · rw [hostWritePbuf_of_detached h, hostWritePbuf_of_detached (s := s.setPbuf k v) h, setPbuf_setPbuf]
  · rw [hostWritePbuf_of_attached h,
      hostWritePbuf_of_attached (s := s.setFlags (setHwv s.flags)) h]
    exact congrArg s.setFlags (setHwv_setHwv s.flags)

/-- Storing the same byte again changes nothing (20_memory.md R59): the case of each register that can be
written. -/
theorem hostStore_hostStore (a v : Byte) (s : State) :
    hostStore a v (hostStore a v s) = hostStore a v s := by
  unfold hostStore
  cases hostReg a with
  | pbuf k => exact hostWritePbuf_hostWritePbuf k v s
  | txtin j => exact setTxtin_setTxtin s j v
  | cmdImm16Low => exact congrArg (fun h => s.setCmdImm16 (h ++ v)) (highByte_append _ v)
  | cmdImm16High => exact congrArg (fun h => s.setCmdImm16 (v ++ h)) (lowByte_append v _)
  | flags => exact congrArg s.setFlags (writeFlags_writeFlags v s.flags)
  | _ => rfl

/-! ## The steps that access the port -/

theorem step_read {s : State} {a : Byte} {es : List HostEvent} (h : s.pending = .read a :: es) :
    step s = .next { s with returned := hostRead s a :: s.returned, pending := es } :=
  step_event h

/-- The addresses of PBUF and TXTIN lie below the command registers. -/
theorem ofNat_ne_cmdOp {a : Nat} (h : a < 0x40) : BitVec.ofNat 8 a ≠ 0x43 := by
  revert a; decide

theorem step_write_pbuf {s : State} {k : Nat} {v : Byte} {es : List HostEvent} (hk : k < 18)
    (h : s.pending = .write (BitVec.ofNat 8 k) v :: es) :
    step s = .next (hostWritePbuf k v (s.setPending es)) := by
  rw [step_write h (ofNat_ne_cmdOp (by omega)), hostStore_pbuf _ hk]

theorem step_write_txtin {s : State} {j : Nat} {v : Byte} {es : List HostEvent} (hj : j < 16)
    (h : s.pending = .write (BitVec.ofNat 8 (0x20 + j)) v :: es) :
    step s = .next ((s.setPending es).setTxtin j v) := by
  rw [step_write h (ofNat_ne_cmdOp (by omega)), hostStore_txtin _ hj]

theorem step_write_flags {s : State} {v : Byte} {es : List HostEvent} (h : s.pending = .write 0x47 v :: es) :
    step s = .next { s with flags := writeFlags v s.flags, pending := es } :=
  step_write h (by decide)

/-- With no view attached a PBUF write is stored (20_memory.md R58). -/
theorem step_write_pbuf_of_detached {s : State} {k : Nat} {v : Byte} {es : List HostEvent} (hk : k < 18)
    (hv : viewOf s.vstate = 0#2) (h : s.pending = .write (BitVec.ofNat 8 k) v :: es) :
    step s = .next ((s.setPending es).setPbuf k v) :=
  (step_write_pbuf hk h).trans (congrArg _ (hostWritePbuf_of_detached (s := s.setPending es) hv k v))

/-- A PBUF write under a view is dropped and recorded (20_memory.md R58). -/
theorem step_write_pbuf_of_attached {s : State} {k : Nat} {v : Byte} {es : List HostEvent} (hk : k < 18)
    (hv : viewOf s.vstate ≠ 0#2) (h : s.pending = .write (BitVec.ofNat 8 k) v :: es) :
    step s = .next { s with flags := setHwv s.flags, pending := es } :=
  (step_write_pbuf hk h).trans (congrArg _ (hostWritePbuf_of_attached (s := s.setPending es) hv k v))

/-- A run goes on from where its first step leads. -/
theorem run_succ_of_step {M : Host.Core} {s t : M.State} (n : Nat) (h : M.step s = .next t) :
    M.run (n + 1) s = M.run n t := by
  rw [Host.Core.run, h]

/-! ## The statements -/

/-- Settles O45: no register that can be written stands at such an address, and a FLAGS write keeps the
reserved bits. -/
theorem reservedAndReadOnlyIgnoreWrites : Obligations.ReservedAndReadOnlyIgnoreWrites := by
  refine ⟨fun s a v es ha hp => ?_, fun s a => hostRead_reserved s, fun s t v es hp ht => ?_⟩
  · have hne : a ≠ 0x43 := by rintro rfl; exact absurd ha (by decide)
    rw [step_write hp hne, hostStore_eq_self _ v ha]; rfl
  · cases (step_write_flags hp).symm.trans ht
    exact writeFlags_reserved v s.flags

/-- Settles O46: the two branches of the guard, and the read side of the map. -/
theorem viewGuardsThePacketBuffer : Obligations.ViewGuardsThePacketBuffer := by
  refine fun s k v es hk =>
    ⟨fun hp => ⟨fun hv => ?_, fun hv => step_write_pbuf_of_attached hk hv hp⟩, hostRead_pbuf s hk⟩
  refine ⟨_, step_write_pbuf_of_detached hk hv hp, rfl, fun a => ?_⟩
  rw [read_setPbuf, Config.pbufBase, Nat.zero_add]; rfl

/-- Issuing REL twice under a view: the first releases it, the second reports E_NO_VIEW (40_view.md R104). -/
theorem issue_rel_not_idempotent :
    issue 0x03 { State.reset with vstate := 0x01 } = .next { State.reset with cmdOp := 0x03 } ∧
    issue 0x03 { State.reset with cmdOp := 0x03 } =
      .next { State.reset with cmdOp := 0x03, statusCode := 0x11 } :=
  ⟨rfl, rfl⟩

/-- Settles O47: one clause per kind of access. -/
theorem hostAccessSideEffects : Obligations.HostAccessSideEffects := by
  refine ⟨fun s a es => step_read, fun s v es => step_issue, ?_, fun s v es hp => ⟨fun hv => ?_, fun hv => ?_⟩,
    fun s k v es hk hv hp => ⟨_, step_write_pbuf_of_attached hk hv hp, rfl, setHwv_hwv s.flags⟩,
    fun s a v _ => hostStore_hostStore a v s⟩
  · exact ⟨_, _, _, 0x03, issue_rel_not_idempotent.1, issue_rel_not_idempotent.2, by decide⟩
  · exact ⟨_, step_write_flags hp, rfl, writeFlags_hwv hv s.flags⟩
  · rw [step_write_flags hp, writeFlags_of_clear hv]

/-- Settles O48: the write stores the byte, and the read returns what is stored. -/
theorem stagedByteReadsBack : Obligations.StagedByteReadsBack := by
  intro s j v es hj hp
  have hwrite := step_write_txtin hj hp
  have hread := step_read (s := (s.setPending (.read (BitVec.ofNat 8 (0x20 + j)) :: es)).setTxtin j v) rfl
  rw [hostRead_setTxtin _ hj] at hread
  exact ⟨_, (run_succ_of_step (M := core) 1 hwrite).trans (run_succ_of_step (M := core) 0 hread), rfl, rfl,
    read_setTxtin _ j v⟩

end Sys2Proof.Machine

/-! # Statements about the encoding (30_encoding.md)

Each row of the opcode map read as a partial inverse: the command a row builds from a word encodes to that
word with the row's reserved bits cleared. From it come both directions of the round trip, the illegal words
and, with the steps of the four host writes, the issuing of a command. -/

namespace Sys2Proof

/-! ## Operands of an assembled word (30_encoding.md R83) -/

section
variable (op : Byte) (a : Half) (b : Byte)

@[simp] theorem operandL_assembleWord : operandL (assembleWord op a b) = a := imm16Field_assembleWord op a b

@[simp] theorem operandW_assembleWord : operandW (assembleWord op a b) = b.getLsbD 0 :=
  getLsbD_zero_assembleWord op a b

@[simp] theorem operandV_assembleWord : operandV (assembleWord op a b) = b := imm8Field_assembleWord op a b

@[simp] theorem operandT_assembleWord : operandT (assembleWord op a b) = b.extractLsb' 0 4 :=
  extractLow_assembleWord op a b (by decide)

@[simp] theorem operandB_assembleWord :
    operandB (assembleWord op a b) = brightnessOfBrv (b.extractLsb' 0 2) :=
  congrArg brightnessOfBrv (extractLow_assembleWord op a b (by decide))

end

/-! ## Reserved bits, field by field (30_encoding.md R82) -/

/-- No form reserves a bit of the op. -/
theorem reservedBits_fields (f : Form) :
    reservedBits f = assembleWord 0 (imm16Field (reservedBits f)) (imm8Field (reservedBits f)) := by
  cases f <;> decide

/-- Clearing a form's reserved bits clears them in the two operand fields. -/
theorem assembleWord_clear_reserved (op : Byte) (a : Half) (b : Byte) (f : Form) :
    assembleWord op a b &&& ~~~reservedBits f =
      assembleWord op (a &&& ~~~imm16Field (reservedBits f)) (b &&& ~~~imm8Field (reservedBits f)) := by
  have h : ~~~reservedBits f =
      assembleWord 0xFF (~~~imm16Field (reservedBits f)) (~~~imm8Field (reservedBits f)) := by
    cases f <;> decide
  rw [h, assembleWord_and, byte_and_ones]

/-- The mask test of a row under its own op is the test of its form's reserved bits. -/
theorem and_mask_eq_pattern_iff {r : OpRow} (hr : r ∈ opcodeMap) {cw : CommandWord} (ho : r.op = opField cw) :
    cw &&& r.mask = r.pattern ↔ cw &&& reservedBits r.form = 0 := by
  obtain ⟨hm, hp⟩ := opcodeMap_masks r hr
  have hmask : 0xFF000000#32 ||| reservedBits r.form =
      assembleWord 0xFF (imm16Field (reservedBits r.form)) (imm8Field (reservedBits r.form)) := by
    cases r.form <;> decide
  have hzero : (0 : CommandWord) = assembleWord 0 0 0 := by decide
  rw [hm, hp, hmask, reservedBits_fields, hzero, ← assembleWord_fields cw, ho, assembleWord_and,
    assembleWord_and, assembleWord_inj, assembleWord_inj, byte_and_ones]
  simp

/-! ## The rows of the opcode map (30_encoding.md R84) -/

/-- The row of an op is the one row of the map that carries it, since no op stands in two. -/
theorem rowOf_eq_some_iff {op : Byte} {r : OpRow} : rowOf op = some r ↔ r ∈ opcodeMap ∧ r.op = op := by
  have hinj := List.inj_on_of_nodup_map (List.pairwise_map.mpr opcodeMap_ops_distinct)
  refine ⟨fun h => ⟨List.mem_of_find?_eq_some h, by simpa using List.find?_some h⟩, fun ⟨hr, ho⟩ => ?_⟩
  cases h : rowOf op with
  | none => exact absurd ho (by simpa using List.find?_eq_none.mp h r hr)
  | some r' =>
    have ho' : r'.op = op := by simpa using List.find?_some h
    rw [hinj hr (List.mem_of_find?_eq_some h) (ho.trans ho'.symm)]

/-! A claim about every row is stated row by row by `simp`; what is left is one fact per form. -/

/-- A row builds commands of its op. -/
theorem opcode_build (cw : CommandWord) : ∀ r ∈ opcodeMap, opcode (r.build cw) = r.op := by
  simp [opcodeMap, viewRows, accessorRows, mutatorRows, conversionRows, opcode]

/-- The imm16 field of what a row builds: the operand L, or zeros where the form reserves the field. -/
theorem encodeImm16_build (op : Byte) (a : Half) (b : Byte) : ∀ r ∈ opcodeMap,
    encodeImm16 (r.build (assembleWord op a b)) = a &&& ~~~imm16Field (reservedBits r.form) := by
  have hall : a &&& 0xFFFF#16 = a := half_and_ones a
  simp [opcodeMap, viewRows, accessorRows, mutatorRows, conversionRows, encodeImm16, reservedBits, imm16Field,
    hall]

/-- The operand W, T or B under reserved zeros is its field with the reserved bits cleared. -/
theorem flag_clear_reserved (b : Byte) : 0#7 ++ BitVec.ofBool b[0] = b &&& 0x01#8 := by
  revert b; decide

theorem tally_clear_reserved (b : Byte) : 0#4 ++ b.extractLsb' 0 4 = b &&& 0x0F#8 := by
  revert b; decide

theorem brv_clear_reserved (b : Byte) : 0#6 ++ b.extractLsb' 0 2 = b &&& 0x03#8 := by
  revert b; decide

/-- The imm8 field of what a row builds: the operand W, V, T or B of its form under the reserved zeros. -/
theorem encodeImm8_build (op : Byte) (a : Half) (b : Byte) : ∀ r ∈ opcodeMap,
    encodeImm8 (r.build (assembleWord op a b)) = b &&& ~~~imm8Field (reservedBits r.form) := by
  have hall : b &&& 0xFF#8 = b := byte_and_ones b
  simp [opcodeMap, viewRows, accessorRows, mutatorRows, conversionRows, encodeImm8, reservedBits, imm8Field,
    hall, flag_clear_reserved, tally_clear_reserved, brv_clear_reserved, Machine.brvOf_brightnessOfBrv]

/-- Clearing bits leaves a word as it was exactly when they are clear in it. -/
theorem and_not_eq_self_iff {n : Nat} {x m : BitVec n} : x &&& ~~~m = x ↔ x &&& m = 0 := by
  constructor
  · intro h
    rw [← h, BitVec.and_assoc, BitVec.not_and_self]
    exact BitVec.and_zero
  · intro h
    calc x &&& ~~~m = (x &&& ~~~m) ||| (x &&& m) := by rw [h]; exact BitVec.or_zero.symm
      _ = x := by rw [← BitVec.and_or_distrib_left, BitVec.not_or_self, BitVec.and_allOnes]

/-- Encoding what a row builds from a word of its op gives the word with the form's reserved bits cleared. -/
theorem encode_build {r : OpRow} (hr : r ∈ opcodeMap) {cw : CommandWord} (ho : r.op = opField cw) :
    encode (r.build cw) = cw &&& ~~~reservedBits r.form := by
  rw [encode, opcode_build _ _ hr, ho, ← assembleWord_fields cw, encodeImm16_build _ _ _ _ hr,
    encodeImm8_build _ _ _ _ hr, opField_assembleWord, assembleWord_clear_reserved]

/-- What a row builds from a word of its op encodes to that word exactly when the form's reserved bits are
clear. -/
theorem encode_build_eq_iff {r : OpRow} (hr : r ∈ opcodeMap) {cw : CommandWord} (ho : r.op = opField cw) :
    encode (r.build cw) = cw ↔ cw &&& reservedBits r.form = 0 := by
  rw [encode_build hr ho, and_not_eq_self_iff]

/-- The operand W, T or B reads back from the imm8 field it is encoded in. -/
theorem flag_of_encoded (w : Bool) : (0#7 ++ BitVec.ofBool w : Byte)[0] = w := by cases w <;> rfl

theorem tally_of_encoded (t : BitVec 4) : (0#4 ++ t : Byte).extractLsb' 0 4 = t :=
  BitVec.extractLsb'_append_eq_right

theorem brv_of_encoded (c : BitVec 2) : (0#6 ++ c : Byte).extractLsb' 0 2 = c :=
  BitVec.extractLsb'_append_eq_right

/-- Every command has a row, and the row reads the command's operands back from its word. -/
theorem exists_row_build_encode (i : Instr) : ∃ r, rowOf (opcode i) = some r ∧ r.build (encode i) = i := by
  cases i with
  | rel | val | gaddr | gtally | gbrt | gtext | fmt => exact ⟨_, rfl, rfl⟩
  | attu l w | attc l w => exact ⟨_, rfl, by simp [encode, encodeImm16, encodeImm8, flag_of_encoded]⟩
  | saddr v | a2b v => exact ⟨_, rfl, by simp [encode, encodeImm8]⟩
  | stally t => exact ⟨_, rfl, by simp [encode, encodeImm8, tally_of_encoded]⟩
  | sbrt b | b2a b =>
    exact ⟨_, rfl, by simp [encode, encodeImm8, brv_of_encoded, Machine.brightnessOfBrv_brvOf]⟩
  | stext l | stextp l => exact ⟨_, rfl, by simp [encode, encodeImm16]⟩

/-- An op is assigned exactly when it is a command's. -/
theorem rowOf_eq_none_iff {op : Byte} : rowOf op = none ↔ ∀ i, opcode i ≠ op := by
  refine ⟨fun h i hi => ?_, fun h => ?_⟩
  · obtain ⟨r, hr, -⟩ := exists_row_build_encode i
    rw [hi, h] at hr
    cases hr
  · refine Option.eq_none_iff_forall_ne_some.mpr fun r hr => ?_
    obtain ⟨hmem, hop⟩ := rowOf_eq_some_iff.mp hr
    exact h _ ((opcode_build 0 r hmem).trans hop)

/-! ## The decoder (30_encoding.md R85, R86) -/

/-- A word decodes by the row of its op, when no bit the row's form reserves is set. -/
theorem decode_eq_of_mem {r : OpRow} (hr : r ∈ opcodeMap) {cw : CommandWord} (ho : r.op = opField cw) :
    decode cw = if cw &&& reservedBits r.form = 0 then .ok (r.build cw)
      else .error (.reservedBitSet (opField cw)) := by
  simp only [decode_of_row (rowOf_eq_some_iff.mpr ⟨hr, ho⟩), and_mask_eq_pattern_iff hr ho]

theorem decode_eq_ok_iff {cw : CommandWord} {i : Instr} : decode cw = .ok i ↔
    ∃ r ∈ opcodeMap, r.op = opField cw ∧ cw &&& reservedBits r.form = 0 ∧ r.build cw = i := by
  refine ⟨fun h => ?_, fun ⟨r, hr, ho, hres, hi⟩ => by rw [decode_eq_of_mem hr ho, if_pos hres, hi]⟩
  cases hrow : rowOf (opField cw) with
  | none => cases (decode_of_no_row hrow).symm.trans h
  | some r =>
    obtain ⟨hr, ho⟩ := rowOf_eq_some_iff.mp hrow
    rw [decode_eq_of_mem hr ho] at h
    split at h
    · exact ⟨r, hr, ho, ‹_›, Except.ok.inj h⟩
    · cases h

/-- The illegal words (30_encoding.md R86). -/
theorem exists_decode_eq_error_iff {cw : CommandWord} : (∃ e, decode cw = .error e) ↔
    (∀ i, opcode i ≠ opField cw) ∨
    (∃ r ∈ opcodeMap, r.op = opField cw ∧ cw &&& reservedBits r.form ≠ 0) := by
  refine ⟨fun ⟨e, he⟩ => ?_, ?_⟩
  · cases hrow : rowOf (opField cw) with
    | none => exact .inl (rowOf_eq_none_iff.mp hrow)
    | some r =>
      obtain ⟨hr, ho⟩ := rowOf_eq_some_iff.mp hrow
      refine .inr ⟨r, hr, ho, fun hres => ?_⟩
      rw [decode_eq_of_mem hr ho, if_pos hres] at he
      cases he
  · rintro (h | ⟨r, hr, ho, hres⟩)
    · exact ⟨_, decode_of_no_row (rowOf_eq_none_iff.mpr h)⟩
    · exact ⟨_, (decode_eq_of_mem hr ho).trans (if_neg hres)⟩

/-! ## The round trips, settled -/

/-- Settles O3: a command's row builds the command from its word, so the word has no reserved bit set. -/
theorem decodeInvertsEncode : Obligations.DecodeInvertsEncode := by
  intro i
  obtain ⟨r, hrow, hbuild⟩ := exists_row_build_encode i
  obtain ⟨hr, hop⟩ := rowOf_eq_some_iff.mp hrow
  have ho : r.op = opField (encode i) := hop.trans (opField_assembleWord ..).symm
  have hres := (encode_build_eq_iff hr ho).mp (congrArg encode hbuild)
  exact decode_eq_ok_iff.mpr ⟨r, hr, ho, hres, hbuild⟩

/-- Settles O4: a word that decodes has no reserved bit set, so what its row builds encodes to it. -/
theorem encodeInvertsDecode : Obligations.EncodeInvertsDecode := by
  intro cw i h
  obtain ⟨r, hr, ho, hres, rfl⟩ := decode_eq_ok_iff.mp h
  exact (encode_build_eq_iff hr ho).mpr hres

/-- Settles O2: each word is the encoding of the command beside it. -/
theorem sampleWordsDecode : Obligations.SampleWordsDecode :=
  ⟨decodeInvertsEncode (.attu 18 true), decodeInvertsEncode (.attc 65535 false), decodeInvertsEncode .rel,
    decodeInvertsEncode .gtext, decodeInvertsEncode (.saddr 0x7E), decodeInvertsEncode (.stally 0b1001),
    decodeInvertsEncode (.sbrt .oneHalf), decodeInvertsEncode (.stextp 5),
    decodeInvertsEncode (.b2a .oneSeventh), decodeInvertsEncode (.a2b 200), decodeInvertsEncode .fmt⟩

end Sys2Proof

namespace Sys2Proof.Machine

/-! ## Issuing a word (30_encoding.md R81, R86) -/

/-- Issuing an illegal word only reports it (30_encoding.md R85). -/
theorem executeWord_of_illegal {s : State} (h : ∃ e, decode s.commandWord = .error e) :
    executeWord s = .next { s with statusCode := 0x10, statusDetail := s.cmdOp.setWidth 16 } := by
  obtain ⟨e, he⟩ := h
  rw [executeWord_of_error he, execIllegal_eq]

/-- The assigned ops are those of the rows, each once; 240 values are left (30_encoding.md R86). -/
theorem length_unassigned_ops :
    ((List.range 256).filter fun op => !(opcodeMap.any fun r => r.op == BitVec.ofNat 8 op)).length = 240 := by
  have hperm : ((List.range 256).filter fun op => opcodeMap.any fun r => r.op == BitVec.ofNat 8 op).Perm
      (opcodeMap.map fun r => r.op.toNat) := by
    refine (List.perm_ext_iff_of_nodup (List.nodup_range.filter _) ?_).mpr fun n => ?_
    · exact List.pairwise_map.mpr (opcodeMap_ops_distinct.imp fun hne he => hne (BitVec.eq_of_toNat_eq he))
    · simp only [List.mem_filter, List.mem_range, List.any_eq_true, beq_iff_eq, List.mem_map]
      constructor
      · rintro ⟨hn, r, hr, ho⟩
        exact ⟨r, hr, by rw [ho, BitVec.toNat_ofNat, Nat.mod_eq_of_lt hn]⟩
      · rintro ⟨r, hr, rfl⟩
        exact ⟨r.op.isLt, r, hr, by simp⟩
  have hsplit := List.length_eq_length_filter_add (l := List.range 256)
    fun op => opcodeMap.any fun r => r.op == BitVec.ofNat 8 op
  rw [hperm.length_eq, List.length_map, List.length_range] at hsplit
  have hrows : opcodeMap.length = 16 := rfl
  omega

/-- Settles O5: the decoder's two refusals, the count over the map, and the report of R85. -/
theorem illegalWordsOnlyReport : Obligations.IllegalWordsOnlyReport := by
  refine ⟨fun cw => exists_decode_eq_error_iff, length_unassigned_ops, by decide, ?_⟩
  rintro cw h s rfl
  rw [executeWord_of_illegal h, opField_commandWord]

/-! The steps of the host writes to the four command registers (20_memory.md R55, 30_encoding.md R81). -/

theorem step_write_imm8 {s : State} {v : Byte} {es : List HostEvent} (h : s.pending = .write 0x40 v :: es) :
    step s = .next { s with cmdImm8 := v, pending := es } :=
  step_write h (by decide)

theorem step_write_imm16Low {s : State} {v : Byte} {es : List HostEvent}
    (h : s.pending = .write 0x41 v :: es) :
    step s = .next { s with cmdImm16 := highByte s.cmdImm16 ++ v, pending := es } :=
  step_write h (by decide)

theorem step_write_imm16High {s : State} {v : Byte} {es : List HostEvent}
    (h : s.pending = .write 0x42 v :: es) :
    step s = .next { s with cmdImm16 := v ++ lowByte s.cmdImm16, pending := es } :=
  step_write h (by decide)

theorem step_issue_of_ok {s : State} {v : Byte} {es : List HostEvent} {i : Instr}
    (h : s.pending = .write 0x43 v :: es) (hd : decode (assembleWord v s.cmdImm16 s.cmdImm8) = .ok i) :
    step s = exec i { s with cmdOp := v, pending := es } :=
  (step_issue h).trans (executeWord_of_ok hd)

/-- Settles O1: one clause per command register. -/
theorem cmdOpWriteIssuesDecodedWord : Obligations.CmdOpWriteIssuesDecodedWord := fun _ _ _ =>
  ⟨fun hp => ⟨fun _ => step_issue_of_ok hp, fun e he => (step_issue hp).trans (executeWord_of_illegal ⟨e, he⟩)⟩,
    step_write_imm8, step_write_imm16Low, step_write_imm16High⟩

/-! ## Pseudo-instructions (30_encoding.md R89, R90) -/

/-- The four writes of operands at their widths: the bytes of the command registers, low addresses first. -/
theorem issueWrites_toNat (op : Byte) (a : Half) (b : Byte) :
    issueWrites op.toNat a.toNat b.toNat =
      [.write 0x40 b, .write 0x41 (lowByte a), .write 0x42 (highByte a), .write 0x43 op] := by
  have hlow : BitVec.ofNat 8 (a.toNat % 256) = lowByte a := by
    apply BitVec.eq_of_toNat_eq
    simp [lowByte]
  have hhigh : BitVec.ofNat 8 (a.toNat / 256) = highByte a := by
    apply BitVec.eq_of_toNat_eq
    simp [highByte, Nat.shiftRight_eq_div_pow]
  simp [issueWrites, hw, hlow, hhigh]

theorem toNat_zeros_append (m : Nat) {n : Nat} (x : BitVec n) : (0#m ++ x).toNat = x.toNat := by
  simp

/-- A command's pseudo-instruction writes the fields of its encoding. -/
theorem expand_lineOf (i : Instr) :
    expand (lineOf i) = issueWrites (opcode i).toNat (encodeImm16 i).toNat (encodeImm8 i).toNat := by
  cases i with
  | attu l w | attc l w =>
    exact congrArg (issueWrites _ _) ((toNat_zeros_append 7 _).trans (BitVec.toNat_ofBool w)).symm
  | stally t => exact congrArg (issueWrites _ _) (toNat_zeros_append 4 t).symm
  | sbrt b | b2a b => exact congrArg (issueWrites _ _) (toNat_zeros_append 6 (brvOf b)).symm
  | _ => rfl

/-! The runs of the machine, stated at its own state type so that they chain with the steps. -/

theorem run_one {M : Host.Core} (s : M.State) : M.run 1 s = M.step s := by
  rw [Host.Core.run]
  cases M.step s <;> rfl

theorem run_core_one (s : State) : Host.Core.run core 1 s = step s := run_one (M := core) s

theorem run_core_succ {s t : State} (n : Nat) (h : step s = .next t) :
    Host.Core.run core (n + 1) s = Host.Core.run core n t :=
  run_succ_of_step n h

/-- Settles O6: three writes that store the operand fields, and the write that issues the command's word. -/
theorem pseudoInstructionIssuesItsCommand : Obligations.PseudoInstructionIssuesItsCommand := by
  intro i s es hp
  rw [expand_lineOf, issueWrites_toNat] at hp
  have hword : decode (assembleWord (opcode i) (encodeImm16 i) (encodeImm8 i)) = .ok i :=
    decodeInvertsEncode i
  refine Eq.trans (run_core_succ 3 (step_write_imm8 hp)) ?_
  refine Eq.trans (run_core_succ 2 (step_write_imm16Low rfl)) ?_
  refine Eq.trans (run_core_succ 1 (step_write_imm16High rfl)) ?_
  simp only [lowByte_append, highByte_append_lowByte]
  exact (run_core_one _).trans (step_issue_of_ok rfl hword)

/-- Writes of bytes that end within PBUF store them all, while no view is attached. -/
theorem run_writesFrom (bs : List Nat) {s : State} {k : Nat} {es : List HostEvent}
    (hk : k + bs.length ≤ 18) (hv : viewOf s.vstate = 0#2) (hp : s.pending = writesFrom k bs ++ es) :
    Host.Core.run core bs.length s =
      .next { s with mem := Memory.writeBytes s.mem k (bs.map (BitVec.ofNat 8)), pending := es } := by
  induction bs generalizing s k with
  | nil => subst hp; rfl
  | cons b bs ih =>
    rw [List.length_cons] at hk ⊢
    have hstep : step s = .next { s with
        mem := Memory.write s.mem k (BitVec.ofNat 8 b), pending := writesFrom (k + 1) bs ++ es } := by
      rw [step_write_pbuf_of_detached (by omega) hv hp, State.setPbuf, Config.pbufBase, Nat.zero_add]
      rfl
    exact (run_core_succ _ hstep).trans (ih (by omega) hv rfl)

/-- Settles O49: `ldbuf` is a run of such writes from the first byte of PBUF. -/
theorem ldbufLoadsThePacketBuffer : Obligations.LdbufLoadsThePacketBuffer := by
  intro s bs es hwf hv hp
  obtain ⟨⟨-, hlen⟩, -⟩ : (1 ≤ bs.length ∧ bs.length ≤ 18) ∧ _ := by
    simpa only [HostLine.wellFormed, Bool.and_eq_true, decide_eq_true_eq] using hwf
  refine ⟨_, run_writesFrom bs (k := 0) (by omega) hv hp, rfl, fun a => ?_⟩
  rw [Memory.read_writeBytes]
  simp

end Sys2Proof.Machine

/-! # Statements about the view commands (40_view.md)

Issuing a word of a given form; what a command does when its check is known, and what its check is with no
view attached; the validation pass as ATTC and VAL report it; the commands that leave the inputs of
validation alone. -/

namespace Sys2Proof.Machine

/-! ## Issuing a word of one form (30_encoding.md R82, R86) -/

/-- A word of the op of a row issues the command the row builds when no bit the row's form reserves is set,
and only reports otherwise. -/
theorem issues_of_row {cw : CommandWord} {i : Instr} {f : Form}
    (hrow : ∃ r, rowOf (opcode i) = some r ∧ r.form = f ∧ r.build cw = i) (ho : opField cw = opcode i) :
    (cw &&& reservedBits f = 0 → IssuesAs cw i) ∧ (cw &&& reservedBits f ≠ 0 → IssuesIllegal cw) := by
  obtain ⟨r, hr, rfl, hi⟩ := hrow
  obtain ⟨hmem, hop⟩ := rowOf_eq_some_iff.mp hr
  have hop' : r.op = opField cw := hop.trans ho.symm
  obtain ⟨-, -, -, hillegal⟩ := illegalWordsOnlyReport
  constructor
  · rintro hres s rfl
    exact executeWord_of_ok (decode_eq_ok_iff.mpr ⟨r, hmem, hop', hres, hi⟩)
  · exact fun hres => hillegal cw (exists_decode_eq_error_iff.mpr (.inr ⟨r, hmem, hop', hres⟩))

/-- Form N reserves all operand bits, so its only legal word is its command's encoding. -/
theorem issues_of_formN {cw word : CommandWord} {i : Instr}
    (hrow : ∃ r, rowOf (opcode i) = some r ∧ r.form = .n ∧ r.build cw = i) (hword : encode i = word)
    (ho : opField cw = opcode i) :
    (cw = word → IssuesAs cw i) ∧ (cw ≠ word → IssuesIllegal cw) := by
  have ⟨r, hr, hf, hi⟩ := hrow
  obtain ⟨hmem, hop⟩ := rowOf_eq_some_iff.mp hr
  have henc : cw = word ↔ cw &&& reservedBits .n = 0 := by
    rw [← hword, ← hi, ← hf, eq_comm, encode_build_eq_iff hmem (hop.trans ho.symm)]
  simpa only [ne_eq, henc] using issues_of_row hrow ho

/-- The mask of form A tests bits 7:1. -/
theorem byte_and_0xFE_eq_zero_iff {b : Byte} : b &&& 0xFE = 0 ↔ b.extractLsb' 1 7 = 0 := by
  revert b; decide

/-- Form A reserves bits 7:1 of the imm8 field. -/
theorem and_reservedBits_formA {cw : CommandWord} :
    cw &&& reservedBits .a = 0 ↔ (imm8Field cw).extractLsb' 1 7 = 0 := by
  have hmask : reservedBits .a = assembleWord 0 0 0xFE := by decide
  have hzero : (0 : CommandWord) = assembleWord 0 0 0 := by decide
  conv_lhs => rw [hmask, hzero, ← assembleWord_fields cw, assembleWord_and, assembleWord_inj]
  simpa using byte_and_0xFE_eq_zero_iff

theorem issues_of_formA {cw : CommandWord} {i : Instr}
    (hrow : ∃ r, rowOf (opcode i) = some r ∧ r.form = .a ∧ r.build cw = i) (ho : opField cw = opcode i) :
    ((imm8Field cw).extractLsb' 1 7 = 0 → IssuesAs cw i) ∧
    ((imm8Field cw).extractLsb' 1 7 ≠ 0 → IssuesIllegal cw) := by
  simpa only [ne_eq, and_reservedBits_formA] using issues_of_row hrow ho

/-! ## A command whose check is known (60_exceptions.md R184) -/

theorem raises_of_check {i : Instr} {s : State} {f : Failure} (h : checkOf i s = some f) :
    Raises i s (errCode f.err) f.detail := exec_raises h

theorem completes_of_check {i : Instr} {s : State} (h : checkOf i s = none) :
    Completes i s (effectOf i s) := exec_completes h

/-! ## With no view attached (40_view.md R105) -/

/-- Every other command checks first that a view is attached. -/
theorem checkOf_of_detached {i : Instr} {s : State} (hi : runsWithoutView i = false)
    (hv : viewOf s.vstate = 0#2) : checkOf i s = some ⟨.noView, 0⟩ := by
  cases i with
  | attu | attc | b2a | a2b => cases hi
  | rel => exact checkAttached_of_detached hv
  | val => rw [checkOf, checkAttached_of_detached hv, Option.some_or]
  | gaddr | gtally | gbrt | gtext | fmt => exact fieldAccess_noView false hv
  | stally | sbrt => exact fieldAccess_noView true hv
  | saddr | stext | stextp => rw [checkOf, fieldAccess_noView true hv, Option.some_or]

theorem raises_of_detached {i : Instr} {s : State} (hi : runsWithoutView i = false)
    (hv : viewOf s.vstate = 0#2) : Raises i s 0x11 0 :=
  raises_of_check (checkOf_of_detached hi hv)

/-- Settles O11: the report of E_NO_VIEW is no success. -/
theorem withoutViewOnlyFourCommandsSucceed : Obligations.WithoutViewOnlyFourCommandsSucceed := by
  refine fun i s hv => ⟨fun hi => raises_of_detached hi hv, fun t ht hok => ?_⟩
  cases hi : runsWithoutView i with
  | true => rfl
  | false =>
    cases ht.symm.trans (raises_of_detached hi hv)
    cases hok

/-! ## Attaching and releasing (40_view.md R100 to R104) -/

/-- VSTATE as ATTU writes it. -/
theorem packVstate_viewUnchecked (w : Bool) :
    packVstate w viewUnchecked = if w then 0b00000101 else 0b00000001 := by
  cases w <;> rfl

/-- VSTATE as ATTC writes it. -/
theorem packVstate_viewChecked (w : Bool) :
    packVstate w viewChecked = if w then 0b00000110 else 0b00000010 := by
  cases w <;> rfl

/-- Settles O7: form A, and the one check of ATTU, that no view is attached. -/
theorem attuAttachesUncheckedView : Obligations.AttuAttachesUncheckedView := by
  refine ⟨fun cw ho => issues_of_formA ⟨_, rfl, rfl, rfl⟩ ho, fun l w s => ⟨fun hv => ?_, fun hv => ?_⟩⟩
  · exact raises_of_check (i := .attu l w) (checkDetached_of_attached hv)
  · rw [← packVstate_viewUnchecked]
    exact completes_of_check (i := .attu l w) (checkDetached_eq_none.mpr hv)

/-- Settles O9: form N, and the one check of REL, that a view is attached; its effect is VSTATE alone. -/
theorem relReleasesTheView : Obligations.RelReleasesTheView :=
  ⟨fun _ ho => issues_of_formN ⟨_, rfl, rfl, rfl⟩ rfl ho, fun _ =>
    ⟨raises_of_detached rfl, fun hv => completes_of_check (i := .rel) (checkAttached_eq_none.mpr hv)⟩⟩

/-! ## Validation (40_view.md R103, R106) -/

/-- The first bad display byte of the spec is the byte the scan stops at. -/
theorem validatePass_of_firstBad {s : State} {k : Nat} (hm : (s.pbuf 0).getLsbD 7 = true) (hk : k < 16)
    (h : FirstBad DispByte (fun j => s.pbuf (2 + j)) k) :
    validatePass 18#16 s = some ⟨.invalidDisplayByte, BitVec.ofNat 16 k⟩ := by
  obtain ⟨hbad, hok⟩ := h
  rw [dispByte_iff_isDisp, Bool.not_eq_true] at hbad
  exact validatePass_display hm hk hbad fun j hj => dispByte_iff_isDisp.mp (hok j hj)

/-- What a command does whose check, in this state, is the validation pass on length `n`. -/
theorem validation_outcomes {i : Instr} {n : Half} {s : State} (h : checkOf i s = validatePass n s) :
    (n ≠ 18 → Raises i s 0x01 n) ∧
    (n = 18 → (s.pbuf 0).getLsbD 7 = false → Raises i s 0x02 0) ∧
    (n = 18 → (s.pbuf 0).getLsbD 7 = true → ∀ k, k < 16 → FirstBad DispByte (fun j => s.pbuf (2 + j)) k →
      Raises i s 0x03 (BitVec.ofNat 16 k)) ∧
    (n = 18 → ValidBytes s → Completes i s (effectOf i s)) := by
  refine ⟨fun hn => ?_, ?_, ?_, fun hn hb => ?_⟩
  · exact raises_of_check (h.trans (validatePass_length hn))
  · rintro rfl hm
    exact raises_of_check (h.trans (validatePass_marker hm))
  · rintro rfl hm k hk hbad
    exact raises_of_check (h.trans (validatePass_of_firstBad hm hk hbad))
  · exact completes_of_check (h.trans (validatePass_eq_none_iff.mpr ⟨hn, hb⟩))

theorem checkOf_attc_of_attached {s : State} (l : Half) (w : Bool) (hv : viewOf s.vstate ≠ 0#2) :
    checkOf (.attc l w) s = some ⟨.alreadyAttached, 0⟩ := by
  rw [checkOf, checkDetached_of_attached hv, Option.some_or]

/-- With no view attached, ATTC's check is the validation pass on its operand. -/
theorem checkOf_attc_of_detached {s : State} (l : Half) (w : Bool) (hv : viewOf s.vstate = 0#2) :
    checkOf (.attc l w) s = validatePass l s := by
  rw [checkOf, checkDetached_eq_none.mpr hv, Option.none_or]

/-- Under a view, VAL's check is the validation pass on LEN. -/
theorem checkOf_val_of_attached {s : State} (hv : viewOf s.vstate ≠ 0#2) :
    checkOf .val s = validatePass s.len s := by
  rw [checkOf, checkAttached_eq_none.mpr hv, Option.none_or]

/-- Settles O8: form A, the check for an attached view, then the validation pass on the operand. -/
theorem attcAttachesOnlyValidPackets : Obligations.AttcAttachesOnlyValidPackets := by
  refine ⟨fun cw ho => issues_of_formA ⟨_, rfl, rfl, rfl⟩ ho, fun l w s => ⟨fun hv => ?_, fun hv => ?_⟩⟩
  · exact raises_of_check (checkOf_attc_of_attached l w hv)
  · obtain ⟨hlen, hmarker, hdisplay, hvalid⟩ := validation_outcomes (checkOf_attc_of_detached l w hv)
    refine ⟨hlen, hmarker, hdisplay, ?_⟩
    rintro rfl hb
    rw [← packVstate_viewChecked]
    exact hvalid rfl hb

/-- Settles O10: form N, the check for an attached view, then the validation pass on LEN. -/
theorem valReportsTheFirstViolation : Obligations.ValReportsTheFirstViolation :=
  ⟨fun _ ho => issues_of_formN ⟨_, rfl, rfl, rfl⟩ rfl ho, fun _ =>
    ⟨raises_of_detached rfl, fun hv => validation_outcomes (checkOf_val_of_attached hv)⟩⟩

/-! ## Commands that leave the inputs of validation alone (40_view.md R108) -/

/-- The commands of `readsOnly` attach and release no view. -/
theorem ne_viewChange_of_readsOnly {i : Instr} (hi : readsOnly i = true) :
    i ≠ .rel ∧ ∀ l w, i ≠ .attu l w ∧ i ≠ .attc l w := by
  cases i <;> simp [readsOnly] at hi ⊢

/-- The commands of `readsOnly` store outside PBUF, if at all. -/
theorem not_storesTo_pbuf_of_readsOnly {i : Instr} (hi : readsOnly i = true) {k : Nat} (hk : k < 18) :
    ¬ storesTo i k := by
  cases i with
  | gtext | fmt => simp only [storesTo]; omega
  | val | gaddr | gtally | gbrt | b2a | a2b => exact not_false
  | attu | attc | rel | saddr | stally | sbrt | stext | stextp => cases hi

/-- The commands of `readsOnly` leave all that a command reads. -/
theorem sameInputs_of_readsOnly {i : Instr} {s t : State} (hi : readsOnly i = true)
    (h : exec i s = .next t) : SameInputs t s where
  len := exec_keeps State.len (fun _ _ _ => rfl) h fun _ =>
    effectOf_len s (ne_viewChange_of_readsOnly hi).2
  vstate := exec_keeps State.vstate (fun _ _ _ => rfl) h fun _ =>
    effectOf_vstate s (ne_viewChange_of_readsOnly hi)
  pbuf k hk := exec_keeps (State.pbuf · k) (fun _ _ _ => rfl) h fun hc =>
    pbuf_effectOf hc (not_storesTo_pbuf_of_readsOnly hi hk)
  txtin j hj := exec_keeps (State.txtin · j) (fun _ _ _ => rfl) h fun hc => txtin_effectOf hc hj

theorem SameInputs.refl (s : State) : SameInputs s s :=
  ⟨rfl, rfl, fun _ _ => rfl, fun _ _ => rfl⟩

theorem SameInputs.trans {s t u : State} (h : SameInputs s t) (h' : SameInputs t u) : SameInputs s u where
  len := h.len.trans h'.len
  vstate := h.vstate.trans h'.vstate
  pbuf k hk := (h.pbuf k hk).trans (h'.pbuf k hk)
  txtin j hj := (h.txtin j hj).trans (h'.txtin j hj)

theorem execAll_cons {i : Instr} {is : List Instr} {s t : State} (h : exec i s = .next t) :
    execAll (i :: is) s = execAll is t := by
  rw [execAll, h]

/-- So does any number of such commands. -/
theorem sameInputs_execAll {is : List Instr} (his : ∀ i ∈ is, readsOnly i = true) {s t : State}
    (h : execAll is s = .next t) : SameInputs t s := by
  induction is generalizing s with
  | nil => cases h; exact .refl _
  | cons i is ih =>
    obtain ⟨hi, his⟩ := List.forall_mem_cons.mp his
    obtain ⟨u, hu⟩ := exec_answers i s
    rw [execAll_cons hu] at h
    exact (ih his h).trans (sameInputs_of_readsOnly hi hu)

/-- The status a command leaves is decided by its check. -/
theorem status_eq_of_checkOf_eq {i : Instr} {s s' t t' : State} (hc : checkOf i s' = checkOf i s)
    (h : exec i s = .next t) (h' : exec i s' = .next t') :
    t'.statusCode = t.statusCode ∧ t'.statusDetail = t.statusDetail := by
  cases hs : checkOf i s with
  | none =>
    cases (exec_completes hs).symm.trans h
    cases (exec_completes (hc.trans hs)).symm.trans h'
    exact ⟨rfl, rfl⟩
  | some f =>
    cases (exec_raises hs).symm.trans h
    cases (exec_raises (hc.trans hs)).symm.trans h'
    exact ⟨rfl, rfl⟩

/-- Settles O12: the two checks of VAL look at the same LEN, VSTATE and PBUF. -/
theorem validationIsIdempotent : Obligations.ValidationIsIdempotent := by
  refine ⟨fun s t u v ht hlen hvstate hpbuf hv => ?_, fun t u is his h => ?_⟩
  · have hts : SameInputs t s := sameInputs_of_readsOnly rfl ht
    have hvu : SameInputs v u := sameInputs_of_readsOnly rfl hv
    have hus : ∀ k, k < 18 → u.pbuf k = s.pbuf k := fun k hk => (hpbuf k hk).trans (hts.pbuf k hk)
    have hcheck := checkOf_val_congr (hlen.trans hts.len) (hvstate.trans hts.vstate) hus
    obtain ⟨hcode, hdetail⟩ := status_eq_of_checkOf_eq hcheck ht hv
    exact ⟨hcode, hdetail, fun k hk => (hvu.pbuf k hk).trans (hus k hk)⟩
  · obtain ⟨hlen, hvstate, hpbuf, -⟩ := sameInputs_execAll his h
    exact ⟨hlen, hvstate, hpbuf⟩

end Sys2Proof.Machine

/-! # Statements about the field accessors (41_accessors.md)

The field-access check as every field command reports it; the fields of the control byte as a read returns
them; the decoded text, and what it holds under a checked view. -/

namespace Sys2Proof.Machine

/-! ## The field-access check of a field command (60_exceptions.md R182) -/

/-- The field-access check comes before any check of an operand. -/
theorem checkOf_of_fieldAccess {i : Instr} {needW : Bool} {s : State} {f : Failure}
    (hi : fieldNeeds i = some needW) (h : fieldAccess needW s = some f) : checkOf i s = some f := by
  cases i with
  | gaddr | gtally | gbrt | gtext | fmt | stally | sbrt => cases hi; exact h
  | saddr | stext | stextp => cases hi; rw [checkOf, h, Option.some_or]
  | attu | attc | rel | val | b2a | a2b => cases hi

/-- A field command that only reads makes no other check. -/
theorem checkOf_of_reader {i : Instr} (hi : fieldNeeds i = some false) (s : State) :
    checkOf i s = fieldAccess false s := by
  cases i with
  | gaddr | gtally | gbrt | gtext | fmt => rfl
  | saddr | stally | sbrt | stext | stextp | attu | attc | rel | val | b2a | a2b => cases hi

/-- Every field command reports the errors of its field-access check. -/
theorem fieldErrors_of_fieldNeeds {i : Instr} {needW : Bool} (hi : fieldNeeds i = some needW) (s : State) :
    FieldErrors needW i s := by
  refine ⟨fun hv => ?_, fun hv hn hw => ?_, fun hv hw hl => ?_⟩
  · exact raises_of_check (checkOf_of_fieldAccess hi (fieldAccess_noView needW hv))
  · subst hn
    exact raises_of_check (checkOf_of_fieldAccess hi (fieldAccess_notWritable hv hw))
  · exact raises_of_check (checkOf_of_fieldAccess hi (fieldAccess_length hv hw hl))

theorem fieldAccess_eq_none_iff {needW : Bool} {s : State} :
    fieldAccess needW s = none ↔ FieldReady needW s := fieldAccess_eq_none

theorem checkOf_reader_of_ready {i : Instr} {s : State} (hi : fieldNeeds i = some false)
    (h : FieldReady false s) : checkOf i s = none :=
  (checkOf_of_reader hi s).trans (fieldAccess_eq_none_iff.mpr h)

theorem completes_of_ready {i : Instr} {s : State} (hi : fieldNeeds i = some false)
    (h : FieldReady false s) : Completes i s (effectOf i s) :=
  completes_of_check (checkOf_reader_of_ready hi h)

/-! ## The scalar accessors (41_accessors.md R120, R122, R124) -/

/-- The tally flags in RES: the high nibble of the control byte does not reach it. -/
theorem packetTally_setWidth (s : State) :
    (packetTally s).setWidth 8 = 0#4 ++ (s.pbuf 1).extractLsb' 0 4 :=
  BitVec.setWidth_eq_append (by decide)

/-- The BRV of a wire code is numerically the code (43_brightness.md R160). -/
theorem brvOf_wireDecode (c : BitVec 2) : brvOf (wireDecode c) = c := by
  revert c; decide

theorem brvOf_packetBrightness (s : State) : brvOf (packetBrightness s) = (s.pbuf 1).extractLsb' 4 2 :=
  brvOf_wireDecode _

/-- The brightness in RES: bits 7:6 and 3:0 of the control byte do not reach it. -/
theorem packetBrightness_setWidth (s : State) :
    (brvOf (packetBrightness s)).setWidth 8 = 0#6 ++ (s.pbuf 1).extractLsb' 4 2 := by
  rw [brvOf_packetBrightness]
  exact BitVec.setWidth_eq_append (by decide)

/-- Settles O13: form N, the field-access check, and RES, which alone is written. -/
theorem gaddrReadsTheAddress : Obligations.GaddrReadsTheAddress :=
  ⟨fun _ ho => issues_of_formN ⟨_, rfl, rfl, rfl⟩ rfl ho, fun s =>
    ⟨fieldErrors_of_fieldNeeds rfl s, fun h => completes_of_ready (i := .gaddr) rfl h⟩⟩

/-- Settles O14: form N, the field-access check, and the low nibble in RES. -/
theorem gtallyReadsTheTallyFlags : Obligations.GtallyReadsTheTallyFlags := by
  refine ⟨fun _ ho => issues_of_formN ⟨_, rfl, rfl, rfl⟩ rfl ho, fun s =>
    ⟨fieldErrors_of_fieldNeeds rfl s, fun h => ?_⟩⟩
  rw [← packetTally_setWidth]
  exact completes_of_ready (i := .gtally) rfl h

/-- Settles O15: form N, the field-access check, and bits 5:4, which are their own BRV, in RES. -/
theorem gbrtReadsTheBrightness : Obligations.GbrtReadsTheBrightness := by
  refine ⟨fun _ ho => issues_of_formN ⟨_, rfl, rfl, rfl⟩ rfl ho, fun s =>
    ⟨fieldErrors_of_fieldNeeds rfl s, fun h => ?_⟩⟩
  rw [← packetBrightness_setWidth]
  exact completes_of_ready (i := .gbrt) rfl h

/-! ## The decoded text (41_accessors.md R125 to R127) -/

/-- The model's text length is the spec's: the first null, then the trailing spaces before it. -/
theorem decodedLength_textLen (s : State) : DecodedLength s (textLen s) :=
  ⟨firstNull s, firstNull_eq_iff.mp rfl, trimSpaces_eq_iff.mp rfl⟩

/-- The storage GTEXT leaves, said of the packet's own bytes. -/
theorem read_effectOf_gtext_eq_pbuf (s : State) (a : Nat) : Memory.read (effectOf .gtext s).mem a =
    if 0x30 ≤ a ∧ a < 0x40 then (if a - 0x30 < textLen s then s.pbuf (2 + (a - 0x30)) else 0x00)
    else Memory.read s.mem a := by
  rw [read_effectOf_gtext, getD_decodedText]
  rfl

/-- Settles O16: form N, the field-access check, and the text of length `textLen` in TXTOUT. -/
theorem gtextDecodesTheText : Obligations.GtextDecodesTheText :=
  ⟨fun _ ho => issues_of_formN ⟨_, rfl, rfl, rfl⟩ rfl ho, fun s =>
    ⟨fieldErrors_of_fieldNeeds rfl s, fun h =>
      ⟨textLen s, decodedLength_textLen s, _, completes_of_ready (i := .gtext) rfl h, rfl,
        read_effectOf_gtext_eq_pbuf s⟩⟩⟩

/-- A checked view can be read: its length is that of a packet (10_state.md R36). -/
theorem fieldReady_of_checked {s : State} (hv : viewOf s.vstate = 2#2) (h : CheckedOk s) :
    FieldReady false s :=
  ⟨by rw [hv]; decide, fun hn => absurd hn Bool.false_ne_true, (h hv).1⟩

/-- In a valid packet a byte of the text is printable: it is a display byte, and no null is left before the
text's end. -/
theorem textByte_display {s : State} (h : ValidBytes s) {j : Nat} (hj : j < textLen s) :
    TextByte (s.display j) := by
  obtain ⟨-, hdisplay⟩ := h
  have hdisp : DispByte (s.display j) := hdisplay j (Nat.lt_of_lt_of_le hj (textLen_le s))
  exact hdisp.resolve_right (textLen_ne_zero_byte hj)

/-- Below the text's length, GTEXT returns the display bytes. -/
theorem effectOf_gtext_txtout_of_lt {s : State} {j : Nat} (hj : j < textLen s) :
    (effectOf .gtext s).txtout j = s.display j := by
  rw [effectOf_gtext_txtout s (Nat.lt_of_lt_of_le hj (textLen_le s)), getD_decodedText, if_pos hj]

/-- Settles O17: GTEXT completes, and the bytes it returns are the text of a valid packet. -/
theorem checkedTextIsPrintable : Obligations.CheckedTextIsPrintable := by
  intro s t hv h ht
  obtain ⟨-, hvalid⟩ := h hv
  cases (completes_of_ready (i := .gtext) rfl (fieldReady_of_checked hv h)).symm.trans ht
  refine ⟨rfl, fun j (hj : j < (effectOf .gtext s).txtoutLen.toNat) => ?_⟩
  rw [effectOf_gtext_txtoutLen] at hj
  show TextByte ((effectOf .gtext s).txtout j)
  rw [effectOf_gtext_txtout_of_lt hj]
  exact textByte_display hvalid hj

end Sys2Proof.Machine

/-! # Statements about the field mutators (42_mutators.md)

The words of forms V, T, B and L; the check of a mutator under a writable view; what a mutator makes of each
byte of storage, taken apart from the others. From the last come the statements of each mutator, that mutators
of different fields commute, and what any order of the four setters leaves. -/

namespace Sys2Proof.Machine

/-! ## Issuing a word of the mutators' forms (30_encoding.md R82, R86) -/

/-- The masks of forms T and B test bits 7:4 and 7:2. -/
theorem byte_and_0xF0_eq_zero_iff {b : Byte} : b &&& 0xF0 = 0 ↔ b.extractLsb' 4 4 = 0 := by
  revert b; decide

theorem byte_and_0xFC_eq_zero_iff {b : Byte} : b &&& 0xFC = 0 ↔ b.extractLsb' 2 6 = 0 := by
  revert b; decide

section
variable {cw : CommandWord} {i : Instr}

/-- No form reserves a bit of the op, so its reserved bits are tested in the two operand fields. -/
theorem issues_of_masks {f : Form} (m16 : Half) (m8 : Byte) (hmask : reservedBits f = assembleWord 0 m16 m8)
    (hrow : ∃ r, rowOf (opcode i) = some r ∧ r.form = f ∧ r.build cw = i) (ho : opField cw = opcode i) :
    (imm16Field cw &&& m16 = 0 ∧ imm8Field cw &&& m8 = 0 → IssuesAs cw i) ∧
    (¬(imm16Field cw &&& m16 = 0 ∧ imm8Field cw &&& m8 = 0) → IssuesIllegal cw) := by
  have hres : cw &&& reservedBits f = 0 ↔ imm16Field cw &&& m16 = 0 ∧ imm8Field cw &&& m8 = 0 := by
    have hzero : (0 : CommandWord) = assembleWord 0 0 0 := by decide
    conv_lhs => rw [hmask, hzero, ← assembleWord_fields cw, assembleWord_and, assembleWord_inj]
    simp
  simpa only [ne_eq, hres] using issues_of_row hrow ho

theorem issues_of_formV (hrow : ∃ r, rowOf (opcode i) = some r ∧ r.form = .v ∧ r.build cw = i)
    (ho : opField cw = opcode i) :
    (imm16Field cw = 0 → IssuesAs cw i) ∧ (imm16Field cw ≠ 0 → IssuesIllegal cw) := by
  simpa only [half_and_ones, Laws.byte_and_zero, and_true, ne_eq] using
    issues_of_masks 0xFFFF 0 (by decide) hrow ho

theorem issues_of_formT (hrow : ∃ r, rowOf (opcode i) = some r ∧ r.form = .t ∧ r.build cw = i)
    (ho : opField cw = opcode i) :
    (imm16Field cw = 0 ∧ (imm8Field cw).extractLsb' 4 4 = 0 → IssuesAs cw i) ∧
    (¬(imm16Field cw = 0 ∧ (imm8Field cw).extractLsb' 4 4 = 0) → IssuesIllegal cw) := by
  simpa only [half_and_ones, byte_and_0xF0_eq_zero_iff] using
    issues_of_masks 0xFFFF 0xF0 (by decide) hrow ho

theorem issues_of_formB (hrow : ∃ r, rowOf (opcode i) = some r ∧ r.form = .b ∧ r.build cw = i)
    (ho : opField cw = opcode i) :
    (imm16Field cw = 0 ∧ (imm8Field cw).extractLsb' 2 6 = 0 → IssuesAs cw i) ∧
    (¬(imm16Field cw = 0 ∧ (imm8Field cw).extractLsb' 2 6 = 0) → IssuesIllegal cw) := by
  simpa only [half_and_ones, byte_and_0xFC_eq_zero_iff] using
    issues_of_masks 0xFFFF 0xFC (by decide) hrow ho

theorem issues_of_formL (hrow : ∃ r, rowOf (opcode i) = some r ∧ r.form = .l ∧ r.build cw = i)
    (ho : opField cw = opcode i) :
    (imm8Field cw = 0 → IssuesAs cw i) ∧ (imm8Field cw ≠ 0 → IssuesIllegal cw) := by
  simpa only [byte_and_ones, Laws.half_and_zero, true_and, ne_eq] using
    issues_of_masks 0 0xFF (by decide) hrow ho

end

/-! ## The check of a mutator under a writable view (42_mutators.md R140 to R148) -/

theorem textByte_iff_isText {b : Byte} : TextByte b ↔ isText b = true := isText_iff.symm

theorem checkText_eq_none_iff {l : Half} {s : State} : checkText l s = none ↔ GoodText l s := by
  simp only [checkText_eq_none, GoodText, textByte_iff_isText]

section
variable {s : State} (h : FieldReady true s)
include h

theorem checkOf_saddr_of_ready (v : Byte) : checkOf (.saddr v) s = checkAddress v := by
  rw [checkOf, fieldAccess_eq_none_iff.mpr h, Option.none_or]

theorem checkOf_stally_of_ready (t : BitVec 4) : checkOf (.stally t) s = none :=
  fieldAccess_eq_none_iff.mpr h

theorem checkOf_sbrt_of_ready (b : Brightness) : checkOf (.sbrt b) s = none :=
  fieldAccess_eq_none_iff.mpr h

/-- The two text setters make the same check of their operand. -/
theorem checkOf_text_of_ready {i : Instr} {l : Half} (hi : i = .stext l ∨ i = .stextp l) :
    checkOf i s = checkText l s := by
  rcases hi with rfl | rfl <;> rw [checkOf, fieldAccess_eq_none_iff.mpr h, Option.none_or]

theorem checkOf_text_eq_none {i : Instr} {l : Half} (hi : i = .stext l ∨ i = .stextp l)
    (hg : GoodText l s) : checkOf i s = none :=
  (checkOf_text_of_ready h hi).trans (checkText_eq_none_iff.mpr hg)

/-- The text setters report a bad text operand: the length first, then the first bad byte. -/
theorem textErrors_of_ready {i : Instr} {l : Half} (hi : i = .stext l ∨ i = .stextp l) :
    TextErrors l i s := by
  refine ⟨fun hl => ?_, fun hl k hk hbad => ?_⟩
  · exact raises_of_check ((checkOf_text_of_ready h hi).trans (checkText_long hl))
  · obtain ⟨hbad, hok⟩ := hbad
    rw [textByte_iff_isText, Bool.not_eq_true] at hbad
    exact raises_of_check ((checkOf_text_of_ready h hi).trans
      (checkText_byte hl hk hbad fun j hj => textByte_iff_isText.mp (hok j hj)))

end

/-! ## What a mutator stores, byte by byte (42_mutators.md R149) -/

/-- What a mutator makes of the byte `b` at address `a`: it comes from its operand, the staged text and `b`
alone. The commands that set no field leave the byte. -/
def storedByte (txtin : Nat → Byte) : Instr → Nat → Byte → Byte
  | .saddr v, a, b => if a = 0 then 1#1 ++ v.extractLsb' 0 7 else b
  | .stally t, a, b => if a = 1 then b.extractLsb' 4 4 ++ t else b
  | .sbrt c, a, b => if a = 1 then b.extractLsb' 6 2 ++ wireEncode c ++ b.extractLsb' 0 4 else b
  | .stext l, a, b => if 2 ≤ a ∧ a < 2 + l.toNat then txtin (a - 2) else b
  | .stextp l, a, b => if 2 ≤ a ∧ a < 18 then (if a - 2 < l.toNat then txtin (a - 2) else 0x20) else b
  | .attu _ _, _, b | .attc _ _, _, b | .rel, _, b | .val, _, b | .gaddr, _, b | .gtally, _, b
  | .gbrt, _, b | .gtext, _, b | .b2a _, _, b | .a2b _, _, b | .fmt, _, b => b

/-- SADDR sets bit 7 and keeps V's bits 6:0 (42_mutators.md R140). -/
theorem address_merge (v : Byte) : (v ||| 0x80 : Byte) = 1#1 ++ v.extractLsb' 0 7 := by
  revert v; decide

/-- The mutators are the field commands that need a writable view, and they write storage alone. -/
theorem effectOf_mutator {i : Instr} (hi : fieldNeeds i = some true) (s : State) :
    effectOf i s = { s with mem := (effectOf i s).mem } := by
  cases i with
  | saddr | stally | sbrt | stext | stextp => rfl
  | attu | attc | rel | val | gaddr | gtally | gbrt | gtext | b2a | a2b | fmt => cases hi

/-- The control byte is the byte of storage at address 1. -/
theorem ite_control (s : State) (a : Nat) (f : Byte → Byte) (b : Byte) :
    (if a = 1 then f (s.pbuf 1) else b) = if a = 1 then f (Memory.read s.mem a) else b := by
  split
  · subst a; rfl
  · rfl

/-- The storage a mutator leaves. -/
theorem read_effectOf_mutator {i : Instr} (hi : fieldNeeds i = some true) (s : State) (a : Nat) :
    Memory.read (effectOf i s).mem a = storedByte s.txtin i a (Memory.read s.mem a) := by
  cases i with
  | saddr v => rw [effectOf_saddr_mem, read_setPbuf, address_merge, storedByte]
  | stally t =>
    rw [effectOf_stally_mem, read_setPbuf, tally_merge]
    exact ite_control s a (fun b => b.extractLsb' 4 4 ++ t) _
  | sbrt b =>
    rw [effectOf_sbrt_mem, read_setPbuf, brightness_merge]
    exact ite_control s a (fun c => c.extractLsb' 6 2 ++ wireEncode b ++ c.extractLsb' 0 4) _
  | stext l => rw [read_effectOf_stext, storedByte]
  | stextp l => rw [read_effectOf_stextp, storedByte]
  | attu | attc | rel | val | gaddr | gtally | gbrt | gtext | b2a | a2b | fmt => cases hi

/-- A mutator whose check passes completes and stores byte by byte. -/
theorem exec_mutator {i : Instr} {s : State} (hi : fieldNeeds i = some true) (hc : checkOf i s = none) :
    exec i s =
      .next { s with mem := (effectOf i s).mem, statusCode := 0x00, statusDetail := 0x0000 } := by
  rw [exec_completes hc, complete_eq, effectOf_mutator hi]

theorem completesStoring_storedByte {i : Instr} {s : State} (hi : fieldNeeds i = some true)
    (hc : checkOf i s = none) :
    CompletesStoring i s fun a => storedByte s.txtin i a (Memory.read s.mem a) :=
  ⟨_, exec_mutator hi hc, rfl, read_effectOf_mutator hi s⟩

/-! ## Each mutator, settled -/

/-- Settles O18: form V, the field-access check, the range of the address, and byte 0. -/
theorem saddrOverwritesTheAddressByte : Obligations.SaddrOverwritesTheAddressByte := by
  refine ⟨fun _ ho => issues_of_formV ⟨_, rfl, rfl, rfl⟩ ho, fun v s =>
    ⟨fieldErrors_of_fieldNeeds rfl s, fun h => ⟨fun hv => ?_, fun hv => ?_⟩⟩⟩
  · exact raises_of_check ((checkOf_saddr_of_ready h v).trans (checkAddress_of_gt hv))
  · exact completesStoring_storedByte rfl ((checkOf_saddr_of_ready h v).trans (checkAddress_eq_none.mpr hv))

/-- Settles O19: form T, the field-access check, and the low nibble of byte 1. -/
theorem stallySetsOnlyTheLowNibble : Obligations.StallySetsOnlyTheLowNibble := by
  refine ⟨fun _ ho => issues_of_formT ⟨_, rfl, rfl, rfl⟩ ho, fun t s =>
    ⟨fieldErrors_of_fieldNeeds rfl s, fun h => ?_⟩⟩
  obtain ⟨u, hu, he, hread⟩ := completesStoring_storedByte (i := .stally t) rfl (checkOf_stally_of_ready h t)
  exact ⟨u, hu, he, fun a => (hread a).trans (ite_control s a (fun c => c.extractLsb' 4 4 ++ t) _).symm⟩

/-- Settles O20: form B, the field-access check, and bits 5:4 of byte 1. -/
theorem sbrtSetsOnlyTheBrightnessBits : Obligations.SbrtSetsOnlyTheBrightnessBits := by
  refine ⟨fun _ ho => issues_of_formB ⟨_, rfl, rfl, rfl⟩ ho, fun b s =>
    ⟨fieldErrors_of_fieldNeeds rfl s, fun h => ?_⟩⟩
  obtain ⟨u, hu, he, hread⟩ := completesStoring_storedByte (i := .sbrt b) rfl (checkOf_sbrt_of_ready h b)
  exact ⟨u, hu, he, fun a => (hread a).trans
    (ite_control s a (fun c => c.extractLsb' 6 2 ++ wireEncode b ++ c.extractLsb' 0 4) _).symm⟩

/-- Settles O21: form L, the field-access check, the text operand, and the bytes of the text. -/
theorem stextCopiesOnlyTheText : Obligations.StextCopiesOnlyTheText :=
  ⟨fun _ ho => issues_of_formL ⟨_, rfl, rfl, rfl⟩ ho, fun l s =>
    ⟨fieldErrors_of_fieldNeeds rfl s, fun h => ⟨textErrors_of_ready h (.inl rfl), fun hg =>
      completesStoring_storedByte (i := .stext l) rfl (checkOf_text_eq_none h (.inl rfl) hg)⟩⟩⟩

/-- Settles O22: form L, the field-access check, the text operand, and the whole display region. -/
theorem stextpPadsTheRegion : Obligations.StextpPadsTheRegion :=
  ⟨fun _ ho => issues_of_formL ⟨_, rfl, rfl, rfl⟩ ho, fun l s =>
    ⟨fieldErrors_of_fieldNeeds rfl s, fun h => ⟨textErrors_of_ready h (.inr rfl), fun hg =>
      completesStoring_storedByte (i := .stextp l) rfl (checkOf_text_eq_none h (.inr rfl) hg)⟩⟩⟩

/-! ## A stale tail (42_mutators.md R147) -/

/-- A view that can be written can be read. -/
theorem FieldReady.read {s : State} (h : FieldReady true s) : FieldReady false s := by
  obtain ⟨hview, -, hlen⟩ := h
  exact ⟨hview, fun hn => absurd hn Bool.false_ne_true, hlen⟩

/-- Printable bytes are not null, so the first null stands past them. -/
theorem le_firstNull {s : State} {l : Nat} (hl : l ≤ 16) (h : ∀ k, k < l → s.display k ≠ 0) :
    l ≤ firstNull s := by
  obtain ⟨-, -, hend⟩ := firstNull_eq_iff.mp (rfl : firstNull s = _)
  by_contra hlt
  rcases hend with hend | hend
  · omega
  · exact h _ (by omega) hend

/-- Past bytes that are not null, the region is clean exactly when the decoded text ends with them. -/
theorem cleanFrom_iff_textLen_le {s : State} {l : Nat} (hl : l ≤ 16) (h : ∀ k, k < l → s.display k ≠ 0) :
    CleanFrom l s ↔ textLen s ≤ l := by
  obtain ⟨hle, hpre, hend⟩ := firstNull_eq_iff.mp (rfl : firstNull s = _)
  obtain ⟨-, hspaces, hlast⟩ := trimSpaces_eq_iff.mp (rfl : textLen s = _)
  constructor
  · rintro ⟨m, hlm, hm, hsp, hm0⟩
    have hnull : firstNull s = m := firstNull_eq_iff.mpr ⟨hm, fun k hk => ?_, hm0⟩
    · by_contra hlt
      refine hlast.elim (by omega) fun hne => hne (hsp _ (by omega) ?_)
      have := textLen_le_firstNull s
      omega
    · by_cases hkl : k < l
      · exact h k hkl
      · rw [show s.display k = 0x20 from hsp k (by omega) hk]
        decide
  · exact fun ht => ⟨firstNull s, le_firstNull hl h, hle, fun k hk => hspaces k (by omega), hend⟩

/-- Being clean past `l` looks at the bytes from there on. -/
theorem CleanFrom.congr {s t : State} {l : Nat} (h : CleanFrom l s)
    (he : ∀ k, l ≤ k → k < 16 → t.pbuf (2 + k) = s.pbuf (2 + k)) : CleanFrom l t := by
  obtain ⟨m, hlm, hm, hsp, hm0⟩ := h
  refine ⟨m, hlm, hm, fun k hk hkm => (he k hk (by omega)).trans (hsp k hk hkm), ?_⟩
  by_cases h16 : m = 16
  · exact .inl h16
  · exact .inr ((he m hlm (by omega)).trans (hm0.resolve_left h16))

theorem ne_zero_of_goodText {l : Half} {s : State} (h : GoodText l s) {j : Nat} (hj : j < l.toNat) :
    s.txtin j ≠ 0 :=
  ne_zero_of_isText (textByte_iff_isText.mp (h.2 j hj))

/-- What STEXT makes of a display byte. -/
theorem storedByte_stext_display (x : Nat → Byte) (l : Half) (k : Nat) (b : Byte) :
    storedByte x (.stext l) (2 + k) b = if k < l.toNat then x k else b := by
  simp [storedByte]

/-- What GTEXT returns under a view that can be read. -/
theorem exec_gtext_of_ready {s : State} (h : FieldReady false s) :
    ∃ t, exec .gtext s = .next t ∧ t.statusCode = 0x00 ∧ t.txtoutLen = BitVec.ofNat 8 (textLen s) ∧
      ∀ j, j < 16 → t.txtout j = if j < textLen s then s.display j else 0x00 :=
  ⟨complete 0 (effectOf .gtext s), exec_completes (checkOf_reader_of_ready rfl h), rfl, rfl, fun j hj => by
    rw [complete_txtout, effectOf_gtext_txtout s hj, getD_decodedText]⟩

theorem toNat_textLen (s : State) : (BitVec.ofNat 8 (textLen s)).toNat = textLen s :=
  effectOf_gtext_txtoutLen s

/-- Field access looks at LEN and VSTATE alone. -/
theorem FieldReady.congr {needW : Bool} {s t : State} (h : FieldReady needW s) (hl : t.len = s.len)
    (hv : t.vstate = s.vstate) : FieldReady needW t := by
  rwa [FieldReady, hl, hv]

/-- Settles O23: the region STEXT leaves is as little clean past the text as before, so GTEXT's text goes on
past it. -/
theorem stextLeavesAStaleTail : Obligations.StextLeavesAStaleTail := by
  intro l s h hg hl hclean
  obtain ⟨u, hu, he, hread⟩ :=
    completesStoring_storedByte (i := .stext l) rfl (checkOf_text_eq_none h (.inl rfl) hg)
  have hdisplay : ∀ k, u.display k = if k < l.toNat then s.txtin k else s.pbuf (2 + k) := fun k => by
    rw [display_eq_read, pbuf_eq_read]
    exact (hread _).trans (storedByte_stext_display ..)
  have hnew : ∀ k, k < l.toNat → u.display k = s.txtin k := fun k hk => (hdisplay k).trans (if_pos hk)
  have hold : ∀ k, l.toNat ≤ k → u.display k = s.pbuf (2 + k) := fun k hk =>
    (hdisplay k).trans (if_neg (Nat.not_lt.mpr hk))
  have hlong : l.toNat < textLen u := by
    by_contra hle
    have hcleanu : CleanFrom l.toNat u :=
      (cleanFrom_iff_textLen_le hl.le fun k hk => hnew k hk ▸ ne_zero_of_goodText hg hk).mpr (by omega)
    exact hclean (hcleanu.congr fun k hk _ => (hold k hk).symm)
  obtain ⟨t, ht, -, hlen, htext⟩ :=
    exec_gtext_of_ready (h.read.congr (t := u) (by rw [he]) (by rw [he]))
  have hlen16 := textLen_le u
  have hout : ∀ j, j < textLen u → t.txtout j = u.display j := fun j hj =>
    (htext j (by omega)).trans (if_pos hj)
  refine ⟨t, (execAll_cons hu).trans (execAll_cons ht), fun k hk hk16 => ?_, ?_⟩
  · exact ((sameInputs_of_readsOnly rfl ht).pbuf _ (by omega)).trans (hold k hk)
  · rw [hlen, toNat_textLen]
    exact ⟨hlong, fun j hj => (hout j (by omega)).trans (hnew j hj),
      fun j hj hjl => (hout j hjl).trans (hold j hj)⟩

/-! ## Mutators of different fields (42_mutators.md R149) -/

/-- The commands that set a field are the mutators. -/
theorem fieldNeeds_of_fieldSet {i : Instr} {f : PacketField} (hi : fieldSet i = some f) :
    fieldNeeds i = some true := by
  cases i with
  | saddr | stally | sbrt | stext | stextp => rfl
  | attu | attc | rel | val | gaddr | gtally | gbrt | gtext | b2a | a2b | fmt => cases hi

/-- The bytes of storage that a field lies in. -/
def PacketField.Covers : PacketField → Nat → Prop
  | .address, a => a = 0
  | .tally, a | .brightness, a => a = 1
  | .text, a => 2 ≤ a

/-- Outside its field's bytes a mutator stores nothing. -/
theorem storedByte_eq_self {i : Instr} {f : PacketField} (hi : fieldSet i = some f) {a : Nat}
    (ha : ¬ f.Covers a) (x : Nat → Byte) (b : Byte) : storedByte x i a b = b := by
  cases i with
  | saddr | stally | sbrt => cases hi; exact if_neg ha
  | stext | stextp => cases hi; exact if_neg fun h => ha h.1
  | attu | attc | rel | val | gaddr | gtally | gbrt | gtext | b2a | a2b | fmt => cases hi

/-- Two fields that share a byte are the tally flags and the brightness, in the control byte. -/
theorem fields_of_shared_byte {f g : PacketField} {a : Nat} (hne : f ≠ g) (hf : f.Covers a)
    (hg : g.Covers a) : a = 1 ∧ (f = .tally ∧ g = .brightness ∨ f = .brightness ∧ g = .tally) := by
  cases f with
  | address =>
    cases g with
    | address => exact absurd rfl hne
    | tally | brightness | text => simp only [PacketField.Covers] at hf hg; omega
  | text =>
    cases g with
    | text => exact absurd rfl hne
    | address | tally | brightness => simp only [PacketField.Covers] at hf hg; omega
  | tally =>
    cases g with
    | tally => exact absurd rfl hne
    | brightness => exact ⟨hf, .inl ⟨rfl, rfl⟩⟩
    | address | text => simp only [PacketField.Covers] at hf hg; omega
  | brightness =>
    cases g with
    | brightness => exact absurd rfl hne
    | tally => exact ⟨hf, .inr ⟨rfl, rfl⟩⟩
    | address | text => simp only [PacketField.Covers] at hf hg; omega

theorem exists_stally_of_fieldSet {i : Instr} (hi : fieldSet i = some .tally) : ∃ t, i = .stally t := by
  cases i <;> simp [fieldSet] at hi ⊢

theorem exists_sbrt_of_fieldSet {i : Instr} (hi : fieldSet i = some .brightness) : ∃ b, i = .sbrt b := by
  cases i <;> simp [fieldSet] at hi ⊢

/-! The fields of the control byte after STALLY and after SBRT. -/

section
variable (c : Byte) (t : BitVec 4) (w : BitVec 2)

theorem reserved_of_tallySet : (c.extractLsb' 4 4 ++ t).extractLsb' 6 2 = c.extractLsb' 6 2 := by
  rw [BitVec.extractLsb'_append_eq_of_le (by decide)]
  have hsplit : c.extractLsb' 6 2 ++ c.extractLsb' 4 2 = c.extractLsb' 4 4 :=
    BitVec.extractLsb'_append_extractLsb'_eq_extractLsb' rfl
  exact hsplit ▸ BitVec.extractLsb'_append_eq_left

theorem tally_of_tallySet : (c.extractLsb' 4 4 ++ t).extractLsb' 0 4 = t :=
  BitVec.extractLsb'_append_eq_right

theorem high_of_brightnessSet :
    (c.extractLsb' 6 2 ++ w ++ c.extractLsb' 0 4).extractLsb' 4 4 = c.extractLsb' 6 2 ++ w :=
  BitVec.extractLsb'_append_eq_left

theorem brightness_of_brightnessSet (d : BitVec 4) : (c.extractLsb' 6 2 ++ w ++ d).extractLsb' 4 2 = w := by
  rw [BitVec.extractLsb'_append_eq_of_le (by decide)]
  exact BitVec.extractLsb'_append_eq_right

/-- STALLY and SBRT write different bits of the control byte. -/
theorem storedByte_stally_sbrt (x : Nat → Byte) (b : Brightness) :
    storedByte x (.stally t) 1 (storedByte x (.sbrt b) 1 c) =
      storedByte x (.sbrt b) 1 (storedByte x (.stally t) 1 c) := by
  simp only [storedByte, if_true, high_of_brightnessSet, reserved_of_tallySet, tally_of_tallySet]

end

/-- Mutators of different fields commute at every byte. -/
theorem storedByte_comm {i j : Instr} {f g : PacketField} (hi : fieldSet i = some f)
    (hj : fieldSet j = some g) (hne : f ≠ g) (x : Nat → Byte) (a : Nat) (b : Byte) :
    storedByte x i a (storedByte x j a b) = storedByte x j a (storedByte x i a b) := by
  by_cases hf : f.Covers a
  · by_cases hg : g.Covers a
    · obtain ⟨rfl, ⟨rfl, rfl⟩ | ⟨rfl, rfl⟩⟩ := fields_of_shared_byte hne hf hg
      · obtain ⟨t, rfl⟩ := exists_stally_of_fieldSet hi
        obtain ⟨c, rfl⟩ := exists_sbrt_of_fieldSet hj
        exact storedByte_stally_sbrt b t x c
      · obtain ⟨t, rfl⟩ := exists_stally_of_fieldSet hj
        obtain ⟨c, rfl⟩ := exists_sbrt_of_fieldSet hi
        exact (storedByte_stally_sbrt b t x c).symm
    · rw [storedByte_eq_self hj hg, storedByte_eq_self hj hg]
  · rw [storedByte_eq_self hi hf, storedByte_eq_self hi hf]

/-! ## Runs of mutators -/

/-- A mutator's check looks at VSTATE, LEN and the staged text. -/
theorem checkOf_mutator_congr {i : Instr} {s t : State} (hi : fieldNeeds i = some true)
    (hl : t.len = s.len) (hv : t.vstate = s.vstate) (ht : t.txtin = s.txtin) :
    checkOf i t = checkOf i s := by
  have hattached : t.attached = s.attached := congrArg (viewOf · != viewNone) hv
  have hwritable : t.writable = s.writable := congrArg writableOf hv
  cases i with
  | saddr | stally | sbrt | stext | stextp =>
    simp only [checkOf, fieldAccess, checkText, hattached, hwritable, hl, ht]
  | attu | attc | rel | val | gaddr | gtally | gbrt | gtext | b2a | a2b | fmt => cases hi

/-- A mutator leaves the staged text. -/
theorem txtin_effectOf_mutator {i : Instr} {s : State} (hi : fieldNeeds i = some true)
    (hc : checkOf i s = none) : (effectOf i s).txtin = s.txtin := by
  funext j
  refine read_effectOf_of_not_storesTo hc ?_
  cases i with
  | saddr | stally | sbrt | stext | stextp => simp only [storesTo, Config.txtinBase]; omega
  | attu | attc | rel | val | gaddr | gtally | gbrt | gtext | b2a | a2b | fmt => cases hi

/-- A mutator keeps storage canonical. -/
theorem wf_effectOf_mutator {i : Instr} {s : State} (hi : fieldNeeds i = some true)
    (h : Memory.wf s.mem = true) : Memory.wf (effectOf i s).mem = true := by
  cases i with
  | saddr | stally | sbrt => exact Memory.wf_write h _ _
  | stext | stextp => exact Memory.wf_writeBytes h _ _
  | attu | attc | rel | val | gaddr | gtally | gbrt | gtext | b2a | a2b | fmt => cases hi

/-- What a run of mutators makes of the byte `b` at address `a`. -/
def storedBytes (txtin : Nat → Byte) (p : List Instr) (a : Nat) (b : Byte) : Byte :=
  p.foldl (fun c i => storedByte txtin i a c) b

/-- The run `p` from `s` completes in `u`: only storage and the status may differ, and storage is what the
run makes of each byte. -/
structure StoresAll (p : List Instr) (s u : State) : Prop where
  run : execAll p s = .next u
  frame : u = { s with mem := u.mem, statusCode := 0x00, statusDetail := 0x0000 }
  read : ∀ a, Memory.read u.mem a = storedBytes s.txtin p a (Memory.read s.mem a)
  wf : Memory.wf s.mem = true → Memory.wf u.mem = true

/-- A mutator whose check passes is a run of its own, and it leaves the staged text. -/
theorem exists_storesAll_one {i : Instr} {s : State} (hi : fieldNeeds i = some true)
    (hc : checkOf i s = none) : ∃ t, StoresAll [i] s t ∧ t.txtin = s.txtin :=
  ⟨_, ⟨execAll_cons (exec_mutator hi hc), rfl, read_effectOf_mutator hi s, wf_effectOf_mutator hi⟩,
    txtin_effectOf_mutator hi hc⟩

/-- Runs chain. -/
theorem StoresAll.cons {i : Instr} {p : List Instr} {s t u : State} (h : StoresAll [i] s t)
    (htxtin : t.txtin = s.txtin) (h' : StoresAll p t u) : StoresAll (i :: p) s u where
  run := by
    obtain ⟨v, hv⟩ := exec_answers i s
    cases (execAll_cons hv).symm.trans h.run
    exact (execAll_cons hv).trans h'.run
  frame := h'.frame.trans (by rw [h.frame])
  read a := by
    rw [h'.read, h.read, htxtin]
    rfl
  wf hwf := h'.wf (h.wf hwf)

/-- Mutators whose checks all pass before the run pass them in the run too: none writes what they check. -/
theorem exists_storesAll (is : List Instr) {i : Instr} {s : State}
    (hp : ∀ j ∈ i :: is, fieldNeeds j = some true ∧ checkOf j s = none) :
    ∃ u, StoresAll (i :: is) s u := by
  induction is generalizing i s with
  | nil =>
    obtain ⟨hi, hc⟩ := hp i (List.mem_cons_self ..)
    exact (exists_storesAll_one hi hc).imp fun _ h => h.1
  | cons j js ih =>
    obtain ⟨⟨hi, hc⟩, his⟩ := List.forall_mem_cons.mp hp
    obtain ⟨t, ht, htxtin⟩ := exists_storesAll_one hi hc
    have hpt : ∀ k ∈ j :: js, fieldNeeds k = some true ∧ checkOf k t = none := fun k hk => by
      obtain ⟨hk, hck⟩ := his k hk
      exact ⟨hk, (checkOf_mutator_congr hk (by rw [ht.frame]) (by rw [ht.frame]) htxtin).trans hck⟩
    exact (ih hpt).imp fun _ hu => ht.cons htxtin hu

/-- A command that leaves the status OK has passed its check. -/
theorem checkOf_eq_none_of_ok {i : Instr} {s t : State} (h : exec i s = .next t)
    (hok : t.statusCode = 0x00) : checkOf i s = none := by
  rcases exec_next h with ⟨f, -, rfl⟩ | ⟨hc, -⟩
  · exact absurd hok (errCode_ne_zero f.err)
  · exact hc

/-- Two runs that make the same of every byte leave the same state, when storage is canonical. -/
theorem StoresAll.eq {p q : List Instr} {s u v : State} (hu : StoresAll p s u) (hv : StoresAll q s v)
    (hwf : Memory.wf s.mem = true)
    (h : ∀ a b, storedBytes s.txtin p a b = storedBytes s.txtin q a b) : u = v := by
  have hmem : u.mem = v.mem := Memory.ext (hu.wf hwf) (hv.wf hwf) fun a => by rw [hu.read, hv.read, h]
  calc u = { s with mem := u.mem, statusCode := 0x00, statusDetail := 0x0000 } := hu.frame
    _ = { s with mem := v.mem, statusCode := 0x00, statusDetail := 0x0000 } := by rw [hmem]
    _ = v := hv.frame.symm

/-- Settles O24: both orders run, and they make the same of every byte. -/
theorem mutatorsOfDifferentFieldsCommute : Obligations.MutatorsOfDifferentFieldsCommute := by
  intro i j s t u f g hwf hi hj hne ht htok hu huok
  have hpass : ∀ k, k = i ∨ k = j → fieldNeeds k = some true ∧ checkOf k s = none := by
    rintro k (rfl | rfl)
    · exact ⟨fieldNeeds_of_fieldSet hi, checkOf_eq_none_of_ok ht htok⟩
    · exact ⟨fieldNeeds_of_fieldSet hj, checkOf_eq_none_of_ok hu huok⟩
  obtain ⟨v, hv⟩ := exists_storesAll [j] (i := i) (s := s) fun k hk => hpass k (by simpa using hk)
  obtain ⟨w, hw⟩ := exists_storesAll [i] (i := j) (s := s) fun k hk => hpass k (by simpa [or_comm] using hk)
  have hvw : v = w := hv.eq hw hwf fun a b => (storedByte_comm hi hj hne s.txtin a b).symm
  exact ⟨v, hv.run, hvw ▸ hw.run, by rw [hv.frame]⟩

/-! ## The four setters in any order (42_mutators.md R150) -/

/-- A run of mutators of different fields makes the same of a byte in every order. -/
theorem storedBytes_perm {p q : List Instr} {fs : List PacketField} (hpq : p.Perm q)
    (hfs : q.map fieldSet = fs.map some) (hdiff : fs.Nodup) (x : Nat → Byte) (a : Nat) (b : Byte) :
    storedBytes x p a b = storedBytes x q a b := by
  have hset : ∀ i ∈ p, ∃ f, fieldSet i = some f := fun i hi => by
    have hmem : fieldSet i ∈ fs.map some := hfs ▸ List.mem_map_of_mem (hpq.subset hi)
    exact (List.mem_map.mp hmem).imp fun _ h => h.2.symm
  have hinj := List.inj_on_of_nodup_map (hfs ▸ hdiff.map (Option.some_injective _))
  refine hpq.foldl_eq' (fun i hi j hj c => ?_) b
  obtain ⟨f, hf⟩ := hset i hi
  obtain ⟨g, hg⟩ := hset j hj
  by_cases hfg : f = g
  · rw [hinj (hpq.subset hi) (hpq.subset hj) (by rw [hf, hg, hfg])]
  · exact (storedByte_comm hf hg hfg x a c).symm

section
variable (x : Nat → Byte) (v : Byte) (t : BitVec 4) (b : Brightness) (c : Byte)
  {text : Instr} (htext : fieldSet text = some .text)

/-! What the four setters make of the display bytes, the address byte and the control byte. -/

theorem storedBytes_setters_display (k : Nat) :
    storedBytes x [.saddr v, .stally t, .sbrt b, text] (2 + k) c = storedByte x text (2 + k) c := by
  have h0 : 2 + k ≠ 0 := by omega
  have h1 : 2 + k ≠ 1 := by omega
  simp only [storedBytes, List.foldl_cons, List.foldl_nil, storedByte, h0, h1, if_false]

include htext

theorem storedBytes_setters_address :
    storedBytes x [.saddr v, .stally t, .sbrt b, text] 0 c = 1#1 ++ v.extractLsb' 0 7 :=
  storedByte_eq_self htext (by simp [PacketField.Covers]) x _

theorem storedBytes_setters_control :
    storedBytes x [.saddr v, .stally t, .sbrt b, text] 1 c = c.extractLsb' 6 2 ++ wireEncode b ++ t := by
  refine (storedByte_eq_self htext (by simp [PacketField.Covers]) x _).trans ?_
  simp only [storedByte, if_true, Nat.one_ne_zero, if_false, reserved_of_tallySet, tally_of_tallySet]

/-- Each of the four sets a field of its own. -/
theorem fieldSet_setters : [.saddr v, .stally t, .sbrt b, text].map fieldSet =
    [.address, .tally, .brightness, .text].map some := by
  simp only [List.map_cons, htext]
  rfl

end

/-- What STEXTP makes of a display byte. -/
theorem storedByte_stextp_display (x : Nat → Byte) (l : Half) {k : Nat} (hk : k < 16) (b : Byte) :
    storedByte x (.stextp l) (2 + k) b = if k < l.toNat then x k else 0x20 := by
  rw [storedByte, if_pos (by omega), Nat.add_sub_cancel_left]

/-- The region a text setter leaves: the text, then a clean rest, which STEXTP writes and STEXT finds. -/
theorem text_of_textSetter {s u : State} {l : Half} {text : Instr} (hl : l.toNat ≤ 16)
    (htext : text = .stextp l ∨ (text = .stext l ∧ CleanFrom l.toNat s))
    (hu : ∀ k, u.pbuf (2 + k) = storedByte s.txtin text (2 + k) (s.pbuf (2 + k))) :
    (∀ k, k < l.toNat → u.display k = s.txtin k) ∧ CleanFrom l.toNat u := by
  rcases htext with rfl | ⟨rfl, hclean⟩
  · refine ⟨fun k hk => ?_, 16, hl, Nat.le_refl _, fun k hk hk16 => ?_, .inl rfl⟩
    · exact (hu k).trans ((storedByte_stextp_display _ _ (by omega) _).trans (if_pos hk))
    · exact (hu k).trans ((storedByte_stextp_display _ _ hk16 _).trans (if_neg (by omega)))
  · refine ⟨fun k hk => ?_, hclean.congr fun k hk _ => ?_⟩
    · exact (hu k).trans ((storedByte_stext_display ..).trans (if_pos hk))
    · exact (hu k).trans ((storedByte_stext_display ..).trans (if_neg (by omega)))

/-- The decoded text over a clean region is the text without its trailing spaces. -/
theorem trimmedTo_textLen {s : State} {byte : Nat → Byte} {l : Nat} (hl : l ≤ 16)
    (hb : ∀ k, k < l → s.display k = byte k) (hne : ∀ k, k < l → byte k ≠ 0) (hclean : CleanFrom l s) :
    TrimmedTo byte l (textLen s) := by
  have hne' : ∀ k, k < l → s.display k ≠ 0 := fun k hk => hb k hk ▸ hne k hk
  have hle := (cleanFrom_iff_textLen_le hl hne').mp hclean
  have hnull := le_firstNull hl hne'
  obtain ⟨-, hspaces, hlast⟩ := trimSpaces_eq_iff.mp (rfl : textLen s = _)
  refine ⟨hle, fun k hk hkl => (hb k hkl).symm.trans (hspaces k hk (by omega)), ?_⟩
  by_cases h0 : textLen s = 0
  · exact .inl h0
  · exact .inr (hb (textLen s - 1) (by omega) ▸ hlast.resolve_left h0)

/-- GADDR gives back what SADDR set: the marker is discarded (41_accessors.md R120). -/
theorem address_of_addressSet {v : Byte} (hv : v.toNat ≤ 0x7E) :
    (1#1 ++ v.extractLsb' 0 7 : Byte) &&& 0x7F = v := by
  revert v; decide

/-- The wire code of a Brightness is numerically its BRV (43_brightness.md R160). -/
theorem wireEncode_eq_brvOf (b : Brightness) : wireEncode b = brvOf b := by
  cases b <;> rfl

/-- Settles O25: the setters run in any order, their order does not matter to any byte, and each accessor
reads its field of what they leave. -/
theorem settersThenAccessorsRoundTrip : Obligations.SettersThenAccessorsRoundTrip := by
  intro a t b l s text p h ha hg htext hp
  have htext' : text = .stext l ∨ text = .stextp l := htext.elim .inr fun h => .inl h.1
  have hfield : fieldSet text = some .text := by rcases htext' with rfl | rfl <;> rfl
  have hpass : ∀ i ∈ [.saddr a, .stally t, .sbrt b, text],
      fieldNeeds i = some true ∧ checkOf i s = none := by
    simp only [List.forall_mem_cons]
    exact ⟨⟨rfl, (checkOf_saddr_of_ready h a).trans (checkAddress_eq_none.mpr ha)⟩,
      ⟨rfl, checkOf_stally_of_ready h t⟩, ⟨rfl, checkOf_sbrt_of_ready h b⟩,
      ⟨fieldNeeds_of_fieldSet hfield, checkOf_text_eq_none h htext' hg⟩, nofun⟩
  obtain ⟨i, is, rfl⟩ := List.exists_cons_of_length_eq_add_one hp.length_eq
  obtain ⟨u, hu⟩ := exists_storesAll is fun j hj => hpass j (hp.subset hj)
  have hbyte : ∀ k, u.pbuf k =
      storedBytes s.txtin [.saddr a, .stally t, .sbrt b, text] k (s.pbuf k) := fun k => by
    rw [pbuf_eq_read, hu.read, pbuf_eq_read]
    exact storedBytes_perm hp (fieldSet_setters a t b hfield) (by decide) ..
  have hread : FieldReady false u := h.read.congr (by rw [hu.frame]) (by rw [hu.frame])
  obtain ⟨hdisplay, hclean⟩ := text_of_textSetter hg.1 htext fun k =>
    (hbyte (2 + k)).trans (storedBytes_setters_display ..)
  obtain ⟨v, hv, hcode, hlen, hout⟩ := exec_gtext_of_ready hread
  have htrim := trimmedTo_textLen hg.1 hdisplay (fun _ => ne_zero_of_goodText hg) hclean
  refine ⟨u, hu.run, by rw [hu.frame], ?_, ?_, ?_, textLen u, v, htrim, hv, hcode, hlen, fun j hj => ?_⟩
  · have hgaddr := (gaddrReadsTheAddress.2 u).2 hread
    rwa [hbyte, storedBytes_setters_address _ _ _ _ _ hfield, address_of_addressSet ha] at hgaddr
  · have hgtally := (gtallyReadsTheTallyFlags.2 u).2 hread
    rwa [hbyte, storedBytes_setters_control _ _ _ _ _ hfield, BitVec.extractLsb'_append_eq_right] at hgtally
  · have hgbrt := (gbrtReadsTheBrightness.2 u).2 hread
    rwa [hbyte, storedBytes_setters_control _ _ _ _ _ hfield, brightness_of_brightnessSet,
      wireEncode_eq_brvOf] at hgbrt
  · rw [hout j hj]
    split
    · exact hdisplay j (by have := htrim.1; omega)
    · rfl

end Sys2Proof.Machine

/-! # Statements about brightness (43_brightness.md)

The conversions, from the analog value of each member; what a command makes of the control byte, from which
come the writers of its fields and SBRT followed by GBRT. -/

namespace Sys2Proof.Machine

/-! ## The conversions (43_brightness.md R161, R163, R164) -/

/-- B2A makes no check, and its effect is the analog value in RES. -/
theorem completes_b2a (b : Brightness) (s : State) : Completes (.b2a b) s { s with res := analogEncode b } :=
  completes_of_check (i := .b2a b) rfl

/-- A2B of an exact analog value gives its member's BRV. -/
theorem completes_a2b {v : Byte} {b : Brightness} (hv : analogDecode v = some b) (s : State) :
    Completes (.a2b v) s { s with res := 0#6 ++ brvOf b } := by
  have hcheck : checkOf (.a2b v) s = none := by rw [checkOf, checkAnalog, hv]
  have heffect : effectOf (.a2b v) s = s.setRes ((brvOf b).setWidth 8) := by simp only [effectOf, hv]
  have hbrv : (brvOf b).setWidth 8 = 0#6 ++ brvOf b := BitVec.setWidth_eq_append (by decide)
  have hdone := completes_of_check hcheck
  rwa [heffect, hbrv] at hdone

/-- Settles O28: form B, and the analog value of each member. -/
theorem b2aGivesTheAnalogValue : Obligations.B2aGivesTheAnalogValue :=
  ⟨fun _ ho => issues_of_formB ⟨_, rfl, rfl, rfl⟩ ho, fun s =>
    ⟨completes_b2a .zero s, completes_b2a .oneSeventh s, completes_b2a .oneHalf s, completes_b2a .full s⟩⟩

/-- Settles O29: form V, each member's analog value, the check on every other value, and the analog value
that B2A left. -/
theorem a2bAcceptsOnlyExactValues : Obligations.A2bAcceptsOnlyExactValues := by
  have hexact (b : Brightness) (s : State) := completes_a2b (analogDecode_analogEncode b) s
  refine ⟨fun _ ho => issues_of_formV ⟨_, rfl, rfl, rfl⟩ ho, fun s => ?_, fun v s hv => ?_,
    fun b s t ht => ?_⟩
  · exact ⟨hexact .zero s, hexact .oneSeventh s, hexact .oneHalf s, hexact .full s⟩
  · have hnot : v ∉ [0#8, 36#8, 128#8, 255#8] := fun h => hv (List.mem_map_of_mem (f := BitVec.toNat) h)
    exact raises_of_check (i := .a2b v) (checkAnalog_of_notMem hnot)
  · cases ht.symm.trans (completes_b2a b s)
    exact hexact b _

/-! ## What a command makes of the control byte (42_mutators.md R142, R144, R149) -/

section
variable (c : Byte) (t : BitVec 4) (w : BitVec 2) (d : BitVec 4)

theorem brightness_of_tallySet : (c.extractLsb' 4 4 ++ t).extractLsb' 4 2 = c.extractLsb' 4 2 := by
  rw [BitVec.extractLsb'_append_eq_of_le (by decide)]
  have hsplit : c.extractLsb' 6 2 ++ c.extractLsb' 4 2 = c.extractLsb' 4 4 :=
    BitVec.extractLsb'_append_extractLsb'_eq_extractLsb' rfl
  exact hsplit ▸ BitVec.extractLsb'_append_eq_right

theorem reserved_of_brightnessSet : (c.extractLsb' 6 2 ++ w ++ d).extractLsb' 6 2 = c.extractLsb' 6 2 := by
  rw [BitVec.extractLsb'_append_eq_of_le (by decide)]
  exact BitVec.extractLsb'_append_eq_left

theorem tally_of_brightnessSet : (c.extractLsb' 6 2 ++ w ++ d).extractLsb' 0 4 = d :=
  BitVec.extractLsb'_append_eq_right

end

/-- A mutator that has passed its check leaves in each byte of PBUF what it stores there. -/
theorem pbuf_effectOf_mutator {i : Instr} (hi : fieldNeeds i = some true) (s : State) (k : Nat) :
    (effectOf i s).pbuf k = storedByte s.txtin i k (s.pbuf k) := by
  rw [pbuf_eq_read, pbuf_eq_read, read_effectOf_mutator hi]

/-- Everything a command can make of the control byte: it keeps it, or STALLY sets its low nibble, or SBRT
its bits 5:4. -/
theorem control_of_exec {i : Instr} {s t : State} (h : exec i s = .next t) :
    t.pbuf 1 = s.pbuf 1 ∨
    (∃ f, i = .stally f ∧ t.pbuf 1 = (s.pbuf 1).extractLsb' 4 4 ++ f) ∨
    ∃ b, i = .sbrt b ∧
      t.pbuf 1 = (s.pbuf 1).extractLsb' 6 2 ++ wireEncode b ++ (s.pbuf 1).extractLsb' 0 4 := by
  by_cases hkeep : t.pbuf 1 = s.pbuf 1
  · exact .inl hkeep
  · rcases exec_next h with ⟨f, -, rfl⟩ | ⟨-, rfl⟩
    · exact absurd rfl hkeep
    · rcases exists_stally_or_sbrt_of_storesTo (storesTo_of_pbuf_ne h hkeep) with ⟨f, rfl⟩ | ⟨b, rfl⟩
      · exact .inr (.inl ⟨f, rfl, pbuf_effectOf_mutator (i := .stally f) rfl s 1⟩)
      · exact .inr (.inr ⟨b, rfl, pbuf_effectOf_mutator (i := .sbrt b) rfl s 1⟩)

/-- Settles O30: STALLY leaves bits 7:4, SBRT leaves bits 7:6 and 3:0, and no other command changes the
byte. -/
theorem controlByteFieldsHaveOneWriter : Obligations.ControlByteFieldsHaveOneWriter := by
  intro i s t h
  rcases control_of_exec h with hkeep | ⟨f, rfl, hset⟩ | ⟨b, rfl, hset⟩
  · rw [hkeep]
    exact ⟨rfl, fun _ => rfl, fun _ => rfl⟩
  · rw [hset]
    exact ⟨reserved_of_tallySet .., fun _ => brightness_of_tallySet .., fun hne => absurd rfl (hne f)⟩
  · rw [hset]
    exact ⟨reserved_of_brightnessSet .., fun hne => absurd rfl (hne b), fun _ => tally_of_brightnessSet ..⟩

/-! ## SBRT followed by GBRT (43_brightness.md R162) -/

/-- The view that SBRT wrote through is ready for GBRT, which reads the code SBRT stored. -/
theorem execAll_sbrt_gbrt (b : Brightness) {s : State} (h : FieldReady true s) :
    ∃ t, execAll [.sbrt b, .gbrt] s = .next t ∧ t.statusCode = 0x00 ∧ t.res = 0#6 ++ brvOf b := by
  obtain ⟨u, hu, he, hread⟩ := completesStoring_storedByte (i := .sbrt b) rfl (checkOf_sbrt_of_ready h b)
  have hready : FieldReady false u := h.read.congr (by rw [he]) (by rw [he])
  have hbits : (u.pbuf 1).extractLsb' 4 2 = brvOf b := by
    rw [pbuf_eq_read, hread, ← wireEncode_eq_brvOf]
    exact brightness_of_brightnessSet ..
  have hgbrt := (gbrtReadsTheBrightness.2 u).2 hready
  rw [hbits] at hgbrt
  exact ⟨_, (execAll_cons hu).trans (execAll_cons hgbrt), rfl, rfl⟩

/-- Settles O27: the table, both round trips, and SBRT followed by GBRT. -/
theorem wireBrightnessRoundTrips : Obligations.WireBrightnessRoundTrips :=
  ⟨⟨rfl, rfl, rfl, rfl⟩,
    ⟨wireDecode_wireEncode .zero, wireDecode_wireEncode .oneSeventh, wireDecode_wireEncode .oneHalf,
      wireDecode_wireEncode .full⟩,
    wireDecode_wireEncode, wireEncode_wireDecode, fun b _ h => execAll_sbrt_gbrt b h⟩

end Sys2Proof.Machine

/-! # Statements about the rendering (44_format.md)

The tokens of the model's rendering as the characters of R171; what FMT leaves when it completes; the packets
that attain the bounds of R172. -/

namespace Sys2Proof.Machine

/-! ## The tokens of the rendering (44_format.md R171) -/

theorem ascii_append (xs ys : List Char) : ascii (xs ++ ys) = ascii xs ++ ascii ys := List.map_append

theorem ascii_digitChar (n : Nat) : ascii [(n % 10).digitChar] = [digit n] := by
  have hcode : ∀ d : Fin 10, BitVec.ofNat 8 (d.val.digitChar).toNat = BitVec.ofNat 8 (0x30 + d.val) := by
    decide
  exact congrArg (· :: []) (hcode ⟨n % 10, Nat.mod_lt n (by decide)⟩)

/-- The last digit of a decimal, and the digits before it. -/
theorem ascii_toDigits (n : Nat) : ascii (Nat.toDigits 10 n) =
    if n < 10 then [digit n] else ascii (Nat.toDigits 10 (n / 10)) ++ [digit n] := by
  rw [Nat.toDigits_eq_if (by decide), ← ascii_digitChar]
  split
  · next h => rw [Nat.mod_eq_of_lt h]
  · rw [ascii_append]

/-- A byte has at most three digits, so `dec` writes them all. -/
theorem dec_eq_ascii_toDigits (b : Byte) : dec b = ascii (Nat.toDigits 10 b.toNat) := by
  have hb : b.toNat < 256 := b.isLt
  rw [dec, ascii_toDigits]
  split
  · rfl
  · rw [ascii_toDigits]
    split
    · rw [if_pos (by omega)]; rfl
    · rw [if_neg (by omega), ascii_toDigits, if_pos (by omega), Nat.div_div_eq_div_mul]; rfl

theorem boolTok_eq_ascii (v : Bool) : boolTok v = ascii (flagChars v) := by cases v <;> rfl

theorem brTok_wireDecode (c : BitVec 2) : brTok (wireDecode c) = ascii (levelChars c) := by
  revert c; decide

theorem getLsbD_packetTally (s : State) {k : Nat} (hk : k < 4) :
    (packetTally s).getLsbD k = (s.pbuf 1).getLsbD k := by
  simp [packetTally, Config.ctrlOff, hk]

theorem tallyTok_packetTally (c : Char) (k : Nat) (hk : k < 4) (s : State) :
    tallyTok c ((packetTally s).getLsbD k) =
      ascii [',', ' ', c, '='] ++ ascii (flagChars ((s.pbuf 1).getLsbD k)) := by
  rw [tallyTok, boolTok_eq_ascii, getLsbD_packetTally s hk]

/-- The model's rendering is the template of R170, in characters, and the decoded text. -/
theorem rendering_eq_renderedBytes (s : State) : rendering s = renderedBytes s (textLen s) := by
  have hbright : brTok (packetBrightness s) = ascii (levelChars ((s.pbuf 1).extractLsb' 4 2)) :=
    brTok_wireDecode _
  unfold rendering renderedBytes
  rw [dec_eq_ascii_toDigits, tallyTok_packetTally '1' 0 (by decide),
    tallyTok_packetTally '2' 1 (by decide), tallyTok_packetTally '3' 2 (by decide),
    tallyTok_packetTally '4' 3 (by decide), hbright]
  simp only [← ascii_append, ← List.append_assoc]
  rfl

/-! ## What FMT leaves (44_format.md R170) -/

/-- FMT writes storage and FMT_LEN alone. -/
theorem effectOf_fmt (s : State) : effectOf .fmt s =
    { s with mem := (effectOf .fmt s).mem, fmtLen := BitVec.ofNat 8 (rendering s).length } := by
  simp only [effectOf, State.setFmtout, State.setFmtLen, State.setMem]

/-- The state an FMT that passes its check leaves. Its storage `m` is known by its reads alone: unifying two
states that both hold the whole rendering is costly. -/
theorem exec_fmt_of_ready {s : State} (h : FieldReady false s) : ∃ m,
    exec .fmt s = .next { s with
      mem := m, fmtLen := BitVec.ofNat 8 (rendering s).length, statusCode := 0x00,
      statusDetail := 0x0000 } ∧
    ∀ a, Memory.read m a =
      if 0x80 ≤ a ∧ a < 0x100 then (rendering s).getD (a - 0x80) 0 else Memory.read s.mem a :=
  ⟨(effectOf .fmt s).mem, by rw [completes_of_ready (i := .fmt) rfl h, effectOf_fmt], read_effectOf_fmt s⟩

/-- Settles O31: form N, the field-access check, and the rendering in FMTOUT and FMT_LEN. -/
theorem fmtRendersThePacket : Obligations.FmtRendersThePacket := by
  refine ⟨fun _ ho => issues_of_formN ⟨_, rfl, rfl, rfl⟩ rfl ho, fun s =>
    ⟨fieldErrors_of_fieldNeeds rfl s, fun h => ⟨textLen s, decodedLength_textLen s, ?_⟩⟩⟩
  rw [← rendering_eq_renderedBytes]
  obtain ⟨m, hexec, hread⟩ := exec_fmt_of_ready h
  exact ⟨_, hexec, rfl, hread⟩

/-- An FMT that leaves the status OK leaves the rendering's length in FMT_LEN, and FMTOUT zero past it. -/
theorem fmtLen_fmtoutOk_of_exec_fmt {s t : State} (h : exec .fmt s = .next t) (hok : t.statusCode = 0x00) :
    t.fmtLen.toNat = (rendering s).length ∧ FmtoutOk t := by
  rcases exec_next h with ⟨f, -, rfl⟩ | ⟨-, rfl⟩
  · exact absurd hok (errCode_ne_zero f.err)
  · exact ⟨effectOf_fmt_fmtLen s,
      fmtoutOk_keptByEvents.status _ _ _ statusLegal_ok (fmtoutOk_effectOf_fmt s)⟩

/-! ## Packets at the bounds (44_format.md R172) -/

/-- The shortest rendering: address 0, every channel on, brightness 0 and no text. -/
def shortestPacket : State := { State.reset with len := 18, vstate := 0x01, mem := [(1, 0x0F)] }

/-- The longest: a three-digit address, every channel off, brightness 1/7 and a text of 16 bytes. -/
def longestPacket : State :=
  { State.reset with
    len := 18, vstate := 0x01,
    mem := Memory.writeBytes [] 0 ([0xE4, 0x10] ++ List.replicate 16 0x41) }

theorem length_rendering_shortestPacket : (rendering shortestPacket).length = 62 := by
  have htext : textLen shortestPacket = 0 := by decide
  rw [length_rendering, htext]
  decide

theorem length_rendering_longestPacket : (rendering longestPacket).length = 86 := by
  have htext : textLen longestPacket = 16 := by decide
  rw [length_rendering, htext]
  decide

/-- A packet that can be read is rendered at its length. -/
theorem exists_exec_fmt {s : State} (h : FieldReady false s) :
    ∃ t, exec .fmt s = .next t ∧ t.statusCode = 0x00 ∧ t.fmtLen.toNat = (rendering s).length :=
  ⟨_, completes_of_ready (i := .fmt) rfl h, rfl, effectOf_fmt_fmtLen s⟩

/-- Settles O32: the bounds of the rendering's length, and the two packets that attain them. -/
theorem fmtLengthIsBounded : Obligations.FmtLengthIsBounded := by
  refine ⟨fun s t h hok => ?_, ⟨shortestPacket, ?_⟩, ⟨longestPacket, ?_⟩⟩
  · obtain ⟨hlen, -, hzero⟩ := fmtLen_fmtoutOk_of_exec_fmt h hok
    obtain ⟨hmin, hmax⟩ := length_rendering_bounds s
    exact ⟨hlen ▸ hmin, hlen ▸ hmax, hzero⟩
  · rw [← length_rendering_shortestPacket]
    exact exists_exec_fmt (by unfold FieldReady; decide)
  · rw [← length_rendering_longestPacket]
    exact exists_exec_fmt (by unfold FieldReady; decide)

end Sys2Proof.Machine

/-! # Statements about errors (60_exceptions.md)

The codes each check reports, and so each command; the field-access check told apart from the checks of an
operand; a next state for every event. -/

namespace Sys2Proof.Machine

/-! ## The codes a check reports (60_exceptions.md R180) -/

theorem errCode_of_checkDetached {s : State} {f : Failure} (h : checkDetached s = some f) :
    errCode f.err = 0x12 := by
  rw [checkDetached, Option.ite_none_right_eq_some] at h
  obtain ⟨-, ⟨⟩⟩ := h
  rfl

theorem errCode_of_checkAttached {s : State} {f : Failure} (h : checkAttached s = some f) :
    errCode f.err = 0x11 := by
  rw [checkAttached, Option.ite_none_left_eq_some] at h
  obtain ⟨-, ⟨⟩⟩ := h
  rfl

/-- The codes of `fieldAccess(needW)` (60_exceptions.md R182). -/
def fieldAccessCodes (needW : Bool) : List Byte := if needW then [0x11, 0x13, 0x14] else [0x11, 0x14]

theorem fieldAccessCodes_subset (needW : Bool) : fieldAccessCodes needW ⊆ [0x11, 0x13, 0x14] := by
  cases needW <;> decide

theorem errCode_of_fieldAccess {needW : Bool} {s : State} {f : Failure} (h : fieldAccess needW s = some f) :
    errCode f.err ∈ fieldAccessCodes needW := by
  rcases fieldAccess_eq_some h with rfl | ⟨rfl, rfl⟩ | ⟨-, rfl⟩
  · cases needW <;> decide
  · decide
  · cases needW <;> simp [fieldAccessCodes, errCode]

theorem errCode_of_validatePass {n : Half} {s : State} {f : Failure} (h : validatePass n s = some f) :
    errCode f.err ∈ [0x01#8, 0x02#8, 0x03#8] := by
  rcases validatePass_eq_some h with ⟨-, rfl⟩ | ⟨-, -, rfl⟩ | ⟨-, -, k, -, -, -, rfl⟩ <;> simp [errCode]

theorem errCode_of_checkAddress {v : Byte} {f : Failure} (h : checkAddress v = some f) :
    errCode f.err = 0x04 := by
  rw [checkAddress, Option.ite_none_right_eq_some] at h
  obtain ⟨-, ⟨⟩⟩ := h
  rfl

theorem errCode_of_checkText {l : Half} {s : State} {f : Failure} (h : checkText l s = some f) :
    errCode f.err ∈ [0x05#8, 0x06#8] := by
  rcases checkText_eq_some h with ⟨-, rfl⟩ | ⟨-, k, -, -, -, rfl⟩ <;> simp [errCode]

theorem errCode_of_checkAnalog {v : Byte} {f : Failure} (h : checkAnalog v = some f) :
    errCode f.err = 0x07 := by
  unfold checkAnalog at h
  split at h
  · cases h
  · cases h; rfl

/-- Whatever check of a command fails, its code's row names the command. -/
theorem errCode_mem_codesOf {i : Instr} {s : State} {f : Failure} (h : checkOf i s = some f) :
    errCode f.err ∈ codesOf i := by
  cases i with
  | attu l w => simp [codesOf, errCode_of_checkDetached h]
  | attc l w =>
    rcases Option.or_eq_some_iff.mp h with h | ⟨-, h⟩
    · simp [codesOf, errCode_of_checkDetached h]
    · exact .tail _ (List.mem_append_left _ (errCode_of_validatePass h))
  | rel => simp [codesOf, errCode_of_checkAttached h]
  | val =>
    rcases Option.or_eq_some_iff.mp h with h | ⟨-, h⟩
    · simp [codesOf, errCode_of_checkAttached h]
    · exact .tail _ (List.mem_append_left _ (errCode_of_validatePass h))
  | gaddr | gtally | gbrt | gtext | fmt | stally t | sbrt b => exact .tail _ (errCode_of_fieldAccess h)
  | saddr v =>
    rcases Option.or_eq_some_iff.mp h with h | ⟨-, h⟩
    · exact .tail _ (.tail _ (errCode_of_fieldAccess h))
    · simp [codesOf, errCode_of_checkAddress h]
  | stext l | stextp l =>
    rcases Option.or_eq_some_iff.mp h with h | ⟨-, h⟩
    · exact .tail _ (.tail _ (.tail _ (errCode_of_fieldAccess h)))
    · exact .tail _ (List.mem_append_left _ (errCode_of_checkText h))
  | b2a b => cases h
  | a2b v => simp [codesOf, errCode_of_checkAnalog h]

/-- Every command can complete. -/
theorem codeOk_mem_codesOf (i : Instr) : codeOk ∈ codesOf i := by
  cases i <;> exact .head _

/-- Settles O33: a report is a row that names the command, a completion the row of OK, and an illegal word
is reported with its op. -/
theorem statusFollowsTheTable : Obligations.StatusFollowsTheTable := by
  refine ⟨fun i s t h => ?_, fun s t he h => ?_⟩
  · rcases exec_next h with ⟨f, hf, rfl⟩ | ⟨-, rfl⟩
    · exact ⟨statusLegal_of_checkOf hf, errCode_mem_codesOf hf⟩
    · exact ⟨statusLegal_ok, codeOk_mem_codesOf i⟩
  · cases (executeWord_of_illegal he).symm.trans h
    exact ⟨rfl, rfl⟩

/-! ## The field-access check and the checks after it (60_exceptions.md R182, R183) -/

/-- Once the field-access check has passed, what a field command still reports is about its operand. -/
theorem errCode_of_operand {i : Instr} {needW : Bool} {s : State} {f : Failure}
    (hi : fieldNeeds i = some needW) (hpass : fieldAccess needW s = none) (h : checkOf i s = some f) :
    errCode f.err ∈ [0x04#8, 0x05#8, 0x06#8] := by
  cases i with
  | gaddr | gtally | gbrt | gtext | fmt | stally | sbrt => cases hi; cases hpass.symm.trans h
  | saddr v =>
    cases hi
    rw [checkOf, hpass, Option.none_or] at h
    simp [errCode_of_checkAddress h]
  | stext l | stextp l =>
    cases hi
    rw [checkOf, hpass, Option.none_or] at h
    exact .tail _ (errCode_of_checkText h)
  | attu | attc | rel | val | b2a | a2b => cases hi

/-- Where the view does not allow the access, a field command reports a field-access error. -/
theorem code_of_not_ready {i : Instr} {needW : Bool} {s t : State} (hi : fieldNeeds i = some needW)
    (h : exec i s = .next t) (hn : ¬ FieldReady needW s) : t.statusCode ∈ [0x11#8, 0x13#8, 0x14#8] := by
  obtain ⟨f, hf⟩ := Option.ne_none_iff_exists'.mp (mt fieldAccess_eq_none_iff.mp hn)
  cases (raises_of_check (checkOf_of_fieldAccess hi hf)).symm.trans h
  exact fieldAccessCodes_subset needW (errCode_of_fieldAccess hf)

/-- Where the view allows the access, it reports none. -/
theorem code_of_ready {i : Instr} {needW : Bool} {s t : State} (hi : fieldNeeds i = some needW)
    (h : exec i s = .next t) (hr : FieldReady needW s) : t.statusCode ∉ [0x11#8, 0x13#8, 0x14#8] := by
  have hdisjoint : ∀ c ∈ [0x00#8, 0x04#8, 0x05#8, 0x06#8], c ∉ [0x11#8, 0x13#8, 0x14#8] := by decide
  refine hdisjoint _ ?_
  rcases exec_next h with ⟨f, hf, rfl⟩ | ⟨-, rfl⟩
  · exact .tail _ (errCode_of_operand hi (fieldAccess_eq_none_iff.mpr hr) hf)
  · exact .head _

/-- Settles O34: the two directions above, and the errors in their order. -/
theorem fieldAccessGuardsFieldCommands : Obligations.FieldAccessGuardsFieldCommands :=
  fun _ _ s _ hi h =>
    ⟨⟨fun hcode hr => code_of_ready hi h hr hcode, code_of_not_ready hi h⟩, fieldErrors_of_fieldNeeds hi s⟩

/-! ## No partial effect (60_exceptions.md R184) -/

/-- Settles O35: a command that raises does nothing else, and one that completes leaves the code of OK. -/
theorem errorsChangeOnlyTheStatus : Obligations.ErrorsChangeOnlyTheStatus := by
  intro i s t h hne
  rcases exec_next h with ⟨f, -, rfl⟩ | ⟨-, rfl⟩
  · rfl
  · exact absurd rfl hne

/-! ## Every event is performed (20_memory.md R64, 60_exceptions.md R181) -/

theorem executeWord_answers (s : State) : ∃ t, executeWord s = .next t := by
  cases hd : decode s.commandWord with
  | ok i => rw [executeWord_of_ok hd]; exact exec_answers i s
  | error e => exact ⟨_, executeWord_of_error hd⟩

theorem hostWrite_answers (addr v : Byte) (s : State) : ∃ t, hostWrite addr v s = .next t := by
  by_cases ha : addr = 0x43
  · rw [ha, hostWrite_cmdOp]; exact executeWord_answers _
  · exact ⟨_, hostWrite_of_ne ha⟩

/-- Settles O36: waiting, an access and a reset each leave a next state, and so does every command. -/
theorem everyStepGoesOn : Obligations.EveryStepGoesOn := by
  intro s
  cases hp : s.pending with
  | nil => exact ⟨s, step_idle hp⟩
  | cons e es =>
    rw [step_event hp]
    cases e with
    | write addr v => exact hostWrite_answers addr v _
    | read addr => exact ⟨_, rfl⟩
    | reset => exact ⟨_, rfl⟩

end Sys2Proof.Machine

/-! # Statements about reset and waiting (70_reset_and_hazards.md)

The state a reset leaves, read through the host port and as a state of a run; the wait with no event pending;
and the build sequence: a packet whose fields are all set under an unchecked view validates. -/

namespace Sys2Proof.Machine

/-! ## Reset (70_reset_and_hazards.md R200, R201) -/

/-- Settles O42: every part of the invariant holds after reset. -/
theorem resetHasTheInvariant : Obligations.ResetHasTheInvariant where
  storage := storageOk_keptByEvents.reset
  vstate := vstateOk_keptByEvents.reset
  checked := checkedOk_keptByEvents.reset
  flags := flagsOk_keptByEvents.reset
  txtout := txtoutOk_keptByEvents.reset
  fmtout := fmtoutOk_keptByEvents.reset
  status := statusLegal_keptByEvents.reset

theorem step_reset {s : State} {es : List HostEvent} (h : s.pending = .reset :: es) :
    step s = .next { State.reset with pending := es, returned := s.returned } :=
  step_event h

/-- After reset every kind of register reads as 0. -/
theorem hostRead_reset (a : Byte) : hostRead State.reset a = 0x00 := by
  unfold hostRead
  cases hostReg a <;> rfl

/-- With no view attached a host write to PBUF is stored (20_memory.md R58). -/
theorem pbuf_hostStore_of_detached {s : State} (hv : viewOf s.vstate = 0#2) {k : Nat} (hk : k < 18)
    (v : Byte) : (hostStore (BitVec.ofNat 8 k) v s).pbuf k = v := by
  rw [hostStore_pbuf s hk, hostWritePbuf_of_detached hv, pbuf_eq_read,
    read_setPbuf, if_pos rfl]

/-- The command word after reset is illegal: 0x00 is no op (30_encoding.md R86). -/
theorem decode_commandWord_reset : ∃ e, decode State.reset.commandWord = .error e :=
  ⟨.unassignedOp 0x00, rfl⟩

/-- Settles O50: the reset event, the reads of its state, no view and so no guard on PBUF, and the illegal
word that a write of 0x00 to CMD_OP issues. -/
theorem resetClearsEveryRegister : Obligations.ResetClearsEveryRegister :=
  ⟨fun _ _ hp => ⟨_, step_reset hp, rfl⟩, hostRead_reset, ⟨rfl, rfl, rfl, rfl, rfl, rfl, rfl⟩,
    fun _ v hk => pbuf_hostStore_of_detached rfl hk v, executeWord_of_illegal decode_commandWord_reset⟩

/-! ## Waiting (70_reset_and_hazards.md R202) -/

/-- Settles O51: with no event pending the step is the wait. -/
theorem waitsForTheHost : Obligations.WaitsForTheHost := fun _ => step_idle

/-! ## Building a packet (70_reset_and_hazards.md R204) -/

/-- A run of two parts goes on from where its first part leads. -/
theorem execAll_append {p q : List Instr} {s t : State} (h : execAll p s = .next t) :
    execAll (p ++ q) s = execAll q t := by
  induction p generalizing s with
  | nil => cases h; rfl
  | cons i is ih =>
    obtain ⟨u, hu⟩ := exec_answers i s
    rw [execAll_cons hu] at h
    exact (execAll_cons hu).trans (ih h)

/-- A writable unchecked view of a packet's length, as ATTU 18, 1 leaves it, is ready for every field command
(40_view.md R100, 60_exceptions.md R182). -/
theorem fieldReady_of_writable {s : State} (hl : s.len = 18#16) (hv : s.vstate = 0x05) :
    FieldReady true s :=
  ⟨by rw [hv]; decide, fun _ => by rw [hv]; decide, hl⟩

/-- The four setters, with operands their checks accept, run under a view that is ready for them. -/
theorem exists_storesAll_setters {a : Byte} (t : BitVec 4) (b : Brightness) {l : Half} {s : State}
    {text : Instr} (h : FieldReady true s) (ha : a.toNat ≤ 0x7E) (hg : GoodText l s)
    (htext : text = .stext l ∨ text = .stextp l) :
    ∃ u, StoresAll [.saddr a, .stally t, .sbrt b, text] s u := by
  have hneeds : fieldNeeds text = some true := by rcases htext with rfl | rfl <;> rfl
  refine exists_storesAll _ ?_
  simp only [List.forall_mem_cons]
  exact ⟨⟨rfl, (checkOf_saddr_of_ready h a).trans (checkAddress_eq_none.mpr ha)⟩,
    ⟨rfl, checkOf_stally_of_ready h t⟩, ⟨rfl, checkOf_sbrt_of_ready h b⟩,
    ⟨hneeds, checkOf_text_eq_none h htext hg⟩, nofun⟩

/-- A text setter leaves display bytes: each byte is one of a good text, a padding space, or as it was. -/
theorem dispByte_storedByte_text {l : Half} {s : State} {text : Instr} (hg : GoodText l s)
    (htext : text = .stext l ∨ text = .stextp l) {k : Nat} (hk : k < 16) {c : Byte} (hc : DispByte c) :
    DispByte (storedByte s.txtin text (2 + k) c) := by
  obtain ⟨-, hgood⟩ := hg
  rcases htext with rfl | rfl
  · rw [storedByte_stext_display]
    split
    · exact .inl (hgood k ‹_›)
    · exact hc
  · rw [storedByte_stextp_display _ _ hk]
    split
    · exact .inl (hgood k ‹_›)
    · exact .inl (by unfold TextByte; decide)

/-- The address byte that SADDR stores carries the marker (42_mutators.md R141). -/
theorem marker_of_addressSet (v : Byte) : (1#1 ++ v.extractLsb' 0 7 : Byte).getLsbD 7 = true := by
  revert v; decide

/-- The four setters make a displayable region a valid packet: SADDR sets the marker, and the text setter
keeps the region displayable. -/
theorem StoresAll.validBytes_of_setters {a : Byte} {t : BitVec 4} {b : Brightness} {l : Half} {s u : State}
    {text : Instr} (h : StoresAll [.saddr a, .stally t, .sbrt b, text] s u) (hg : GoodText l s)
    (htext : text = .stext l ∨ text = .stextp l) (hdisplay : ∀ k, k < 16 → DispByte (s.pbuf (2 + k))) :
    ValidBytes u := by
  have hfield : fieldSet text = some .text := by rcases htext with rfl | rfl <;> rfl
  have hbyte : ∀ k, u.pbuf k =
      storedBytes s.txtin [.saddr a, .stally t, .sbrt b, text] k (s.pbuf k) := fun k => by
    rw [pbuf_eq_read, h.read, pbuf_eq_read]
  refine ⟨?_, fun k hk => ?_⟩
  · rw [hbyte, storedBytes_setters_address _ _ _ _ _ hfield]
    exact marker_of_addressSet a
  · rw [hbyte, storedBytes_setters_display]
    exact dispByte_storedByte_text hg htext hk (hdisplay k hk)

/-- Settles O26: ATTU gives a writable view of a packet's length, the setters run under it and leave a valid
packet, and that is what VAL checks. -/
theorem builtPacketValidates : Obligations.BuiltPacketValidates := by
  intro a t b l s text hv hdisplay ha hg htext
  have hattach : Completes (.attu 18 true) s { s with len := 18, vstate := 0x05 } :=
    (attuAttachesUncheckedView.2 18 true s).2 hv
  have hready : FieldReady true
      { s with len := 18, vstate := 0x05, statusCode := 0x00, statusDetail := 0x0000 } :=
    fieldReady_of_writable rfl rfl
  obtain ⟨u, hu⟩ := exists_storesAll_setters t b hready ha hg htext.symm
  obtain ⟨hview, -, hlen⟩ := hready.congr (t := u) (by rw [hu.frame]) (by rw [hu.frame])
  have hvalid : ValidBytes u := hu.validBytes_of_setters hg htext.symm hdisplay
  have hval : Completes .val u u := completes_of_check (checkOf_val_eq_none hview hlen hvalid)
  exact ⟨_, (execAll_cons hattach).trans ((execAll_append (q := [.val]) hu.run).trans (execAll_cons hval)),
    rfl⟩

end Sys2Proof.Machine
